-- ==== Sys2Proof/Word.lean ====
section
/-! DEFINITION. The word types of the AFC block (spec 00_scope.md R7): buffer bytes, 16-bit offsets and
checksums, 32-bit host words. The five kinds of encoded word an instruction of the opcode table can be read from. -/

namespace Sys2Proof

/-- One entry of TXBUF or RXBUF (R7). -/
abbrev Byte := BitVec 8

/-- A host byte offset, or a checksum (R7). -/
abbrev Half := BitVec 16

/-- A host register, a layout descriptor, a field value or a field tag (R7). -/
abbrev Word := BitVec 32

/-- Where an encoded instruction stands: the column "format" of the opcode table, HOSTREG split by direction. -/
inductive Format where
  /-- A host command word, written to CMD (30_encoding.md R100). -/
  | cmd
  /-- A layout descriptor word, an entry of LAYOUT (30_encoding.md R104). -/
  | desc
  /-- A request code, BUILD's CODE byte (30_encoding.md R96). -/
  | wire
  /-- A host write: 16 offset bits, then 32 data bits (10_state.md R21). -/
  | hostWrite
  /-- A host read: 16 offset bits (10_state.md R21). -/
  | hostRead
  deriving DecidableEq, Repr

end Sys2Proof
end

