-- ==== Sys2Proof/Syntax.lean ====
section
/-! DEFINITION. The instructions of the AFC block: one constructor per row of spec/opcode_table.json, in the
table's order. Operands that stand in ARG0 and ARG1 are registers (10_state.md R50), not part of the word. -/

namespace Sys2Proof

/-- The 25 rows of the opcode table. -/
inductive Instr where
  /-- NOP, OP 0x00 (R236). -/
  | nop
  /-- BUILD, OP 0x01: CODE = CMD[15:8], SYS = CMD[16], POS = CMD[23:20], GRP = CMD[26:24] (R101, R141). -/
  | build (code : Byte) (sys : Bool) (pos : BitVec 4) (grp : BitVec 3)
  /-- XACT, OP 0x02 (R153). -/
  | xact
  /-- VERIFY, OP 0x03 (R133). -/
  | verify
  /-- GATECHK, OP 0x04 (R134). -/
  | gatechk
  /-- EXTU, OP 0x05; OFF, WID and DIV stand in ARG0 and ARG1 (R184). -/
  | extu
  /-- EXTS, OP 0x06; OFF, WID and DIV stand in ARG0 and ARG1 (R185). -/
  | exts
  /-- PARSE, OP 0x07: DIDX = CMD[14:8]; START and NOM stand in ARG0 and ARG1 (R201). -/
  | parse (didx : BitVec 7)
  /-- Reserved opcodes 0x08 to 0x0F (R237). -/
  | reserved08 (op : Byte)
  /-- Reserved opcodes 0x10 to 0x1F (R237). -/
  | reserved10 (op : Byte)
  /-- Reserved opcodes 0x20 to 0x3F (R237). -/
  | reserved20 (op : Byte)
  /-- Reserved opcodes 0x40 to 0x7F (R237). -/
  | reserved40 (op : Byte)
  /-- Reserved opcodes 0x80 to 0xFF (R237). -/
  | reserved80 (op : Byte)
  /-- Descriptor END, KIND 0 (R203). -/
  | endRec
  /-- Descriptor VAL, KIND 1 (R204). -/
  | val (wid : BitVec 4) (sgn : Bool) (dsel : BitVec 2) (add1 : Bool) (fid : Byte)
  /-- Descriptor CNT, KIND 2 (R205). -/
  | cnt (wid : BitVec 4) (csel : Bool) (fid : Byte)
  /-- Descriptor REP, KIND 3 (R206). -/
  | rep (wid : BitVec 4) (sgn : Bool) (dsel : BitVec 2) (add1 : Bool) (csel : Bool) (fid : Byte)
  /-- Descriptor OPQ, KIND 4 (R207). -/
  | opq (len : BitVec 12) (fid : Byte)
  /-- Reserved descriptor KIND 5 (R208). -/
  | badDesc5
  /-- Reserved descriptor KINDs 6 and 7 (R208). -/
  | badDesc67 (kind : BitVec 3)
  /-- Request code 0x42, the analog data query, as BUILD's CODE (R96). -/
  | queryAnalog
  /-- Request code 0x4F, the protocol version query, as BUILD's CODE (R96). -/
  | queryVersion
  /-- HostWrite to CSACC (R131). -/
  | csaccWrite (data : Word)
  /-- HostWrite to CSFEED (R131). -/
  | csfeedWrite (data : Word)
  /-- HostRead of CSRES (R132). -/
  | csresRead
  deriving DecidableEq, Repr

end Sys2Proof
end

