-- ==== Sys2Proof/Decode.lean ====
section
/-! DEFINITION. The decoders of the five formats, and after them the encoder. Bit numbers follow 00_scope.md R8;
the fields follow 30_encoding.md R100, R101 and R104. Reserved operand bits are ignored (R102, R107). -/

namespace Sys2Proof

/-- Why bytes are no instruction. -/
inductive DecodeError where
  /-- Fewer bytes than the format's word has. -/
  | truncated
  /-- A request code other than 0x42 and 0x4F; BUILD completes BAD_ARG on it (R96). -/
  | notARequestCode (b : Byte)
  /-- A host access other than CSACC write, CSFEED write and CSRES read: no row of the opcode table. -/
  | notAChecksumPort (a : Half)
  deriving DecidableEq, Repr

/-- OP = CMD[7:0] (R100). -/
def cmdOp (w : Word) : Byte := w.extractLsb' 0 8

/-- CODE = CMD[15:8] (R101). -/
def cmdCode (w : Word) : Byte := w.extractLsb' 8 8

/-- SYS = CMD[16] (R101). -/
def cmdSys (w : Word) : Bool := w.getLsbD 16

/-- POS = CMD[23:20] (R101). -/
def cmdPos (w : Word) : BitVec 4 := w.extractLsb' 20 4

/-- GRP = CMD[26:24] (R101). -/
def cmdGrp (w : Word) : BitVec 3 := w.extractLsb' 24 3

/-- DIDX = CMD[14:8] (R101). -/
def cmdDidx (w : Word) : BitVec 7 := w.extractLsb' 8 7

/-- The command a CMD word names (R100); every word names one, the reserved opcodes included. -/
def decodeCmd (w : Word) : Instr :=
  match (cmdOp w).toNat with
  | 0 => .nop
  | 1 => .build (cmdCode w) (cmdSys w) (cmdPos w) (cmdGrp w)
  | 2 => .xact
  | 3 => .verify
  | 4 => .gatechk
  | 5 => .extu
  | 6 => .exts
  | 7 => .parse (cmdDidx w)
  | n =>
    if n < 16 then .reserved08 (cmdOp w)
    else if n < 32 then .reserved10 (cmdOp w)
    else if n < 64 then .reserved20 (cmdOp w)
    else if n < 128 then .reserved40 (cmdOp w)
    else .reserved80 (cmdOp w)

/-- WID = D[3:0] (R104). -/
def descWid (w : Word) : BitVec 4 := w.extractLsb' 0 4

/-- SGN = D[4] (R104). -/
def descSgn (w : Word) : Bool := w.getLsbD 4

/-- DSEL = D[6:5] (R104). -/
def descDsel (w : Word) : BitVec 2 := w.extractLsb' 5 2

/-- ADD1 = D[7] (R104). -/
def descAdd1 (w : Word) : Bool := w.getLsbD 7

/-- KIND = D[10:8] (R104). -/
def descKind (w : Word) : BitVec 3 := w.extractLsb' 8 3

/-- CSEL = D[11] (R104). -/
def descCsel (w : Word) : Bool := w.getLsbD 11

/-- LEN = D[23:12] (R104). -/
def descLen (w : Word) : BitVec 12 := w.extractLsb' 12 12

/-- FID = D[31:24] (R104). -/
def descFid (w : Word) : Byte := w.extractLsb' 24 8

/-- The descriptor a LAYOUT word is (R105); every word is one, the reserved kinds included. -/
def decodeDesc (w : Word) : Instr :=
  match (descKind w).toNat with
  | 0 => .endRec
  | 1 => .val (descWid w) (descSgn w) (descDsel w) (descAdd1 w) (descFid w)
  | 2 => .cnt (descWid w) (descCsel w) (descFid w)
  | 3 => .rep (descWid w) (descSgn w) (descDsel w) (descAdd1 w) (descCsel w) (descFid w)
  | 4 => .opq (descLen w) (descFid w)
  | 5 => .badDesc5
  | _ => .badDesc67 (descKind w)

/-- The request code a CODE byte is (R96). -/
def decodeCode (b : Byte) : Except DecodeError Instr :=
  if b = 0x42 then .ok .queryAnalog
  else if b = 0x4F then .ok .queryVersion
  else .error (.notARequestCode b)

/-- The word an offset acts on: offset bits [1:0] are not decoded (20_memory.md R68). -/
def wordOffset (a : Half) : Half := a &&& 0xFFFC

/-- A HostWrite that is a row of the opcode table (R131). -/
def decodeHostWrite (a : Half) (data : Word) : Except DecodeError Instr :=
  if wordOffset a = 0x060 then .ok (.csaccWrite data)
  else if wordOffset a = 0x064 then .ok (.csfeedWrite data)
  else .error (.notAChecksumPort a)

/-- A HostRead that is a row of the opcode table (R132). -/
def decodeHostRead (a : Half) : Except DecodeError Instr :=
  if wordOffset a = 0x068 then .ok .csresRead
  else .error (.notAChecksumPort a)

/-- A 32-bit word from its four bytes, least significant first. DESIGN CHOICE (log 10): the spec gives a word no
byte order, since no host access moves single bytes (R65). -/
def wordOfBytes (b0 b1 b2 b3 : Byte) : Word := b3 ++ b2 ++ b1 ++ b0

/-- The decoder: total on any bytes of any format. -/
def decode (f : Format) (bytes : List Byte) : Except DecodeError Instr :=
  match f, bytes with
  | .cmd, b0 :: b1 :: b2 :: b3 :: _ => .ok (decodeCmd (wordOfBytes b0 b1 b2 b3))
  | .desc, b0 :: b1 :: b2 :: b3 :: _ => .ok (decodeDesc (wordOfBytes b0 b1 b2 b3))
  | .wire, b0 :: _ => decodeCode b0
  | .hostWrite, a0 :: a1 :: b0 :: b1 :: b2 :: b3 :: _ => decodeHostWrite (a1 ++ a0) (wordOfBytes b0 b1 b2 b3)
  | .hostRead, a0 :: a1 :: _ => decodeHostRead (a1 ++ a0)
  | _, _ => .error .truncated

/-- The format of each row of the opcode table. -/
def formatOf : Instr → Format
  | .nop => .cmd
  | .build _ _ _ _ => .cmd
  | .xact => .cmd
  | .verify => .cmd
  | .gatechk => .cmd
  | .extu => .cmd
  | .exts => .cmd
  | .parse _ => .cmd
  | .reserved08 _ => .cmd
  | .reserved10 _ => .cmd
  | .reserved20 _ => .cmd
  | .reserved40 _ => .cmd
  | .reserved80 _ => .cmd
  | .endRec => .desc
  | .val _ _ _ _ _ => .desc
  | .cnt _ _ _ => .desc
  | .rep _ _ _ _ _ _ => .desc
  | .opq _ _ => .desc
  | .badDesc5 => .desc
  | .badDesc67 _ => .desc
  | .queryAnalog => .wire
  | .queryVersion => .wire
  | .csaccWrite _ => .hostWrite
  | .csfeedWrite _ => .hostWrite
  | .csresRead => .hostRead

/-- The four bytes of a word, least significant first (log 10). -/
def wordBytes (w : Word) : List Byte :=
  [w.extractLsb' 0 8, w.extractLsb' 8 8, w.extractLsb' 16 8, w.extractLsb' 24 8]

/-- The two bytes of an offset, least significant first (log 10). -/
def halfBytes (a : Half) : List Byte := [a.extractLsb' 0 8, a.extractLsb' 8 8]

/-- A CMD word with opcode `op` and no operand bits (R114). -/
def cmdWord (op : Byte) : Word := (0#24 : BitVec 24) ++ op

/-- BUILD's word: 0x01, CODE at 8, SYS at 16, POS at 20, GRP at 24 (R114). -/
def buildWord (code : Byte) (sys : Bool) (pos : BitVec 4) (grp : BitVec 3) : Word :=
  (0#5 : BitVec 5) ++ grp ++ pos ++ (0#3 : BitVec 3) ++ BitVec.ofBool sys ++ code ++ (1#8 : BitVec 8)

/-- PARSE's word: 0x07, DIDX at 8 (R114). -/
def parseWord (didx : BitVec 7) : Word := (0#17 : BitVec 17) ++ didx ++ (7#8 : BitVec 8)

/-- A descriptor word from its fields, at the places of R104. -/
def descWord (wid : BitVec 4) (sgn : Bool) (dsel : BitVec 2) (add1 : Bool) (kind : BitVec 3) (csel : Bool)
    (len : BitVec 12) (fid : Byte) : Word :=
  fid ++ len ++ BitVec.ofBool csel ++ kind ++ BitVec.ofBool add1 ++ dsel ++ BitVec.ofBool sgn ++ wid

/-- The bytes of a well-formed instruction, reserved bits 0 (R102, R114, R115). -/
def encode : Instr → List Byte
  | .nop => wordBytes (cmdWord 0x00)
  | .build code sys pos grp => wordBytes (buildWord code sys pos grp)
  | .xact => wordBytes (cmdWord 0x02)
  | .verify => wordBytes (cmdWord 0x03)
  | .gatechk => wordBytes (cmdWord 0x04)
  | .extu => wordBytes (cmdWord 0x05)
  | .exts => wordBytes (cmdWord 0x06)
  | .parse didx => wordBytes (parseWord didx)
  | .reserved08 op => wordBytes (cmdWord op)
  | .reserved10 op => wordBytes (cmdWord op)
  | .reserved20 op => wordBytes (cmdWord op)
  | .reserved40 op => wordBytes (cmdWord op)
  | .reserved80 op => wordBytes (cmdWord op)
  | .endRec => wordBytes (descWord 0 false 0 false 0 false 0 0)
  | .val wid sgn dsel add1 fid => wordBytes (descWord wid sgn dsel add1 1 false 0 fid)
  | .cnt wid csel fid => wordBytes (descWord wid false 0 false 2 csel 0 fid)
  | .rep wid sgn dsel add1 csel fid => wordBytes (descWord wid sgn dsel add1 3 csel 0 fid)
  | .opq len fid => wordBytes (descWord 0 false 0 false 4 false len fid)
  | .badDesc5 => wordBytes (descWord 0 false 0 false 5 false 0 0)
  | .badDesc67 kind => wordBytes (descWord 0 false 0 false kind false 0 0)
  | .queryAnalog => [0x42]
  | .queryVersion => [0x4F]
  | .csaccWrite data => halfBytes 0x060 ++ wordBytes data
  | .csfeedWrite data => halfBytes 0x064 ++ wordBytes data
  | .csresRead => halfBytes 0x068

/-- The number of bytes of a format's word. -/
def formatBytes : Format → Nat
  | .cmd => 4
  | .desc => 4
  | .wire => 1
  | .hostWrite => 6
  | .hostRead => 2

/-- The first `n` bytes of the number `w`, least significant first. -/
def natBytes : Nat → Nat → List Byte
  | 0, _ => []
  | n + 1, w => BitVec.ofNat 8 w :: natBytes n (w / 256)

/-- Which format a word of the opcode table is in. DESIGN CHOICE (log 11): the table's formats overlap as numbers
(0x42 is a request code and a reserved opcode), so the width the table gives the row picks the format. One byte: a
request code where it is one, else CMD. Two bytes: a checksum port where it is one, else a descriptor. More: a
descriptor where only its upper bytes are set, else CMD. -/
def tableFormat (nbits w : Nat) : Format :=
  if nbits ≤ 8 then
    if w = 0x42 ∨ w = 0x4F then .wire else .cmd
  else if nbits ≤ 16 then
    if w / 4 = 0x18 ∨ w / 4 = 0x19 then .hostWrite
    else if w / 4 = 0x1A then .hostRead
    else .desc
  else if w % 256 = 0 ∧ w ≠ 0 then .desc
  else .cmd

/-- The instruction the decoder reads from a word of the opcode table, every bit above `nbits` 0. -/
def decodeTableWord (nbits w : Nat) : Option Instr :=
  let v := w % 2 ^ nbits
  let f := tableFormat nbits v
  match decode f (natBytes (formatBytes f) v) with
  | .ok i => some i
  | .error _ => none

end Sys2Proof
end

