-- ==== Sys2Proof/Config.lean ====
section
/-! DEFINITION. What an implementation of the block fixes (00_scope.md R6), and the free values: values the spec
calls unspecified (93_implementation_defined.md U5 to U10). A free value has no body, so nothing can be proved of it. -/

namespace Sys2Proof.Config

/-- The implementation parameters of R6 that an integrator chooses. A state carries them unchanged, so a statement
about every state holds for every choice. The parameters that R6 fixes are the constants below. -/
structure Params where
  /-- P_RXBUF_BYTES, the receive buffer size, legal from 20 to 4096. -/
  rxbufBytes : Nat
  /-- P_GAP_RESET, the reset value of GAP in ticks. -/
  gapReset : Word
  /-- P_TMO_RESET, the reset value of TMO in ticks. -/
  tmoReset : Word
  /-- P_MINLEN_RESET, the reset value of MINLEN in bytes. -/
  minlenReset : Half
  /-- P_TICK in microseconds. No rule depends on it: the block counts Tick events (60_exceptions.md R247). -/
  tickMicros : Nat
  /-- P_BASE, the block's base in a system map. No rule depends on it: offsets are relative (20_memory.md R70). -/
  base : Nat
  deriving DecidableEq, Repr

/-- The legal range of the one bounded parameter (R6). Outside it the use is outside the spec (U24). -/
def Params.valid (p : Params) : Bool := decide (20 ≤ p.rxbufBytes ∧ p.rxbufBytes ≤ 4096)

/-- The defaults of R6. DESIGN CHOICE (log 14): R6 gives P_BASE no default; 0 stands here and nothing reads it. -/
def defaults : Params :=
  { rxbufBytes := 4096, gapReset := 900, tmoReset := 2000, minlenReset := 18, tickMicros := 1000, base := 0 }

/-- P_LAYOUT_WORDS (R6, fixed). -/
abbrev layoutWords : Nat := 128

/-- P_FIELD_SLOTS (R6, fixed). -/
abbrev fieldSlots : Nat := 1024

/-- P_MAX_DIGITS (R6, fixed). -/
abbrev maxDigits : Nat := 8

/-- The size of TXBUF, and of every built frame (R48, R94). -/
abbrev txbufBytes : Nat := 20

/-- A FREE VALUE: byte `i` of the unspecified byte contents drawn in draw number `draw` (U6, U7, U8). -/
opaque freeByte (draw i : Nat) : Byte

/-- A FREE VALUE: word `i` of the unspecified word contents drawn in draw number `draw` (U5, U6). -/
opaque freeWord (draw i : Nat) : Word

/-- A FREE VALUE: `tx_data` while `tx_valid` is 0 and `draws` draws have been made (U10; log 17). A constant of its own,
so that no value of it is tied to a byte of TXBUF or RXBUF. -/
opaque freeTxData (draws : Nat) : Byte

end Sys2Proof.Config
end

