-- ==== Sys2Proof/Machine/DefaultLayout.lean ====
section
/-! DEFINITION. The two layout programs that Reset loads (44_record_parser.md R214 to R216). -/

namespace Sys2Proof.Machine

/-- The header program, entries 0 to 14 (R215). -/
def headerProgram : List Word :=
  [0x01000144, 0x02000114, 0x03000104, 0x04000104, 0x05000104,
   0x06000134, 0x07000134, 0x08000104, 0x09000104, 0x0A000134,
   0x0B000134, 0x0C012400, 0x0D000102, 0x0E000102, 0x00000000]

/-- The battery program, entries 32 to 68 (R216). -/
def batteryProgram : List Word :=
  [0x20000182, 0x21000104, 0x22000144, 0x23000202, 0x24000364, 0x25000134, 0x26000134, 0x27000134,
   0x28000A02, 0x29000B34, 0x2A000154, 0x2B000104, 0x2C000104, 0x2D000102, 0x2E000144, 0x2F000144,
   0x30000104, 0x31000104, 0x32000104, 0x33000104, 0x34000134, 0x35000134, 0x36000104, 0x37000104,
   0x38000104, 0x39000104, 0x3A000104, 0x3B000104, 0x3C000104, 0x3D000104, 0x3E000104, 0x3F000104,
   0x40000104, 0x41000104, 0x42000104, 0x43008400, 0x00000000]

/-- What entry `i` of LAYOUT holds after Reset, and so what an entry that the state does not list holds: the two
programs, and 0 (END) everywhere else (R214). -/
def defaultLayout (i : Nat) : Word :=
  if i < 32 then headerProgram.getD i 0 else batteryProgram.getD (i - 32) 0

end Sys2Proof.Machine
end

