-- ==== Sys2Proof/Machine/State.lean ====
section
/-! DEFINITION. The state of the AFC block: every register, memory and hidden element of spec 10_state.md, the
interpreter registers of 44_record_parser.md R200, the parameters of 00_scope.md R6, and four fields of the model's own
(the events to come, the last read data, the draw counter and the draw numbers of the drawn memories). -/

namespace Sys2Proof.Machine

/-- XSTATE.PHASE (R44). -/
inductive Phase where
  | idle | tx | gap | rx | run
  deriving DecidableEq, Repr

/-- XSTATE.ASM, the receive assembler's state (R44, R160). -/
inductive Asm where
  | waitFirst | inFrame | skip | over
  deriving DecidableEq, Repr

/-- The completion codes of R233. Codes 13 to 31 are never produced (U21). -/
inductive Code where
  | ok | timeout | unverified | badWidth | divZero | range | notHex | badDesc | descOvf | slotOvf
  | badArg | noFrame | badOp
  deriving DecidableEq, Repr

/-- REJLAST.CAUSE (R38): no rejection, or the gate a to e that rejected. Values 6 and 7 are never produced (U21). -/
inductive Cause where
  | clear | delimiter | checksum | short | rtn | overlong
  deriving DecidableEq, Repr

/-- One event of the block's environment, or the block's own Retire (R13, R20). -/
inductive Event where
  | hostWrite (addr : Half) (data : Word)
  | hostRead (addr : Half)
  | rxByte (b : Byte)
  | txAccept
  | tick
  | retire
  | reset
  deriving DecidableEq, Repr

/-- The registers of the host map (R22), in the order of their offsets. -/
inductive HostReg where
  | id | ctrl | status | cmd | arg0 | arg1 | gap | tmo | minlen | rxlen | res0 | res1 | res2 | next | faultoff
  | cnt0 | cnt1 | nslot | rejlast | rejcntA | rejcntB | rejcntC | rejcntD | rejcntE | csacc | csfeed | csres
  | txlen | xstate | tcnt | txpos
  deriving DecidableEq, Repr

/-- What a host offset selects (R22): a register, an entry of a memory window, or nothing (R47). -/
inductive Target where
  | reg (r : HostReg)
  | txbuf (i : Nat)
  | rxbuf (i : Nat)
  | layout (i : Nat)
  | fval (i : Nat)
  | ftag (i : Nat)
  | unmapped
  deriving DecidableEq, Repr

/-- Why the machine stops. Nothing raises a fault: no completion code stops the block (60_exceptions.md R238), no
host access faults (R47, R68), and the commands' own faults are completions (R232, R239). The type is empty. -/
inductive Fault where
  deriving DecidableEq, Repr

/-- Why a step has no meaning. -/
inductive Refusal where
  /-- Raised by an arm of `exec` whose instruction has no meaning yet; no arm raises it now. Safe. -/
  | notModelled (mnemonic : String)
  /-- Raised by `step` when P_RXBUF_BYTES is outside 20 to 4096, a use outside the spec (U24). Safe. -/
  | parametersOutOfRange
  deriving DecidableEq, Repr

/-- The block's state. A drawn memory (TXBUF, RXBUF, FVAL, FTAG) lists the entries written since its draw; an
entry it does not list holds the free value of its draw number. LAYOUT lists the entries that differ from the reset
programs. Every list is in rising order of index. -/
structure State where
  /-- The implementation parameters (R6), which no event changes. -/
  params : Config.Params
  /-- CTRL.IRQEN (R24). -/
  irqen : Bool
  /-- STATUS.BUSY (R25). -/
  busy : Bool
  /-- STATUS.DONE (R25). -/
  done : Bool
  /-- STATUS.ERR (R25). -/
  err : Bool
  /-- STATUS.BUSYERR (R25). -/
  busyErr : Bool
  /-- STATUS.LENWARN (R25). -/
  lenWarn : Bool
  /-- STATUS.RESYNC (R25). -/
  resync : Bool
  /-- STATUS.RXVERIFIED (R25, R66). -/
  rxVerified : Bool
  /-- STATUS.CODE (R25, R233). -/
  code : Code
  /-- ARG0 (R28). -/
  arg0 : Word
  /-- ARG1 (R28). -/
  arg1 : Word
  /-- GAP (R29). -/
  gap : Word
  /-- TMO (R30). -/
  tmo : Word
  /-- MINLEN[15:0] (R31). -/
  minlen : Half
  /-- RXLEN[15:0] (R32). -/
  rxlen : Half
  /-- RES0 (R33). -/
  res0 : Word
  /-- RES1 (R33). -/
  res1 : Word
  /-- RES2 (R33). -/
  res2 : Word
  /-- NEXT (R34). -/
  nextOff : Word
  /-- FAULTOFF.OFF (R35). -/
  faultOff : Half
  /-- FAULTOFF.PC (R35). -/
  faultPc : Byte
  /-- CNT0 (R36). -/
  cnt0 : Word
  /-- CNT1 (R36). -/
  cnt1 : Word
  /-- NSLOT[15:0] (R37). -/
  nslot : Half
  /-- REJLAST.CAUSE (R38). -/
  rejCause : Cause
  /-- REJLAST.RTN_HI (R38). -/
  rejHi : Byte
  /-- REJLAST.RTN_LO (R38). -/
  rejLo : Byte
  /-- REJCNT_A (R39). -/
  rejcntA : Half
  /-- REJCNT_B (R39). -/
  rejcntB : Half
  /-- REJCNT_C (R39). -/
  rejcntC : Half
  /-- REJCNT_D (R39). -/
  rejcntD : Half
  /-- REJCNT_E (R39). -/
  rejcntE : Half
  /-- CSACC[15:0] (R40). -/
  csacc : Half
  /-- TXLEN[4:0] (R43); STATUS.TXVALID follows it (R53). -/
  txlen : BitVec 5
  /-- XSTATE.PHASE (R44). -/
  phase : Phase
  /-- XSTATE.ACCEPTED (R44). -/
  accepted : Bool
  /-- XSTATE.ASM (R44). -/
  asm : Asm
  /-- TCNT (R45). -/
  tcnt : Word
  /-- TXPOS[4:0] (R46). -/
  txpos : BitVec 5
  /-- TXBUF, the entries written since its draw (R48). -/
  txbuf : List Host.Cell
  /-- RXBUF, the entries written since its draw (R48). -/
  rxbuf : List Host.Cell
  /-- LAYOUT, the entries that differ from the reset programs (R48, R214). -/
  layout : List (Nat × Word)
  /-- FVAL, the entries written since its draw (R48). -/
  fval : List (Nat × Word)
  /-- FTAG, the entries written since its draw (R48). -/
  ftag : List (Nat × Word)
  /-- Hidden: the command word taken at issue (R49, R230). -/
  latCmd : Word
  /-- Hidden: ARG0 taken at issue (R49, R230). -/
  latArg0 : Word
  /-- Hidden: ARG1 taken at issue (R49, R230). -/
  latArg1 : Word
  /-- Hidden: GAP taken at XACT issue (R49, R153). -/
  latGap : Word
  /-- Hidden: TMO taken at XACT issue (R49, R153). -/
  latTmo : Word
  /-- Hidden: MINLEN taken at XACT or GATECHK issue (R49, R153, R230). -/
  latMinlen : Half
  /-- Hidden: the candidate's byte count in RXBUF (R49). -/
  clen : Nat
  /-- Hidden: the count register C0 (R49, R200). -/
  c0 : Word
  /-- Hidden: the count register C1 (R49, R200). -/
  c1 : Word
  /-- The layout interpreter's descriptor index, 0 outside a PARSE (R49, R200). -/
  pc : Nat
  /-- The layout interpreter's cursor, 0 outside a PARSE (R49, R200). -/
  cur : Nat
  /-- The number of slots the running PARSE has written, 0 outside a PARSE (R200). -/
  ns : Nat
  /-- The MODEL's own: the events to come, the next one first (log 1). -/
  input : List Event
  /-- The MODEL's own: the data of the last HostRead, on the host port (R21; log 2). -/
  rdata : Word
  /-- The MODEL's own: how many draws of unspecified values have been made (log 3). -/
  draws : Nat
  /-- The MODEL's own: the draw that fills TXBUF's unlisted entries (log 3). -/
  txSeed : Nat
  /-- The MODEL's own: the draw that fills RXBUF's unlisted entries (log 3). -/
  rxSeed : Nat
  /-- The MODEL's own: the draw that fills FVAL's unlisted entries (log 3). -/
  fvalSeed : Nat
  /-- The MODEL's own: the draw that fills FTAG's unlisted entries (log 3). -/
  ftagSeed : Nat
  deriving DecidableEq, Repr

/-- The table of R260, for parameters `p`, its four unspecified memories filled from the draws `draw` to
`draw + 3`; no event to come and no read data. -/
def State.resetWith (p : Config.Params) (draw : Nat) : State :=
  { params := p, irqen := false, busy := false, done := false, err := false, busyErr := false, lenWarn := false,
    resync := false, rxVerified := false, code := .ok, arg0 := 0, arg1 := 0, gap := p.gapReset, tmo := p.tmoReset,
    minlen := p.minlenReset, rxlen := 0, res0 := 0, res1 := 0, res2 := 0, nextOff := 0, faultOff := 0, faultPc := 0,
    cnt0 := 0, cnt1 := 0, nslot := 0, rejCause := .clear, rejHi := 0, rejLo := 0, rejcntA := 0, rejcntB := 0,
    rejcntC := 0, rejcntD := 0, rejcntE := 0, csacc := 0, txlen := 0, phase := .idle, accepted := false,
    asm := .waitFirst, tcnt := 0, txpos := 0, txbuf := [], rxbuf := [], layout := [], fval := [], ftag := [],
    latCmd := 0, latArg0 := 0, latArg1 := 0, latGap := p.gapReset, latTmo := p.tmoReset, latMinlen := p.minlenReset,
    clen := 0, c0 := 0, c1 := 0, pc := 0, cur := 0, ns := 0, input := [], rdata := 0, draws := draw + 4,
    txSeed := draw, rxSeed := draw + 1, fvalSeed := draw + 2, ftagSeed := draw + 3 }

/-- The block right after power-up, which is a Reset (R260, R263), at the default parameters. -/
def State.reset : State := State.resetWith Config.defaults 0

end Sys2Proof.Machine
end

