-- ==== Sys2Proof/Machine/Ops.lean ====
section
/-! DEFINITION. The operations over memories, draws and registers that every command shares, completing a command
(the block's one way to end, in success or in a fault: 60_exceptions.md R232, R239), acknowledging a completion
(R240), and issuing a command (R230). -/

namespace Sys2Proof.Machine

/-! ## Lists of cells -/

/-- The value listed at index `a`, if there is one. -/
def Memory.lookup {α : Type} : List (Nat × α) → Nat → Option α
  | [], _ => none
  | (k, v) :: rest, a => if k = a then some v else Memory.lookup rest a

/-- List `v` at index `a`, keeping the indices in rising order. -/
def Memory.insert {α : Type} : List (Nat × α) → Nat → α → List (Nat × α)
  | [], a, v => [(a, v)]
  | (k, w) :: rest, a, v =>
    if a < k then (a, v) :: (k, w) :: rest
    else if a = k then (a, v) :: rest
    else (k, w) :: Memory.insert rest a v

/-- List nothing at index `a`. -/
def Memory.erase {α : Type} (m : List (Nat × α)) (a : Nat) : List (Nat × α) := m.filter fun c => c.1 != a

/-- The canonical form: indices strictly rising, each below `bound`. -/
abbrev Memory.wf {α : Type} (bound : Nat) (m : List (Nat × α)) : Prop :=
  m.Pairwise (fun x y => x.1 < y.1) ∧ ∀ c ∈ m, c.1 < bound

/-! ## The five memories (R48) -/

/-- TXBUF[i]; an entry not written since its draw holds that draw's free value (R260, U6, U7). -/
def txRead (s : State) (i : Nat) : Byte := (Memory.lookup s.txbuf i).getD (Config.freeByte s.txSeed i)

/-- RXBUF[i]; an entry not written since its draw holds that draw's free value (R260, U6, U8). -/
def rxRead (s : State) (i : Nat) : Byte := (Memory.lookup s.rxbuf i).getD (Config.freeByte s.rxSeed i)

/-- FVAL[i]; an entry not written since its draw holds that draw's free value (R260, U6). -/
def fvalRead (s : State) (i : Nat) : Word := (Memory.lookup s.fval i).getD (Config.freeWord s.fvalSeed i)

/-- FTAG[i]; an entry not written since its draw holds that draw's free value (R260, U6). -/
def ftagRead (s : State) (i : Nat) : Word := (Memory.lookup s.ftag i).getD (Config.freeWord s.ftagSeed i)

/-- LAYOUT[i]; an entry not listed holds its reset contents (R214). -/
def layoutRead (s : State) (i : Nat) : Word := (Memory.lookup s.layout i).getD (defaultLayout i)

/-- RXBUF[i] <- b. -/
def rxWrite (i : Nat) (b : Byte) (s : State) : State := { s with rxbuf := Memory.insert s.rxbuf i b }

/-- LAYOUT[i] <- w; the reset contents are not listed. -/
def layoutWrite (i : Nat) (w : Word) (s : State) : State :=
  { s with layout := if w = defaultLayout i then Memory.erase s.layout i else Memory.insert s.layout i w }

/-- All five memories are in canonical form, and LAYOUT lists no reset contents. -/
abbrev State.memWf (s : State) : Prop :=
  Memory.wf Config.txbufBytes s.txbuf ∧ Memory.wf s.params.rxbufBytes s.rxbuf ∧
  Memory.wf Config.layoutWords s.layout ∧ (∀ c ∈ s.layout, c.2 ≠ defaultLayout c.1) ∧
  Memory.wf Config.fieldSlots s.fval ∧ Memory.wf Config.fieldSlots s.ftag

/-- TXBUF becomes unspecified: a fresh draw fills every entry (R77, R142, U7; log 3). -/
def redrawTx (s : State) : State := { s with txbuf := [], txSeed := s.draws, draws := s.draws + 1 }

/-- RXBUF[0..n) as a list, first byte first. -/
def rxFrame (s : State) (n : Nat) : List Byte := (List.range n).map (rxRead s)

/-- The list of bytes as entries `i`, `i + 1`, … -/
def cellsFrom (i : Nat) : List Byte → List Host.Cell
  | [] => []
  | b :: rest => (i, b) :: cellsFrom (i + 1) rest

/-- RXBUF[i] for i ≥ RXLEN becomes unspecified: a fresh draw fills it (R77, U8; log 3). The entries below RXLEN
stay. -/
def redrawRx (s : State) : State :=
  { s with rxbuf := cellsFrom 0 (rxFrame s s.rxlen.toNat), rxSeed := s.draws, draws := s.draws + 1 }

/-- Put `data` on the host port's read data lines (R20, R21). -/
def setRdata (data : Word) (s : State) : State := { s with rdata := data }

/-! ## Completion, acknowledgement, issue -/

/-- Complete the running command with code `c` (R232): the block's only reaction to a fault (R239). -/
def complete (c : Code) (s : State) : State :=
  { s with code := c, busy := false, done := true, err := s.err || decide (c ≠ .ok), phase := .idle }

/-- The fault action of EXTU and EXTS, then completion (R184, R232). -/
def extFault (c : Code) (off : Nat) (s : State) : State :=
  complete c { s with res0 := 0, res1 := 0, res2 := 0, faultOff := BitVec.ofNat 16 off, faultPc := 0 }

/-- The fault action of BUILD, then completion with BAD_ARG (R141, R142, R232). -/
def badArg (s : State) : State := complete .badArg (redrawTx { s with txlen := 0 })

/-- Acknowledge a completion: the write-1-to-clear bits of STATUS (R26, R240). -/
def ackStatus (data : Word) (s : State) : State :=
  { s with done := s.done && !data.getLsbD 1, err := s.err && !data.getLsbD 2,
           busyErr := s.busyErr && !data.getLsbD 3 }

/-- The part of issue that every command shares (R230). ERR and BUSYERR are sticky. -/
def issueLatch (data : Word) (s : State) : State :=
  { s with latCmd := data, latArg0 := s.arg0, latArg1 := s.arg1, busy := true, done := false, code := .ok,
           lenWarn := false, resync := false, faultOff := 0, faultPc := 0 }

/-- A protected write while busy: ignored, and BUSYERR is set (R52). -/
def setBusyErr (s : State) : State := { s with busyErr := true }

end Sys2Proof.Machine
end

