-- ==== Sys2Proof/Machine/Flags.lean ====
section
/-! DEFINITION. The host's view of the state: the words of the registers that pack fields (10_state.md R24, R25,
R35, R38, R44), the derived flags and the output signals (R53, R54). -/

namespace Sys2Proof.Machine

/-- STATUS.CODE (R233). -/
def Code.toBits : Code → BitVec 5
  | .ok => 0
  | .timeout => 1
  | .unverified => 2
  | .badWidth => 3
  | .divZero => 4
  | .range => 5
  | .notHex => 6
  | .badDesc => 7
  | .descOvf => 8
  | .slotOvf => 9
  | .badArg => 10
  | .noFrame => 11
  | .badOp => 12

/-- REJLAST.CAUSE, and GATECHK's verdict (R38, R134). -/
def Cause.toBits : Cause → BitVec 3
  | .clear => 0
  | .delimiter => 1
  | .checksum => 2
  | .short => 3
  | .rtn => 4
  | .overlong => 5

/-- XSTATE.PHASE (R44). -/
def Phase.toBits : Phase → BitVec 3
  | .idle => 0
  | .tx => 1
  | .gap => 2
  | .rx => 3
  | .run => 4

/-- XSTATE.ASM (R44). -/
def Asm.toBits : Asm → BitVec 2
  | .waitFirst => 0
  | .inFrame => 1
  | .skip => 2
  | .over => 3

/-- STATUS.TXVALID follows TXLEN (R25, R53). -/
def txValidFlag (s : State) : Bool := s.txlen == 20

/-- The STATUS word (R25). -/
def statusWord (s : State) : Word :=
  (0#19 : BitVec 19) ++ s.code.toBits ++ BitVec.ofBool (txValidFlag s) ++ BitVec.ofBool s.rxVerified ++
    BitVec.ofBool s.resync ++ BitVec.ofBool s.lenWarn ++ BitVec.ofBool s.busyErr ++ BitVec.ofBool s.err ++
    BitVec.ofBool s.done ++ BitVec.ofBool s.busy

/-- The CTRL word; CLRCNT reads 0 (R24). -/
def ctrlWord (s : State) : Word := (0#31 : BitVec 31) ++ BitVec.ofBool s.irqen

/-- The FAULTOFF word (R35). -/
def faultoffWord (s : State) : Word := (0#8 : BitVec 8) ++ s.faultPc ++ s.faultOff

/-- The REJLAST word (R38). -/
def rejlastWord (s : State) : Word := (0#8 : BitVec 8) ++ s.rejLo ++ s.rejHi ++ (0#5 : BitVec 5) ++ s.rejCause.toBits

/-- The XSTATE word (R44). -/
def xstateWord (s : State) : Word :=
  (0#26 : BitVec 26) ++ s.asm.toBits ++ BitVec.ofBool s.accepted ++ s.phase.toBits

/-- The output `irq` (R54, R241). -/
def irq (s : State) : Bool := s.irqen && s.done

/-- The output `tx_valid` (R54). -/
def txValid (s : State) : Bool := decide (s.phase = .tx ∧ s.txpos.toNat < 20)

/-- The output `tx_data` (R54). While `tx_valid` is 0 it is unspecified (U10). DESIGN CHOICE (log 17): there it is a
free byte of its own, tied to no entry of a memory, one for each count of draws. -/
def txData (s : State) : Byte :=
  if txValid s then txRead s s.txpos.toNat else Config.freeTxData s.draws

/-- One more in a saturating 16-bit counter (R39). -/
def satInc (c : Half) : Half := if c = 0xFFFF then c else c + 1

end Sys2Proof.Machine
end

