-- ==== Sys2Proof/Machine/Operands.lean ====
section
/-! DEFINITION. Every operand form: the latched argument registers (30_encoding.md R101), hex digits (R92, R93), the
hex view and the field read (20_memory.md R63, R64; 43_field_extract.md R181), and the host map (10_state.md R22). -/

namespace Sys2Proof.Machine

/-! ## Latched operands (R101, R103) -/

/-- OFF = ARG0[15:0] of EXTU and EXTS. -/
def extOff (s : State) : Nat := (s.latArg0.extractLsb' 0 16).toNat

/-- WID = ARG1[3:0] of EXTU and EXTS. -/
def extWid (s : State) : Nat := (s.latArg1.extractLsb' 0 4).toNat

/-- DIV = ARG1[31:16] of EXTU and EXTS. -/
def extDiv (s : State) : Nat := (s.latArg1.extractLsb' 16 16).toNat

/-- START = ARG0[15:0] of PARSE. -/
def parseStart (s : State) : Nat := (s.latArg0.extractLsb' 0 16).toNat

/-- NOM = ARG1[15:0] of PARSE. -/
def parseNom (s : State) : Nat := (s.latArg1.extractLsb' 0 16).toNat

/-! ## Hex digits -/

/-- `digit(b)`, none where it is invalid (R92). -/
def digit (b : Byte) : Option Nat :=
  let n := b.toNat
  if 0x30 ≤ n ∧ n ≤ 0x39 then some (n - 0x30)
  else if 0x41 ≤ n ∧ n ≤ 0x46 then some (n - 0x37)
  else if 0x61 ≤ n ∧ n ≤ 0x66 then some (n - 0x57)
  else none

/-- The upper-case character of one hex digit (R93). -/
def hexChar (d : BitVec 4) : Byte :=
  if d.toNat < 10 then BitVec.ofNat 8 (0x30 + d.toNat) else BitVec.ofNat 8 (0x37 + d.toNat)

/-- `hex2(n)` (R93). -/
def hex2 (n : Byte) : List Byte := [hexChar (n.extractLsb' 4 4), hexChar (n.extractLsb' 0 4)]

/-- `hex4(n)` (R93). -/
def hex4 (n : Half) : List Byte :=
  [hexChar (n.extractLsb' 12 4), hexChar (n.extractLsb' 8 4), hexChar (n.extractLsb' 4 4), hexChar (n.extractLsb' 0 4)]

/-- The digits of `bytes`, most significant first, read on from the value `acc`; none where one is invalid (R64). -/
def hexFrom : Nat → List Byte → Option Nat
  | acc, [] => some acc
  | acc, b :: rest =>
    match digit b with
    | none => none
    | some d => hexFrom (acc * 16 + d) rest

/-- The base-16 number that `bytes` spells (R64). -/
def hexValue (bytes : List Byte) : Option Nat := hexFrom 0 bytes

/-! ## The hex view and the field read -/

/-- HXLEN = max(RXLEN - 2, 0) (R63). -/
def hxLen (s : State) : Nat := s.rxlen.toNat - 2

/-- HX(i) = RXBUF[i + 1] (R63). -/
def hx (s : State) (i : Nat) : Byte := rxRead s (i + 1)

/-- The `w` digits of the hex view from digit `o`. -/
def hxDigits (s : State) (o w : Nat) : List Byte := (List.range w).map fun k => hx s (o + k)

/-- The two's-complement fold of a `w`-digit value over its own 4w bits (00_scope.md R10). -/
def signFold (w u : Nat) : Int := if 2 ^ (4 * w - 1) ≤ u then (u : Int) - (2 : Int) ^ (4 * w) else (u : Int)

/-- The read primitive `read(o, w, s)` (R181). Its fault offset is always `o`. -/
def readField (s : State) (o w : Nat) (sgn : Bool) : Except Code Int :=
  if w = 0 ∨ Config.maxDigits < w then .error .badWidth
  else if hxLen s < o + w then .error .range
  else
    match hexValue (hxDigits s o w) with
    | none => .error .notHex
    | some u => .ok (if sgn then signFold w u else (u : Int))

/-- `word32(v)` (00_scope.md R9). -/
def word32 (v : Int) : Word := BitVec.ofInt 32 v

/-! ## The host map -/

/-- The register at word index `k` (offset 4k) of the host map (R22). -/
def regAt : Nat → Target
  | 0 => .reg .id
  | 1 => .reg .ctrl
  | 2 => .reg .status
  | 3 => .reg .cmd
  | 4 => .reg .arg0
  | 5 => .reg .arg1
  | 6 => .reg .gap
  | 7 => .reg .tmo
  | 8 => .reg .minlen
  | 9 => .reg .rxlen
  | 10 => .reg .res0
  | 11 => .reg .res1
  | 12 => .reg .res2
  | 13 => .reg .next
  | 14 => .reg .faultoff
  | 15 => .reg .cnt0
  | 16 => .reg .cnt1
  | 17 => .reg .nslot
  | 18 => .reg .rejlast
  | 19 => .reg .rejcntA
  | 20 => .reg .rejcntB
  | 21 => .reg .rejcntC
  | 22 => .reg .rejcntD
  | 23 => .reg .rejcntE
  | 24 => .reg .csacc
  | 25 => .reg .csfeed
  | 26 => .reg .csres
  | 27 => .reg .txlen
  | 28 => .reg .xstate
  | 29 => .reg .tcnt
  | 30 => .reg .txpos
  | _ => .unmapped

/-- What a host offset selects (R22, R47); offset bits [1:0] are not decoded (R68). -/
def target (p : Config.Params) (a : Half) : Target :=
  let k := a.toNat / 4
  if k < 0x400 then regAt k
  else if k < 0x400 + Config.txbufBytes then .txbuf (k - 0x400)
  else if 0x1000 ≤ k ∧ k < 0x1000 + p.rxbufBytes then .rxbuf (k - 0x1000)
  else if 0x2000 ≤ k ∧ k < 0x2000 + Config.layoutWords then .layout (k - 0x2000)
  else if 0x2800 ≤ k ∧ k < 0x2800 + Config.fieldSlots then .fval (k - 0x2800)
  else if 0x2C00 ≤ k ∧ k < 0x2C00 + Config.fieldSlots then .ftag (k - 0x2C00)
  else .unmapped

end Sys2Proof.Machine
end

