-- ==== Sys2Proof/Machine/Extract.lean ====
section
/-! DEFINITION. Field extraction (43_field_extract.md R181 to R185): the meanings of EXTU and EXTS. -/

namespace Sys2Proof.Machine

/-- EXTU and EXTS on the latched operands: the checks in the order of R182, then the raw value, the quotient
truncated toward zero and the remainder (R183, R184, R185). -/
def extract (sgn : Bool) (s : State) : State :=
  if s.rxVerified = false then extFault .unverified (extOff s) s
  else if extWid s = 0 ∨ Config.maxDigits < extWid s then extFault .badWidth (extOff s) s
  else if extDiv s = 0 then extFault .divZero (extOff s) s
  else
    match readField s (extOff s) (extWid s) sgn with
    | .error c => extFault c (extOff s) s
    | .ok v =>
      complete .ok { s with res0 := word32 v, res1 := word32 (v.tdiv (extDiv s)),
                            res2 := word32 (v - v.tdiv (extDiv s) * extDiv s) }

/-- The meaning of EXTU (R184). -/
def execExtu (s : State) : Host.Outcome State Fault Refusal := .next (extract false s)

/-- The meaning of EXTS (R185). -/
def execExts (s : State) : Host.Outcome State Fault Refusal := .next (extract true s)

end Sys2Proof.Machine
end

