-- ==== Sys2Proof/Machine/Checksum.lean ====
section
/-! DEFINITION. The checksum function, the host checksum engine (CSACC, CSFEED, CSRES), frame verification and the
acceptance gates (40_checksum.md R130 to R134; 42_frame_rx.md R162), with the meanings of VERIFY, GATECHK, CSACC write,
CSFEED write and CSRES read. -/

namespace Sys2Proof.Machine

/-- SOI, the byte `~` (00_scope.md R14). -/
def soi : Byte := 0x7E

/-- EOI, carriage return (00_scope.md R14). -/
def eoi : Byte := 0x0D

/-- The sum of unsigned bytes mod 65536 (R130). -/
def byteSum : List Byte → Half
  | [] => 0
  | b :: rest => b.setWidth 16 + byteSum rest

/-- Complement plus one, mod 65536 (R130, R132; 90_conflicts.md C3). -/
def negate16 (sum : Half) : Half := (sum ^^^ 0xFFFF) + 1

/-- The checksum of a body (R130). -/
def csum (body : List Byte) : Half := negate16 (byteSum body)

/-- What VERIFY finds in a frame: RES0, RES1 and RES2 (R133). -/
structure Verdict where
  /-- The claimed checksum equals the computed one. -/
  good : Bool
  /-- RES1, the claimed checksum, 0xFFFFFFFF where there is none. -/
  claim : Word
  /-- RES2, the computed checksum, 0 where the frame is too short. -/
  comp : Word
  deriving DecidableEq, Repr

/-- The verification of a frame of n bytes: body f[1 .. n-6], claim f[n-5 .. n-2] (R133). -/
def verifyFrame (f : List Byte) : Verdict :=
  let n := f.length
  if n < 6 then { good := false, claim := 0xFFFFFFFF, comp := 0 }
  else
    let sum := csum ((f.drop 1).take (n - 6))
    match hexValue ((f.drop (n - 5)).take 4) with
    | none => { good := false, claim := 0xFFFFFFFF, comp := sum.setWidth 32 }
    | some c => { good := decide (c = sum.toNat), claim := BitVec.ofNat 32 c, comp := sum.setWidth 32 }

/-- The first failing gate of a candidate, `clear` if it passes all four (R162). `m` is the minimum length and `v`
the checksum verdict. -/
def gate (f : List Byte) (m : Nat) (v : Bool) : Cause :=
  let n := f.length
  if n < 1 ∨ f.getD 0 0 ≠ soi ∨ f.getD (n - 1) 0 ≠ eoi then .delimiter
  else if v = false then .checksum
  else if n < m then .short
  else if n < 9 ∨ f.getD 7 0 ≠ 0x30 ∨ f.getD 8 0 ≠ 0x30 then .rtn
  else .clear

/-- VERIFY: check the frame in RXBUF[0..RXLEN) (R133). -/
def verify (s : State) : State :=
  let v := verifyFrame (rxFrame s s.rxlen.toNat)
  complete .ok { s with res0 := (BitVec.ofBool v.good).setWidth 32, res1 := v.claim, res2 := v.comp, rxVerified := v.good }

/-- GATECHK: run the gates on the frame in RXBUF[0..RXLEN) (R134). -/
def gateCheck (s : State) : State :=
  let f := rxFrame s s.rxlen.toNat
  let v := verifyFrame f
  complete .ok { s with res0 := (gate f s.latMinlen.toNat v.good).toBits.setWidth 32, res1 := v.claim, res2 := v.comp,
                        rxVerified := v.good }

/-- The CSRES word (R132). -/
def csresWord (s : State) : Word := (negate16 s.csacc).setWidth 32

/-- The meaning of VERIFY (R133). -/
def execVerify (s : State) : Host.Outcome State Fault Refusal := .next (verify s)

/-- The meaning of GATECHK (R134). -/
def execGatechk (s : State) : Host.Outcome State Fault Refusal := .next (gateCheck s)

/-- The meaning of a CSACC write: CSACC <- data[15:0] (R131). -/
def execCsaccWrite (data : Word) (s : State) : Host.Outcome State Fault Refusal :=
  .next { s with csacc := data.extractLsb' 0 16 }

/-- The meaning of a CSFEED write: CSACC <- CSACC + data[7:0] (R131). -/
def execCsfeedWrite (data : Word) (s : State) : Host.Outcome State Fault Refusal :=
  .next { s with csacc := s.csacc + (data.extractLsb' 0 8).setWidth 16 }

/-- The meaning of a CSRES read: the host port returns the CSRES word (R132). -/
def execCsresRead (s : State) : Host.Outcome State Fault Refusal := .next (setRdata (csresWord s) s)

end Sys2Proof.Machine
end

