-- ==== Sys2Proof/Machine/FrameTx.lean ====
section
/-! DEFINITION. Command frame construction (41_frame_tx.md R140 to R143): the meanings of BUILD and of its two request
codes (30_encoding.md R96). -/

namespace Sys2Proof.Machine

/-- The ADR byte, none where the position is refused (R140). -/
def requestAddress (sys : Bool) (pos : BitVec 4) (grp : BitVec 3) : Option Byte :=
  if sys then some (BitVec.ofNat 8 (16 * grp.toNat))
  else if 2 ≤ pos.toNat ∧ pos.toNat ≤ 13 then some (BitVec.ofNat 8 (pos.toNat + 16 * grp.toNat))
  else none

/-- The 14 body bytes: "22", ADR, "4A", CID2, "E002", "FF" (R94, R141). -/
def requestBody (adr code : Byte) : List Byte :=
  [0x32, 0x32] ++ hex2 adr ++ [0x34, 0x41] ++ hex2 code ++ [0x45, 0x30, 0x30, 0x32] ++ [0x46, 0x46]

/-- The 20 frame bytes (R141). -/
def requestFrame (adr code : Byte) : List Byte :=
  [soi] ++ requestBody adr code ++ hex4 (csum (requestBody adr code)) ++ [eoi]

/-- Write the frame for `adr` and `code` to TXBUF and complete OK (R141, R142). -/
def sendFrame (adr code : Byte) (s : State) : State :=
  complete .ok { s with txbuf := cellsFrom 0 (requestFrame adr code), txlen := 20 }

/-- Build the request with code `code` for the addressed target, or complete BAD_ARG (R141). -/
def buildRequest (code : Byte) (sys : Bool) (pos : BitVec 4) (grp : BitVec 3) (s : State) : State :=
  match requestAddress sys pos grp with
  | some adr => sendFrame adr code s
  | none => badArg s

/-- The meaning of BUILD: the code is checked first (R141, R96). -/
def execBuild (code : Byte) (sys : Bool) (pos : BitVec 4) (grp : BitVec 3) (s : State) :
    Host.Outcome State Fault Refusal :=
  match decodeCode code with
  | .ok _ => .next (buildRequest code sys pos grp s)
  | .error _ => .next (badArg s)

/-- The meaning of the request code 0x42: the BUILD latched in `lat_cmd`, with this code (R96, R141; log 9). -/
def execQueryAnalog (s : State) : Host.Outcome State Fault Refusal :=
  .next (buildRequest 0x42 (cmdSys s.latCmd) (cmdPos s.latCmd) (cmdGrp s.latCmd) s)

/-- The meaning of the request code 0x4F: the BUILD latched in `lat_cmd`, with this code (R96, R141; log 9). -/
def execQueryVersion (s : State) : Host.Outcome State Fault Refusal :=
  .next (buildRequest 0x4F (cmdSys s.latCmd) (cmdPos s.latCmd) (cmdGrp s.latCmd) s)

end Sys2Proof.Machine
end

