-- ==== Sys2Proof/Machine/Parser.lean ====
section
/-! DEFINITION. The record cursor parser (44_record_parser.md R200 to R213): one step per layout descriptor, the
meanings of the descriptors, and the meaning of PARSE, which runs them in one atomic step. -/

namespace Sys2Proof.Machine

/-- How a step of the layout interpreter ends: the record goes on, or PARSE has completed (by END or a fault). -/
inductive Cont where
  | more (s : State)
  | stop (s : State)
  deriving DecidableEq, Repr

/-- The state either way. -/
def Cont.state : Cont → State
  | .more s => s
  | .stop s => s

/-- The interpreter's registers do not survive the PARSE (R49). -/
def clearInterp (s : State) : State := { s with pc := 0, cur := 0, ns := 0 }

/-- `pfault(code, off)` (R201, R212). -/
def pfault (c : Code) (off : Nat) (s : State) : State :=
  complete c (clearInterp
    { s with nextOff := BitVec.ofNat 32 (if parseNom s = 0 then parseStart s else parseStart s + parseNom s),
             resync := decide (parseNom s ≠ 0), nslot := BitVec.ofNat 16 s.ns, cnt0 := s.c0, cnt1 := s.c1,
             faultOff := BitVec.ofNat 16 off, faultPc := BitVec.ofNat 8 s.pc })

/-- `finish` (R201, R210, R211). -/
def finish (s : State) : State :=
  complete .ok (clearInterp
    { s with nextOff := BitVec.ofNat 32 s.cur, nslot := BitVec.ofNat 16 s.ns, cnt0 := s.c0, cnt1 := s.c1,
             lenWarn := decide (parseNom s ≠ 0 ∧ s.cur ≠ parseStart s + parseNom s) })

/-- The FTAG word: FID, DIDX, SGN, DSEL, KIND, ELEM (30_encoding.md R110). -/
def tagWord (fid : Byte) (pc : Nat) (sgn : Bool) (dsel : BitVec 2) (kind : BitVec 3) (e : Nat) : Word :=
  BitVec.ofNat 11 e ++ kind ++ dsel ++ BitVec.ofBool sgn ++ BitVec.ofNat 7 pc ++ fid

/-- `emit(v, d, e)`, then the cursor moves on by `adv` digits (R202). -/
def emit (v tag : Word) (adv : Nat) (s : State) : Cont :=
  if Config.fieldSlots ≤ s.ns then .stop (pfault .slotOvf s.cur s)
  else .more { s with fval := Memory.insert s.fval s.ns v, ftag := Memory.insert s.ftag s.ns tag, ns := s.ns + 1,
                      cur := s.cur + adv }

/-- One field of a VAL or REP descriptor: read, add ADD1, write the slot, move the cursor (R204, R206). -/
def takeField (wid : BitVec 4) (sgn add1 : Bool) (tag : Word) (s : State) : Cont :=
  match readField s s.cur wid.toNat sgn with
  | .error c => .stop (pfault c s.cur s)
  | .ok v => emit (word32 (v + if add1 then 1 else 0)) tag wid.toNat s

/-- The next descriptor, where the record goes on (R201). -/
def advance : Cont → Cont
  | .more s => .more { s with pc := s.pc + 1 }
  | .stop s => .stop s

/-- C[CSEL] (R104). -/
def countReg (csel : Bool) (s : State) : Word := if csel then s.c1 else s.c0

/-- C[CSEL] <- v. -/
def setCount (csel : Bool) (v : Word) (s : State) : State := if csel then { s with c1 := v } else { s with c0 := v }

/-- END (R203). -/
def stepEnd (s : State) : Cont := .stop (finish s)

/-- VAL (R204). -/
def stepVal (wid : BitVec 4) (sgn : Bool) (dsel : BitVec 2) (add1 : Bool) (fid : Byte) (s : State) : Cont :=
  advance (takeField wid sgn add1 (tagWord fid s.pc sgn dsel 1 0) s)

/-- CNT: the count register is written before the slot (R205). -/
def stepCnt (wid : BitVec 4) (csel : Bool) (fid : Byte) (s : State) : Cont :=
  match readField s s.cur wid.toNat false with
  | .error c => .stop (pfault c s.cur s)
  | .ok v => advance (emit (word32 v) (tagWord fid s.pc false 0 2 0) wid.toNat (setCount csel (word32 v) s))

/-- The elements `e`, `e + 1`, … of a REP run, `n` of them (R206). -/
def repLoop (wid : BitVec 4) (sgn : Bool) (dsel : BitVec 2) (add1 : Bool) (fid : Byte) : Nat → Nat → State → Cont
  | 0, _, s => .more s
  | n + 1, e, s =>
    match takeField wid sgn add1 (tagWord fid s.pc sgn dsel 3 e) s with
    | .stop t => .stop t
    | .more t => repLoop wid sgn dsel add1 fid n (e + 1) t

/-- REP: the width is checked even when the count is 0 (R206). -/
def stepRep (wid : BitVec 4) (sgn : Bool) (dsel : BitVec 2) (add1 csel : Bool) (fid : Byte) (s : State) : Cont :=
  if wid.toNat = 0 ∨ Config.maxDigits < wid.toNat then .stop (pfault .badWidth s.cur s)
  else advance (repLoop wid sgn dsel add1 fid (countReg csel s).toNat 0 s)

/-- OPQ: the span's digits are not read (R207). DESIGN CHOICE (log 20): with LEN = 0 at a cursor past HXLEN it faults
RANGE, as R207's pseudocode has it; R207's "LEN = 0 writes a slot and consumes nothing" and R201's "or at an OPQ with
LEN > 0" read the other way. -/
def stepOpq (len : BitVec 12) (fid : Byte) (s : State) : Cont :=
  if hxLen s < s.cur + len.toNat then .stop (pfault .range s.cur s)
  else advance (emit (BitVec.ofNat 32 s.cur) (tagWord fid s.pc false 0 4 0) len.toNat s)

/-- The reserved kinds (R208). -/
def stepBadDesc (s : State) : Cont := .stop (pfault .badDesc s.cur s)

/-- One pass of PARSE's loop on the descriptor word `d` (R201, R105). -/
def descStep (d : Word) (s : State) : Cont :=
  match (descKind d).toNat with
  | 0 => stepEnd s
  | 1 => stepVal (descWid d) (descSgn d) (descDsel d) (descAdd1 d) (descFid d) s
  | 2 => stepCnt (descWid d) (descCsel d) (descFid d) s
  | 3 => stepRep (descWid d) (descSgn d) (descDsel d) (descAdd1 d) (descCsel d) (descFid d) s
  | 4 => stepOpq (descLen d) (descFid d) s
  | _ => stepBadDesc s

/-- PARSE's loop with `n` descriptors left before the end of LAYOUT: `n` is 128 - pc, so `pc` has reached 128
exactly when `n` is 0 (R201, R213). -/
def parseLoop : Nat → State → State
  | 0, s => pfault .descOvf s.cur s
  | n + 1, s =>
    match descStep (layoutRead s s.pc) s with
    | .stop t => t
    | .more t => parseLoop n t

/-- PARSE's loop from the descriptor at `pc`. -/
def parseFrom (s : State) : State := parseLoop (Config.layoutWords - s.pc) s

/-- The interpreter's registers at the start of a PARSE (R201). -/
def parseInit (didx : BitVec 7) (s : State) : State :=
  { s with c0 := 0, c1 := 0, ns := 0, cur := parseStart s, pc := didx.toNat }

/-- PARSE (R201). -/
def parse (didx : BitVec 7) (s : State) : State :=
  let t := parseInit didx s
  if s.rxVerified then parseFrom t else pfault .unverified (parseStart s) t

/-- The meaning of PARSE (R201). -/
def execParse (didx : BitVec 7) (s : State) : Host.Outcome State Fault Refusal := .next (parse didx s)

/-- The meaning of END: one pass of PARSE's loop on it (R203; log 8). -/
def execEnd (s : State) : Host.Outcome State Fault Refusal := .next (stepEnd s).state

/-- The meaning of VAL: one pass of PARSE's loop on it (R204; log 8). -/
def execVal (wid : BitVec 4) (sgn : Bool) (dsel : BitVec 2) (add1 : Bool) (fid : Byte) (s : State) :
    Host.Outcome State Fault Refusal := .next (stepVal wid sgn dsel add1 fid s).state

/-- The meaning of CNT: one pass of PARSE's loop on it (R205; log 8). -/
def execCnt (wid : BitVec 4) (csel : Bool) (fid : Byte) (s : State) : Host.Outcome State Fault Refusal :=
  .next (stepCnt wid csel fid s).state

/-- The meaning of REP: one pass of PARSE's loop on it (R206; log 8). -/
def execRep (wid : BitVec 4) (sgn : Bool) (dsel : BitVec 2) (add1 csel : Bool) (fid : Byte) (s : State) :
    Host.Outcome State Fault Refusal := .next (stepRep wid sgn dsel add1 csel fid s).state

/-- The meaning of OPQ: one pass of PARSE's loop on it (R207; log 8). -/
def execOpq (len : BitVec 12) (fid : Byte) (s : State) : Host.Outcome State Fault Refusal :=
  .next (stepOpq len fid s).state

/-- The meaning of the reserved KIND 5 (R208; log 8). -/
def execBadDesc5 (s : State) : Host.Outcome State Fault Refusal := .next (stepBadDesc s).state

/-- The meaning of the reserved KINDs 6 and 7 (R208; log 8). -/
def execBadDesc67 (s : State) : Host.Outcome State Fault Refusal := .next (stepBadDesc s).state

end Sys2Proof.Machine
end

