-- ==== Sys2Proof/Machine/System.lean ====
section
/-! DEFINITION. NOP and the reserved opcodes (60_exceptions.md R236, R237). -/

namespace Sys2Proof.Machine

/-- A reserved opcode: BAD_OP, nothing else (R237). -/
def badOp (s : State) : State := complete .badOp s

/-- The meaning of NOP (R236). -/
def execNop (s : State) : Host.Outcome State Fault Refusal := .next (complete .ok s)

/-- The meaning of the reserved opcodes 0x08 to 0x0F (R237). -/
def execReserved08 (s : State) : Host.Outcome State Fault Refusal := .next (badOp s)

/-- The meaning of the reserved opcodes 0x10 to 0x1F (R237). -/
def execReserved10 (s : State) : Host.Outcome State Fault Refusal := .next (badOp s)

/-- The meaning of the reserved opcodes 0x20 to 0x3F (R237). -/
def execReserved20 (s : State) : Host.Outcome State Fault Refusal := .next (badOp s)

/-- The meaning of the reserved opcodes 0x40 to 0x7F (R237). -/
def execReserved40 (s : State) : Host.Outcome State Fault Refusal := .next (badOp s)

/-- The meaning of the reserved opcodes 0x80 to 0xFF (R237). -/
def execReserved80 (s : State) : Host.Outcome State Fault Refusal := .next (badOp s)

end Sys2Proof.Machine
end

