-- ==== Sys2Proof/Machine/Transaction.lean ====
section
/-! DEFINITION. The transaction (42_frame_rx.md R150 to R168): the meaning of XACT, the phases TX, GAP and RX with the
events that move them, the receive assembler, acceptance and rejection. -/

namespace Sys2Proof.Machine

/-! ## Completion of a transaction (R155) -/

/-- OK: the accepted frame stays, RXBUF above it becomes unspecified (R155, R77). -/
def xactOk (s : State) : State := complete .ok { redrawRx s with rxVerified := true }

/-- TIMEOUT: RXLEN 0, so all of RXBUF becomes unspecified (R155, R157, R77). -/
def xactTimeout (s : State) : State := complete .timeout (redrawRx { s with rxlen := 0, rxVerified := false })

/-- `gap_end()` (R156). -/
def gapEnd (s : State) : State :=
  if s.accepted then xactOk s
  else
    let t := { s with phase := .rx, tcnt := 0 }
    if s.latTmo = 0 then xactTimeout t else t

/-! ## Issue (R153) -/

/-- The issue actions of an XACT that starts a transaction (R153). -/
def xactStart (s : State) : State :=
  { s with latGap := s.gap, latTmo := s.tmo, latMinlen := s.minlen, rxlen := 0, rxVerified := false,
           asm := .waitFirst, clen := 0, accepted := false, txpos := 0, tcnt := 0, phase := .tx }

/-- The meaning of XACT (R153, R231). At issue it starts the transaction, or, where TXLEN ≠ 20, waits in RUN; at
Retire, in RUN, it completes NO_FRAME. -/
def execXact (s : State) : Host.Outcome State Fault Refusal :=
  if s.txlen = 20 then .next (xactStart s)
  else if s.phase = .run then .next (complete .noFrame s)
  else .next { s with phase := .run }

/-! ## The transmitter and the timebase -/

/-- TxAccept; it cannot occur while `tx_valid` is 0, so nothing happens then (R20, R154; log 5). -/
def txAccept (s : State) : State :=
  if txValid s then
    let t := { s with txpos := s.txpos + 1 }
    if t.txpos = 20 then
      let u := { t with phase := .gap, tcnt := 0 }
      if s.latGap = 0 then gapEnd u else u
    else t
  else s

/-- Tick: it counts in GAP and RX and has no effect elsewhere (R152, R156, R157). -/
def tick (s : State) : State :=
  match s.phase with
  | .gap =>
    let t := { s with tcnt := s.tcnt + 1 }
    if t.tcnt = s.latGap then gapEnd t else t
  | .rx =>
    let t := { s with tcnt := s.tcnt + 1 }
    if t.tcnt = s.latTmo then xactTimeout t else t
  | .idle => s
  | .tx => s
  | .run => s

/-! ## The receiver -/

/-- One more in the counter of a gate (R168). -/
def countReject (c : Cause) (s : State) : State :=
  match c with
  | .clear => s
  | .delimiter => { s with rejcntA := satInc s.rejcntA }
  | .checksum => { s with rejcntB := satInc s.rejcntB }
  | .short => { s with rejcntC := satInc s.rejcntC }
  | .rtn => { s with rejcntD := satInc s.rejcntD }
  | .overlong => { s with rejcntE := satInc s.rejcntE }

/-- `reject(c, f)`: REJLAST and the gate's counter; the RTN bytes only for gate d (R168, R38). -/
def reject (c : Cause) (f : List Byte) (s : State) : State :=
  countReject c
    { s with rejCause := c, rejHi := if c = .rtn then f.getD 7 0 else 0, rejLo := if c = .rtn then f.getD 8 0 else 0 }

/-- `accept()`: in RX the transaction completes at once, in TX and GAP at gap end (R165). -/
def accept (s : State) : State :=
  let t := { s with accepted := true, rxlen := BitVec.ofNat 16 s.clen }
  if s.phase = .rx then xactOk t else t

/-- The end of a stored candidate: verify, gate, accept or reject (R160). -/
def endCandidate (s : State) : State :=
  let f := rxFrame s s.clen
  let g := gate f s.latMinlen.toNat (verifyFrame f).good
  if g = .clear then accept s else reject g f s

/-- The receive assembler on one processed byte (R160). -/
def assemble (b : Byte) (s : State) : State :=
  match s.asm with
  | .waitFirst =>
    if b = eoi then reject .delimiter [eoi] s
    else if b = soi then { rxWrite 0 b s with clen := 1, asm := .inFrame }
    else { s with asm := .skip }
  | .skip => if b = eoi then { reject .delimiter [] s with asm := .waitFirst } else s
  | .inFrame =>
    if s.clen = s.params.rxbufBytes then
      if b = eoi then { reject .overlong [] s with asm := .waitFirst } else { s with asm := .over }
    else
      let t := { rxWrite s.clen b s with clen := s.clen + 1 }
      if b = eoi then endCandidate { t with asm := .waitFirst } else t
  | .over => if b = eoi then { reject .overlong [] s with asm := .waitFirst } else s

/-- Whether a received byte reaches the assembler (R158). -/
def listening (s : State) : Bool := decide (s.phase = .tx ∨ s.phase = .gap ∨ s.phase = .rx) && !s.accepted

/-- RxByte: a byte that does not reach the assembler leaves no trace (R158). -/
def rxByte (b : Byte) (s : State) : State := if listening s then assemble b s else s

end Sys2Proof.Machine
end

