-- ==== Sys2Proof/Machine/Dispatch.lean ====
section
/-! DEFINITION. One arm per instruction, each a direct call of its meaning. -/

namespace Sys2Proof.Machine

def exec (i : Instr) (s : State) : Host.Outcome State Fault Refusal :=
  match i with
  | .nop => Sys2Proof.Machine.execNop s
  | .build code sys pos grp => Sys2Proof.Machine.execBuild code sys pos grp s
  | .xact => Sys2Proof.Machine.execXact s
  | .verify => Sys2Proof.Machine.execVerify s
  | .gatechk => Sys2Proof.Machine.execGatechk s
  | .extu => Sys2Proof.Machine.execExtu s
  | .exts => Sys2Proof.Machine.execExts s
  | .parse didx => Sys2Proof.Machine.execParse didx s
  | .reserved08 _ => Sys2Proof.Machine.execReserved08 s
  | .reserved10 _ => Sys2Proof.Machine.execReserved10 s
  | .reserved20 _ => Sys2Proof.Machine.execReserved20 s
  | .reserved40 _ => Sys2Proof.Machine.execReserved40 s
  | .reserved80 _ => Sys2Proof.Machine.execReserved80 s
  | .endRec => Sys2Proof.Machine.execEnd s
  | .val wid sgn dsel add1 fid => Sys2Proof.Machine.execVal wid sgn dsel add1 fid s
  | .cnt wid csel fid => Sys2Proof.Machine.execCnt wid csel fid s
  | .rep wid sgn dsel add1 csel fid => Sys2Proof.Machine.execRep wid sgn dsel add1 csel fid s
  | .opq len fid => Sys2Proof.Machine.execOpq len fid s
  | .badDesc5 => Sys2Proof.Machine.execBadDesc5 s
  | .badDesc67 _ => Sys2Proof.Machine.execBadDesc67 s
  | .queryAnalog => Sys2Proof.Machine.execQueryAnalog s
  | .queryVersion => Sys2Proof.Machine.execQueryVersion s
  | .csaccWrite data => Sys2Proof.Machine.execCsaccWrite data s
  | .csfeedWrite data => Sys2Proof.Machine.execCsfeedWrite data s
  | .csresRead => Sys2Proof.Machine.execCsresRead s

end Sys2Proof.Machine
end

