-- ==== Sys2Proof/Machine/HostPort.lean ====
section
/-! DEFINITION. Host reads and host writes of everything but CMD and the two checksum write ports
(10_state.md R23 to R52). -/

namespace Sys2Proof.Machine

/-- The word a register shows (R23 to R46); the write-only registers read 0. -/
def regWord (r : HostReg) (s : State) : Word :=
  match r with
  | .id => 0x41464301
  | .ctrl => ctrlWord s
  | .status => statusWord s
  | .cmd => 0
  | .arg0 => s.arg0
  | .arg1 => s.arg1
  | .gap => s.gap
  | .tmo => s.tmo
  | .minlen => s.minlen.setWidth 32
  | .rxlen => s.rxlen.setWidth 32
  | .res0 => s.res0
  | .res1 => s.res1
  | .res2 => s.res2
  | .next => s.nextOff
  | .faultoff => faultoffWord s
  | .cnt0 => s.cnt0
  | .cnt1 => s.cnt1
  | .nslot => s.nslot.setWidth 32
  | .rejlast => rejlastWord s
  | .rejcntA => s.rejcntA.setWidth 32
  | .rejcntB => s.rejcntB.setWidth 32
  | .rejcntC => s.rejcntC.setWidth 32
  | .rejcntD => s.rejcntD.setWidth 32
  | .rejcntE => s.rejcntE.setWidth 32
  | .csacc => s.csacc.setWidth 32
  | .csfeed => 0
  | .csres => csresWord s
  | .txlen => s.txlen.setWidth 32
  | .xstate => xstateWord s
  | .tcnt => s.tcnt
  | .txpos => s.txpos.setWidth 32

/-- The word a target shows; an unmapped offset reads 0 (R47, R48). -/
def targetWord (t : Target) (s : State) : Word :=
  match t with
  | .reg r => regWord r s
  | .txbuf i => (txRead s i).setWidth 32
  | .rxbuf i => (rxRead s i).setWidth 32
  | .layout i => layoutRead s i
  | .fval i => fvalRead s i
  | .ftag i => ftagRead s i
  | .unmapped => 0

/-- The registers whose reads are unspecified while BUSY = 1 (R22, R51). -/
def regBusyUnspec (r : HostReg) : Bool :=
  match r with
  | .rxlen => true
  | .res0 => true
  | .res1 => true
  | .res2 => true
  | .next => true
  | .faultoff => true
  | .cnt0 => true
  | .cnt1 => true
  | .nslot => true
  | .id => false
  | .ctrl => false
  | .status => false
  | .cmd => false
  | .arg0 => false
  | .arg1 => false
  | .gap => false
  | .tmo => false
  | .minlen => false
  | .rejlast => false
  | .rejcntA => false
  | .rejcntB => false
  | .rejcntC => false
  | .rejcntD => false
  | .rejcntE => false
  | .csacc => false
  | .csfeed => false
  | .csres => false
  | .txlen => false
  | .xstate => false
  | .tcnt => false
  | .txpos => false

/-- The targets whose reads are unspecified while BUSY = 1 (R22, R51). -/
def busyUnspec (t : Target) : Bool :=
  match t with
  | .reg r => regBusyUnspec r
  | .txbuf _ => true
  | .rxbuf _ => true
  | .layout _ => false
  | .fval _ => true
  | .ftag _ => true
  | .unmapped => false

/-- A HostRead: the target's word, or a fresh free value (R20, R51, U5). Nothing of the block changes. -/
def hostRead (t : Target) (s : State) : State :=
  if s.busy && busyUnspec t then setRdata (Config.freeWord s.draws 0) { s with draws := s.draws + 1 }
  else setRdata (targetWord t s) s

/-- CTRL: IRQEN, and CLRCNT's action (R24). -/
def writeCtrl (data : Word) (s : State) : State :=
  let t := { s with irqen := data.getLsbD 0 }
  if data.getLsbD 1 then
    { t with rejcntA := 0, rejcntB := 0, rejcntC := 0, rejcntD := 0, rejcntE := 0, rejCause := .clear, rejHi := 0, rejLo := 0 }
  else t

/-- RXLEN: min(data[15:0], P_RXBUF_BYTES), protected while busy (R32, R52). -/
def writeRxlen (data : Word) (s : State) : State :=
  if s.busy then setBusyErr s
  else { s with rxlen := BitVec.ofNat 16 (min (data.extractLsb' 0 16).toNat s.params.rxbufBytes), rxVerified := false }

/-- A HostWrite to a register. CMD and the checksum ports run instructions and are written elsewhere (R27, R131);
the read-only registers ignore the write (R22). -/
def writeReg (r : HostReg) (data : Word) (s : State) : State :=
  match r with
  | .ctrl => writeCtrl data s
  | .status => ackStatus data s
  | .arg0 => { s with arg0 := data }
  | .arg1 => { s with arg1 := data }
  | .gap => { s with gap := data }
  | .tmo => { s with tmo := data }
  | .minlen => { s with minlen := data.extractLsb' 0 16 }
  | .rxlen => writeRxlen data s
  | .id => s
  | .cmd => s
  | .res0 => s
  | .res1 => s
  | .res2 => s
  | .next => s
  | .faultoff => s
  | .cnt0 => s
  | .cnt1 => s
  | .nslot => s
  | .rejlast => s
  | .rejcntA => s
  | .rejcntB => s
  | .rejcntC => s
  | .rejcntD => s
  | .rejcntE => s
  | .csacc => s
  | .csfeed => s
  | .csres => s
  | .txlen => s
  | .xstate => s
  | .tcnt => s
  | .txpos => s

/-- A HostWrite to a target (R47, R48, R52). -/
def hostWrite (t : Target) (data : Word) (s : State) : State :=
  match t with
  | .reg r => writeReg r data s
  | .rxbuf i => if s.busy then setBusyErr s else { rxWrite i (data.extractLsb' 0 8) s with rxVerified := false }
  | .layout i => if s.busy then setBusyErr s else layoutWrite i data s
  | .txbuf _ => s
  | .fval _ => s
  | .ftag _ => s
  | .unmapped => s

end Sys2Proof.Machine
end

