-- ==== Sys2Proof/Machine/Events.lean ====
section
/-! DEFINITION. One event of the block (10_state.md R20): where the block fetches the instruction an event runs, and
what an event that runs none does. -/

namespace Sys2Proof.Machine

/-- A CMD write while BUSY = 0 (R230). XACT runs at once (R153); GATECHK latches MINLEN; every other command waits in
RUN for its Retire. -/
def issue (data : Word) (s : State) : Host.Outcome State Fault Refusal :=
  let t := issueLatch data s
  if cmdOp data = 0x02 then exec (decodeCmd data) t
  else if cmdOp data = 0x04 then .next { t with latMinlen := s.minlen, phase := .run }
  else .next { t with phase := .run }

/-- A HostWrite (R20): a checksum port runs its instruction, CMD issues a command or sets BUSYERR, any other target
is written. -/
def hostWriteEvent (a : Half) (data : Word) (s : State) : Host.Outcome State Fault Refusal :=
  match decodeHostWrite a data with
  | .ok i => exec i s
  | .error _ =>
    if target s.params a = .reg .cmd then (if s.busy then .next (setBusyErr s) else issue data s)
    else .next (hostWrite (target s.params a) data s)

/-- A HostRead (R20): CSRES runs its instruction, any other target is read. -/
def hostReadEvent (a : Half) (s : State) : Host.Outcome State Fault Refusal :=
  match decodeHostRead a with
  | .ok i => exec i s
  | .error _ => .next (hostRead (target s.params a) s)

/-- Retire: in RUN, the command in `lat_cmd` runs whole (R231). It cannot occur in another phase, so nothing happens
there (R20; log 5). -/
def retire (s : State) : Host.Outcome State Fault Refusal :=
  if s.phase = .run then exec (decodeCmd s.latCmd) s else .next s

/-- Reset: the table of R260 with the state's own parameters and fresh draws. The events to come and the data last
read belong to the environment and stay (R260, R261; log 4). -/
def resetEvent (s : State) : State :=
  { State.resetWith s.params s.draws with input := s.input, rdata := s.rdata }

/-- One event (R20). -/
def runEvent (e : Event) (s : State) : Host.Outcome State Fault Refusal :=
  match e with
  | .hostWrite a data => hostWriteEvent a data s
  | .hostRead a => hostReadEvent a s
  | .rxByte b => .next (rxByte b s)
  | .txAccept => .next (txAccept s)
  | .tick => .next (tick s)
  | .retire => retire s
  | .reset => .next (resetEvent s)

/-- The next event of the input. Where no event is to come, a waiting command retires, as weak fairness asks (R20,
R231), and a block that waits for its environment stays as it is (R169, R251; log 1). -/
def runNext (s : State) : Host.Outcome State Fault Refusal :=
  match s.input with
  | [] => retire s
  | e :: rest => runEvent e { s with input := rest }

/-- Place the instruction whose table word is `w` where the next step fetches it (log 12). -/
def placeWord (nbits w : Nat) (s : State) : State :=
  let v := w % 2 ^ nbits
  match tableFormat nbits v with
  | .cmd => { s with latCmd := BitVec.ofNat 32 v, busy := true, phase := .run, input := .retire :: s.input }
  | .desc =>
    layoutWrite 0 (BitVec.ofNat 32 v)
      { s with latCmd := 0x00000007, busy := true, phase := .run, rxVerified := true, input := .retire :: s.input }
  | .wire =>
    { s with latCmd := (0x0001 : BitVec 16) ++ BitVec.ofNat 8 v ++ (0x01 : BitVec 8), busy := true, phase := .run,
             input := .retire :: s.input }
  | .hostWrite =>
    { s with input := .hostWrite (BitVec.ofNat 16 v) (BitVec.ofNat 32 (v / 65536)) :: s.input }
  | .hostRead => { s with input := .hostRead (BitVec.ofNat 16 v) :: s.input }

end Sys2Proof.Machine
end

