-- ==== Sys2Proof/Machine/Step.lean ====
section
/-! DEFINITION. One step of the block: one event (00_scope.md R13). -/

namespace Sys2Proof.Machine

/-- One step. Parameters outside their range are outside the spec (U24). -/
def step (s : State) : Host.Outcome State Fault Refusal :=
  if s.params.valid then runNext s else .refused .parametersOutOfRange

/-- `s` with the instruction of a table word where the next step fetches it (log 12). -/
def State.withFetchWord (s : State) (nbits w : Nat) : State := placeWord nbits w s

end Sys2Proof.Machine
end

