-- ==== Sys2Proof/Safety.lean ====
section
/-! DEFINITION. What a sound state of the block is, in the terms the statements use: the invariant `Inv`, whose parts
name the spec's own whole-machine promises, and a step that goes on. -/

namespace Sys2Proof.Machine

/-- A transaction is running: PHASE is TX, GAP or RX (R150). -/
abbrev inTransaction (s : State) : Prop := s.phase = .tx ∨ s.phase = .gap ∨ s.phase = .rx

/-- BUSY is 1 from issue to completion, DONE is set only by completion (R25, R230, R232). -/
abbrev lifecycleOk (s : State) : Prop :=
  (s.busy = true ↔ s.phase ≠ .idle) ∧ (s.done = true → s.busy = false)

/-- What holds while a transaction runs, and of TXLEN and TXPOS always (R43, R46, R150, R153 to R157, R246). -/
abbrev transactionOk (s : State) : Prop :=
  (s.txlen = 0 ∨ s.txlen = 20) ∧ s.txpos.toNat ≤ 20 ∧
  (s.phase = .tx → s.txpos.toNat < 20) ∧
  (s.phase = .gap → s.tcnt.toNat < s.latGap.toNat) ∧
  (s.phase = .rx → s.tcnt.toNat < s.latTmo.toNat ∧ s.accepted = false) ∧
  (inTransaction s → s.rxVerified = false ∧ s.txlen = 20 ∧ cmdOp s.latCmd = 2) ∧
  (s.phase = .run → cmdOp s.latCmd = 2 → s.txlen ≠ 20)

/-- The ranges of the registers whose field is wider than the values they take (R32, R35, R37, R38, R49). -/
abbrev rangesOk (s : State) : Prop :=
  s.rxlen.toNat ≤ s.params.rxbufBytes ∧ s.clen ≤ s.params.rxbufBytes ∧ s.nslot.toNat ≤ 1024 ∧
  s.faultPc.toNat ≤ 128 ∧ (s.rejCause ≠ .rtn → s.rejHi = 0 ∧ s.rejLo = 0)

/-- The layout interpreter's registers do not survive a PARSE (R49). -/
abbrev interpreterIdle (s : State) : Prop := s.pc = 0 ∧ s.cur = 0 ∧ s.ns = 0

/-- RXBUF[0..RXLEN) passes the checksum check of VERIFY (R133). -/
abbrev frameGood (s : State) : Prop := (verifyFrame (rxFrame s s.rxlen.toNat)).good = true

/-- RXVERIFIED is 1 only on a frame that passes the checksum check (R66, R136); a frame accepted in TX or GAP passes
it until the transaction completes (R165). -/
abbrev verifiedOk (s : State) : Prop :=
  (s.rxVerified = true → frameGood s) ∧ (s.phase = .tx ∨ s.phase = .gap → s.accepted = true → frameGood s)

/-- The invariant of the block: every event keeps it. -/
abbrev Inv (s : State) : Prop :=
  s.params.valid = true ∧ s.memWf ∧ lifecycleOk s ∧ transactionOk s ∧ rangesOk s ∧ interpreterIdle s ∧ verifiedOk s

/-! ## The terms of the statements about field reads -/

/-- The `n` digits of the hex view from digit `o` are hex digits (R92). -/
abbrev hexAt (s : State) (o n : Nat) : Prop := ∀ k, k < n → (digit (hx s (o + k))).isSome = true

/-- The digit of the hex view at `i`, 0 where it is invalid. -/
def digitAt (s : State) (i : Nat) : Nat := (digit (hx s i)).getD 0

/-- The sum of R64: digit k of the `w`-digit field at `o`, times 16 to the power w-1-k. -/
def valueAt (s : State) (o w : Nat) : Nat := ∑ k ∈ Finset.range w, digitAt s (o + k) * 16 ^ (w - 1 - k)

/-- The field's value, folded over its own 4w bits where it is signed (R10, R181). -/
def fieldAt (s : State) (o w : Nat) (sgn : Bool) : Int :=
  if sgn = true ∧ 2 ^ (4 * w - 1) ≤ valueAt s o w then (valueAt s o w : Int) - 2 ^ (4 * w) else (valueAt s o w : Int)

/-- 1 where ADD1 is set (R104). -/
def addOne (add1 : Bool) : Int := if add1 then 1 else 0

/-- The FTAG word as the sum of its fields (R110, R202). -/
def tagValue (fid : Byte) (pc : Nat) (sgn : Bool) (dsel : BitVec 2) (kind e : Nat) : Word :=
  BitVec.ofNat 32 (fid.toNat + pc % 128 * 2 ^ 8 + sgn.toNat * 2 ^ 15 + dsel.toNat * 2 ^ 16 + kind * 2 ^ 18 +
    e % 2048 * 2 ^ 21)

/-- A command completed with the fault code `c` (R232). -/
def faulted (c : Code) (s : State) : State :=
  { s with code := c, busy := false, done := true, err := true, phase := .idle }

/-- A command completed OK (R232). -/
def finished (s : State) : State := { s with code := .ok, busy := false, done := true, phase := .idle }

/-- A PARSE completed with the fault code `c` at digit offset `off` (R201, R212, R232). -/
def parseFaulted (c : Code) (off : Nat) (s : State) : State :=
  faulted c
    { s with nextOff := BitVec.ofNat 32 (s.latArg0.toNat % 65536 + s.latArg1.toNat % 65536),
             resync := decide (s.latArg1.toNat % 65536 ≠ 0), nslot := BitVec.ofNat 16 s.ns, cnt0 := s.c0, cnt1 := s.c1,
             faultOff := BitVec.ofNat 16 off, faultPc := BitVec.ofNat 8 s.pc, pc := 0, cur := 0, ns := 0 }

/-- A transaction that ends in TIMEOUT, RXBUF drawn anew (R155, R77). -/
def timedOut (s : State) : State :=
  faulted .timeout
    { s with rxlen := 0, rxVerified := false, rxbuf := [], rxSeed := s.draws, draws := s.draws + 1 }

/-- What `t` is after a transaction completes OK from `s`: RXBUF keeps the frame, and is drawn anew above it
(R155, R77). -/
def xactCompleted (s t : State) : Prop :=
  t = { finished { s with rxVerified := true } with rxbuf := t.rxbuf, rxSeed := s.draws, draws := s.draws + 1 } ∧
    ∀ i, i < s.rxlen.toNat → rxRead t i = rxRead s i

/-- One more in a saturating counter, as R168 writes it. -/
def countedUp (c : Half) : Half := BitVec.ofNat 16 (min (c.toNat + 1) 0xFFFF)

/-- The upper-case hex digit characters (R92, R93). -/
def upperHex (d : Nat) : Byte :=
  [0x30, 0x31, 0x32, 0x33, 0x34, 0x35, 0x36, 0x37, 0x38, 0x39, 0x41, 0x42, 0x43, 0x44, 0x45, 0x46].getD d 0

/-- The checksum of a body as a number: the sum's negation mod 65536 (R130). -/
def checksumOf (body : List Byte) : Nat := (65536 - (body.map BitVec.toNat).sum % 65536) % 65536

/-- The step goes on: neither a fault nor a refusal (R238). -/
def stepGoesOn (s : State) : Prop := ∃ t, step s = .next t

end Sys2Proof.Machine
end

