-- ==== Sys2Proof/WellFormed.lean ====
section
/-! DEFINITION. Which terms of `Instr` stand for an encoding: a row that covers several opcodes or kinds holds
the one it was read from, and that one must lie in the row. Every other operand has the exact width of its field
(30_encoding.md R101, R104), so no value of it is ill-formed. -/

namespace Sys2Proof

/-- The operand check of each row: the opcode (or kind) held by a reserved row lies in that row's range. -/
def Instr.wf : Instr → Bool
  | .nop => true
  | .build _ _ _ _ => true
  | .xact => true
  | .verify => true
  | .gatechk => true
  | .extu => true
  | .exts => true
  | .parse _ => true
  | .reserved08 op => decide (8 ≤ op.toNat ∧ op.toNat < 16)
  | .reserved10 op => decide (16 ≤ op.toNat ∧ op.toNat < 32)
  | .reserved20 op => decide (32 ≤ op.toNat ∧ op.toNat < 64)
  | .reserved40 op => decide (64 ≤ op.toNat ∧ op.toNat < 128)
  | .reserved80 op => decide (128 ≤ op.toNat)
  | .endRec => true
  | .val _ _ _ _ _ => true
  | .cnt _ _ _ => true
  | .rep _ _ _ _ _ _ => true
  | .opq _ _ => true
  | .badDesc5 => true
  | .badDesc67 kind => decide (6 ≤ kind.toNat)
  | .queryAnalog => true
  | .queryVersion => true
  | .csaccWrite _ => true
  | .csfeedWrite _ => true
  | .csresRead => true

end Sys2Proof
end

