-- ==== Sys2Proof/Certificates/Slice0/Obligations.lean ====
section
/-! DEFINITION. The statements for the provers. Each docstring names the rule of spec/ that the statement formalises.
`s.input` holds the events to come, the model's form of the environment (log 1): a statement whose input is `e :: rest`
says what the step that takes the event `e` does. -/

open Sys2Proof Sys2Proof.Machine

/-! ## Encoding -/

/-- R108: the spec's own descriptor words decode to the descriptors it names, with three command words of R114. -/
def Obligations.SpecWordsDecode : Prop :=
  decodeDesc 0x01000144 = .val 4 false 2 false 0x01 ∧
  decodeDesc 0x24000364 = .rep 4 false 3 false false 0x24 ∧
  decodeDesc 0x28000A02 = .cnt 2 true 0x28 ∧
  decodeDesc 0x0C012400 = .opq 18 0x0C ∧
  decodeDesc 0x00000000 = .endRec ∧
  decodeCmd 0x00204201 = .build 0x42 false 2 0 ∧
  decodeCmd 0x00014F01 = .build 0x4F true 0 0 ∧
  decodeCmd 0x00002007 = .parse 32

/-- R100, R101, R104, R96, R131, R132: decoding the encoding of a well-formed instruction gives it back, the bytes of
a word in the model's order, least significant first (log 10). -/
def Obligations.DecodeOfEncode : Prop :=
  ∀ i : Instr, i.wf = true → decode (formatOf i) (encode i) = .ok i

/-- R100, R105: every CMD word and every LAYOUT word decodes to a well-formed instruction of its own format. -/
def Obligations.EveryWordDecodes : Prop :=
  ∀ w : Word, (decodeCmd w).wf = true ∧ formatOf (decodeCmd w) = .cmd ∧
    (decodeDesc w).wf = true ∧ formatOf (decodeDesc w) = .desc

/-- R102, R107: the operand bits that an opcode, or a descriptor kind, does not list are ignored. -/
def Obligations.ReservedBitsIgnored : Prop :=
  ∀ w v : Word,
    (cmdOp w = cmdOp v → (cmdOp w = 1 → w &&& 0x07F1FF00 = v &&& 0x07F1FF00) →
      (cmdOp w = 7 → w &&& 0x00007F00 = v &&& 0x00007F00) → decodeCmd w = decodeCmd v) ∧
    (descKind w = descKind v → (descKind w = 1 → w &&& 0xFF0000FF = v &&& 0xFF0000FF) →
      (descKind w = 2 → w &&& 0xFF00080F = v &&& 0xFF00080F) →
      (descKind w = 3 → w &&& 0xFF0008FF = v &&& 0xFF0008FF) →
      (descKind w = 4 → w &&& 0xFFFFF000 = v &&& 0xFFFFF000) → decodeDesc w = decodeDesc v)

/-! ## Steps -/

/-- R231: a Retire in RUN, come from the input or, where no event is to come, by the model's fairness (log 1), runs
the command of `lat_cmd`. -/
def Obligations.StepRunsRetiredCommand : Prop :=
  ∀ s : State, s.params.valid = true → s.phase = .run →
    (s.input = [] → step s = exec (decodeCmd s.latCmd) s) ∧
    (∀ rest, s.input = .retire :: rest → step s = exec (decodeCmd s.latCmd) { s with input := rest })

/-- R131, R132: a host access to a checksum port, as the next event of the input (log 1), runs the instruction of the
opcode table. -/
def Obligations.StepRunsChecksumPorts : Prop :=
  ∀ (s : State) (a : Half) (d : Word) (rest : List Event), s.params.valid = true →
    (s.input = .hostWrite a d :: rest → a &&& 0xFFFC = 0x060 → step s = exec (.csaccWrite d) { s with input := rest }) ∧
    (s.input = .hostWrite a d :: rest → a &&& 0xFFFC = 0x064 → step s = exec (.csfeedWrite d) { s with input := rest }) ∧
    (s.input = .hostRead a :: rest → a &&& 0xFFFC = 0x068 → step s = exec .csresRead { s with input := rest })

/-- R201, R213: PARSE's loop runs the meaning of the descriptor that LAYOUT[pc] decodes to, one after the other, until
one completes it (which leaves the interpreter's pc at 0: log 13), and faults DESC_OVF where pc has reached 128. That
a descriptor has a meaning of its own is the model's reading (log 8). -/
def Obligations.ParseRunsEachDescriptor : Prop :=
  (∀ (s : State) (didx : BitVec 7), s.rxVerified = true →
    exec (.parse didx) s = .next (parseFrom
      { s with c0 := 0, c1 := 0, ns := 0, cur := s.latArg0.toNat % 65536, pc := didx.toNat })) ∧
  (∀ s t : State, s.pc < 128 → exec (decodeDesc (layoutRead s s.pc)) s = .next t →
    parseFrom s = if t.pc = 0 then t else parseFrom t) ∧
  (∀ s : State, s.pc < 128 → ∃ t, exec (decodeDesc (layoutRead s s.pc)) s = .next t) ∧
  (∀ s : State, 128 ≤ s.pc → parseFrom s = parseFaulted .descOvf s.cur s)

/-- R230: a CMD write while BUSY = 0 latches the command and its operands, sets BUSY, clears DONE, CODE, LENWARN,
RESYNC and FAULTOFF, leaves ERR and BUSYERR, and an XACT with a built frame starts its transaction in the same step.
-/
def Obligations.CmdWriteIssues : Prop :=
  ∀ (s : State) (a : Half) (d : Word) (rest : List Event), s.params.valid = true → s.busy = false → s.phase = .idle →
    s.input = .hostWrite a d :: rest → a &&& 0xFFFC = 0x00C →
    let u : State := { s with input := rest, latCmd := d, latArg0 := s.arg0, latArg1 := s.arg1, busy := true,
                              done := false, code := .ok, lenWarn := false, resync := false, faultOff := 0, faultPc := 0 }
    (d.toNat % 256 = 4 → step s = .next { u with latMinlen := s.minlen, phase := .run }) ∧
    (d.toNat % 256 = 2 → s.txlen ≠ 20 → step s = .next { u with phase := .run }) ∧
    (d.toNat % 256 = 2 → s.txlen = 20 → step s = .next
      { u with latGap := s.gap, latTmo := s.tmo, latMinlen := s.minlen, rxlen := 0, rxVerified := false,
               asm := .waitFirst, clen := 0, accepted := false, txpos := 0, tcnt := 0, phase := .tx }) ∧
    (d.toNat % 256 ≠ 2 → d.toNat % 256 ≠ 4 → step s = .next { u with phase := .run })

/-- R52: while BUSY = 1 a write to CMD, RXLEN, RXBUF or LAYOUT only sets BUSYERR. The other registers take their write,
busy or not (R24, R26, R28 to R31, R40, R41), which changes nothing else: not the running command's latched operands
and not its phase. -/
def Obligations.WritesWhileBusy : Prop :=
  ∀ (s : State) (a : Half) (d : Word) (rest : List Event), s.params.valid = true →
    s.input = .hostWrite a d :: rest →
    let o := (a &&& 0xFFFC).toNat
    let u : State := { s with input := rest }
    (s.busy = true →
      (o = 0x00C ∨ o = 0x024 ∨ (0x4000 ≤ o ∧ o < 0x4000 + 4 * s.params.rxbufBytes) ∨ (0x8000 ≤ o ∧ o < 0x8200)) →
      step s = .next { u with busyErr := true }) ∧
    (o = 0x004 → step s = .next
      (if d.getLsbD 1 then
        { u with irqen := d.getLsbD 0, rejcntA := 0, rejcntB := 0, rejcntC := 0, rejcntD := 0, rejcntE := 0,
                 rejCause := .clear, rejHi := 0, rejLo := 0 }
       else { u with irqen := d.getLsbD 0 })) ∧
    (o = 0x008 → step s = .next { u with done := s.done && !d.getLsbD 1, err := s.err && !d.getLsbD 2,
                                         busyErr := s.busyErr && !d.getLsbD 3 }) ∧
    (o = 0x010 → step s = .next { u with arg0 := d }) ∧
    (o = 0x014 → step s = .next { u with arg1 := d }) ∧
    (o = 0x018 → step s = .next { u with gap := d }) ∧
    (o = 0x01C → step s = .next { u with tmo := d }) ∧
    (o = 0x020 → step s = .next { u with minlen := BitVec.ofNat 16 d.toNat }) ∧
    (o = 0x060 → step s = .next { u with csacc := BitVec.ofNat 16 d.toNat }) ∧
    (o = 0x064 → step s = .next { u with csacc := BitVec.ofNat 16 (s.csacc.toNat + d.toNat % 256) })

/-- R26: a STATUS write clears DONE, ERR and BUSYERR where its bits 1, 2 and 3 are set, in every phase, and nothing
else of the block. -/
def Obligations.StatusWriteOneToClear : Prop :=
  ∀ (s : State) (a : Half) (d : Word) (rest : List Event), s.params.valid = true →
    s.input = .hostWrite a d :: rest → a &&& 0xFFFC = 0x008 →
    step s = .next { s with input := rest, done := if d.getLsbD 1 then false else s.done,
                            err := if d.getLsbD 2 then false else s.err,
                            busyErr := if d.getLsbD 3 then false else s.busyErr }

/-- R48, R32: while BUSY = 0 a write to an entry of RXBUF or LAYOUT changes that entry alone, a write to RXBUF or
RXLEN clears RXVERIFIED, and RXLEN takes the smaller of data[15:0] and P_RXBUF_BYTES. -/
def Obligations.BufferWritesWhileIdle : Prop :=
  ∀ (s : State) (a : Half) (d : Word) (rest : List Event), s.params.valid = true → s.busy = false →
    s.input = .hostWrite a d :: rest →
    let o := (a &&& 0xFFFC).toNat
    (∀ i, i < s.params.rxbufBytes → o = 0x4000 + 4 * i →
      ∃ t, step s = .next t ∧ t = { s with input := rest, rxbuf := t.rxbuf, rxVerified := false } ∧
        ∀ j, rxRead t j = if j = i then BitVec.ofNat 8 d.toNat else rxRead s j) ∧
    (∀ i, i < 128 → o = 0x8000 + 4 * i →
      ∃ t, step s = .next t ∧ t = { s with input := rest, layout := t.layout } ∧
        ∀ j, layoutRead t j = if j = i then d else layoutRead s j) ∧
    (o = 0x024 → step s = .next
      { s with input := rest, rxlen := BitVec.ofNat 16 (min (d.toNat % 65536) s.params.rxbufBytes), rxVerified := false })

/-- R47: a write to an offset that the map does not list, or that it lists as read-only, changes nothing, and a read
of an offset that it does not list returns 0. -/
def Obligations.UnmappedOffsets : Prop :=
  ∀ (s : State) (a : Half) (d : Word) (rest : List Event), s.params.valid = true →
    let o := (a &&& 0xFFFC).toNat
    let unlisted := (0x07C ≤ o ∧ o < 0x1000) ∨ (0x1050 ≤ o ∧ o < 0x4000) ∨
      (0x4000 + 4 * s.params.rxbufBytes ≤ o ∧ o < 0x8000) ∨ (0x8200 ≤ o ∧ o < 0xA000) ∨ 0xC000 ≤ o
    (s.input = .hostRead a :: rest → unlisted → step s = .next { s with input := rest, rdata := 0 }) ∧
    (s.input = .hostWrite a d :: rest →
      unlisted ∨ o = 0 ∨ (0x028 ≤ o ∧ o < 0x060) ∨ (0x068 ≤ o ∧ o < 0x07C) ∨ (0x1000 ≤ o ∧ o < 0x1050) ∨
        (0xA000 ≤ o ∧ o < 0xC000) →
      step s = .next { s with input := rest })

/-- R68: offset bits [1:0] are not decoded, and every host access goes on. -/
def Obligations.OffsetLowBitsIgnored : Prop :=
  ∀ (s : State) (a b : Half) (d : Word) (rest : List Event), s.params.valid = true → a &&& 0xFFFC = b &&& 0xFFFC →
    step { s with input := .hostWrite a d :: rest } = step { s with input := .hostWrite b d :: rest } ∧
    step { s with input := .hostRead a :: rest } = step { s with input := .hostRead b :: rest } ∧
    stepGoesOn { s with input := .hostWrite a d :: rest } ∧ stepGoesOn { s with input := .hostRead a :: rest }

/-- R22, R23 to R46: what a host read returns while BUSY = 0, register by register and window by window. The read
changes nothing of the block. -/
def Obligations.HostReadsWhileIdle : Prop :=
  ∀ (s : State) (a : Half) (rest : List Event), s.params.valid = true → s.busy = false → s.input = .hostRead a :: rest →
    let o := (a &&& 0xFFFC).toNat
    let reads (v : Nat) : Prop := step s = .next { s with input := rest, rdata := BitVec.ofNat 32 v }
    (o = 0x000 → reads 0x41464301) ∧ (o = 0x004 → reads s.irqen.toNat) ∧
    (o = 0x008 → reads (s.done.toNat * 2 + s.err.toNat * 4 + s.busyErr.toNat * 8 + s.lenWarn.toNat * 16 +
      s.resync.toNat * 32 + s.rxVerified.toNat * 64 + (if s.txlen = 20 then 128 else 0) + s.code.toBits.toNat * 256)) ∧
    (o = 0x00C → reads 0) ∧ (o = 0x010 → reads s.arg0.toNat) ∧ (o = 0x014 → reads s.arg1.toNat) ∧
    (o = 0x018 → reads s.gap.toNat) ∧ (o = 0x01C → reads s.tmo.toNat) ∧ (o = 0x020 → reads s.minlen.toNat) ∧
    (o = 0x024 → reads s.rxlen.toNat) ∧ (o = 0x028 → reads s.res0.toNat) ∧ (o = 0x02C → reads s.res1.toNat) ∧
    (o = 0x030 → reads s.res2.toNat) ∧ (o = 0x034 → reads s.nextOff.toNat) ∧
    (o = 0x038 → reads (s.faultOff.toNat + s.faultPc.toNat * 65536)) ∧ (o = 0x03C → reads s.cnt0.toNat) ∧
    (o = 0x040 → reads s.cnt1.toNat) ∧ (o = 0x044 → reads s.nslot.toNat) ∧
    (o = 0x048 → reads (s.rejCause.toBits.toNat + s.rejHi.toNat * 256 + s.rejLo.toNat * 65536)) ∧
    (o = 0x04C → reads s.rejcntA.toNat) ∧ (o = 0x050 → reads s.rejcntB.toNat) ∧ (o = 0x054 → reads s.rejcntC.toNat) ∧
    (o = 0x058 → reads s.rejcntD.toNat) ∧ (o = 0x05C → reads s.rejcntE.toNat) ∧ (o = 0x060 → reads s.csacc.toNat) ∧
    (o = 0x064 → reads 0) ∧ (o = 0x068 → reads ((65536 - s.csacc.toNat) % 65536)) ∧ (o = 0x06C → reads s.txlen.toNat) ∧
    (o = 0x070 → reads (s.phase.toBits.toNat + s.accepted.toNat * 8 + s.asm.toBits.toNat * 16)) ∧
    (o = 0x074 → reads s.tcnt.toNat) ∧ (o = 0x078 → reads s.txpos.toNat) ∧
    (∀ i, i < 20 → o = 0x1000 + 4 * i → reads (txRead s i).toNat) ∧
    (∀ i, i < s.params.rxbufBytes → o = 0x4000 + 4 * i → reads (rxRead s i).toNat) ∧
    (∀ i, i < 128 → o = 0x8000 + 4 * i → reads (layoutRead s i).toNat) ∧
    (∀ i, i < 1024 → o = 0xA000 + 4 * i → reads (fvalRead s i).toNat) ∧
    (∀ i, i < 1024 → o = 0xB000 + 4 * i → reads (ftagRead s i).toNat)

/-- R51: while BUSY = 1 a read of a result register or of TXBUF, RXBUF, FVAL or FTAG returns a value that nothing
constrains (the model's form of it: the free word of a fresh draw, log 3), and a read of anything else returns what it
would return after BUSY alone is cleared, with STATUS showing BUSY. No read changes the block. -/
def Obligations.HostReadsWhileBusy : Prop :=
  ∀ (s : State) (a : Half) (rest : List Event), s.params.valid = true → s.busy = true → s.input = .hostRead a :: rest →
    let o := (a &&& 0xFFFC).toNat
    let unspecified := (0x024 ≤ o ∧ o < 0x048) ∨ (0x1000 ≤ o ∧ o < 0x1050) ∨
      (0x4000 ≤ o ∧ o < 0x4000 + 4 * s.params.rxbufBytes) ∨ (0xA000 ≤ o ∧ o < 0xC000)
    (unspecified → step s = .next { s with input := rest, rdata := Config.freeWord s.draws 0, draws := s.draws + 1 }) ∧
    (¬unspecified → ∃ v : Word, step { s with busy := false } = .next { s with busy := false, input := rest, rdata := v } ∧
      step s = .next { s with input := rest, rdata := if o = 0x008 then v + 1 else v })

/-- No rule stops the block: a command's fault is a completion (R232, R238, R239), and no host access faults (R47, R68).
That every step then gives a next state is the model's deduction (log 15, DEDUCED). That the parameters of R6 stand in
the state, that no step changes them, and that only values outside R6's range (U24) are refused is the model's choice
(log 7, DESIGN CHOICE). -/
def Obligations.StepNeverStops : Prop :=
  ∀ s : State, s.params.valid = true → ∃ t, step s = .next t ∧ t.params = s.params

/-- R169, R251: where no event is to come (the model's empty input, log 1) and no command waits in RUN, the block
stays as it is. -/
def Obligations.WaitingBlockStays : Prop :=
  ∀ s : State, s.params.valid = true → s.input = [] → s.phase ≠ .run → step s = .next s

/-- R260: what Reset leaves, in every phase: each line of the table, the four unspecified memories drawn anew (log 3),
and the outputs low. -/
def Obligations.ResetLeavesTheTable : Prop :=
  ∀ (s : State) (rest : List Event), s.params.valid = true → s.input = .reset :: rest →
    ∃ t, step s = .next t ∧ t.params = s.params ∧
      (t.irqen = false ∧ t.busy = false ∧ t.done = false ∧ t.err = false ∧ t.busyErr = false ∧ t.lenWarn = false ∧
       t.resync = false ∧ t.rxVerified = false ∧ t.code = .ok) ∧
      (t.arg0 = 0 ∧ t.arg1 = 0 ∧ t.gap = s.params.gapReset ∧ t.tmo = s.params.tmoReset ∧
       t.minlen = s.params.minlenReset ∧ t.rxlen = 0) ∧
      (t.res0 = 0 ∧ t.res1 = 0 ∧ t.res2 = 0 ∧ t.nextOff = 0 ∧ t.faultOff = 0 ∧ t.faultPc = 0 ∧ t.cnt0 = 0 ∧
       t.cnt1 = 0 ∧ t.nslot = 0) ∧
      (t.rejCause = .clear ∧ t.rejHi = 0 ∧ t.rejLo = 0 ∧ t.rejcntA = 0 ∧ t.rejcntB = 0 ∧ t.rejcntC = 0 ∧
       t.rejcntD = 0 ∧ t.rejcntE = 0) ∧
      (t.csacc = 0 ∧ csresWord t = 0 ∧ t.txlen = 0 ∧ t.phase = .idle ∧ t.accepted = false ∧ t.asm = .waitFirst ∧
       t.tcnt = 0 ∧ t.txpos = 0) ∧
      (t.latCmd = 0 ∧ t.latArg0 = 0 ∧ t.latArg1 = 0 ∧ t.clen = 0 ∧ t.c0 = 0 ∧ t.c1 = 0 ∧
       t.latGap = s.params.gapReset ∧ t.latTmo = s.params.tmoReset ∧ t.latMinlen = s.params.minlenReset) ∧
      (∀ i, i < 15 → layoutRead t i = headerProgram.getD i 0) ∧
      (∀ i, 32 ≤ i → i < 69 → layoutRead t i = batteryProgram.getD (i - 32) 0) ∧
      (∀ i, (15 ≤ i ∧ i < 32) ∨ 69 ≤ i → layoutRead t i = 0) ∧
      (∀ i, txRead t i = Config.freeByte s.draws i ∧ rxRead t i = Config.freeByte (s.draws + 1) i ∧
        fvalRead t i = Config.freeWord (s.draws + 2) i ∧ ftagRead t i = Config.freeWord (s.draws + 3) i) ∧
      irq t = false ∧ txValid t = false

/-- R262: ERR and BUSYERR fall only by Reset or by a host write to STATUS, and LAYOUT changes only by Reset or by a
host write to a LAYOUT entry. -/
def Obligations.StickyFlagsAndLayout : Prop :=
  ∀ s t : State, step s = .next t →
    let statusWrite (bit : Nat) : Prop :=
      ∃ a d rest, s.input = .hostWrite a d :: rest ∧ a &&& 0xFFFC = 0x008 ∧ d.getLsbD bit = true
    (s.err = true → t.err = false → s.input.head? = some .reset ∨ statusWrite 2) ∧
    (s.busyErr = true → t.busyErr = false → s.input.head? = some .reset ∨ statusWrite 3) ∧
    (t.layout ≠ s.layout → s.input.head? = some .reset ∨
      ∃ a d rest, s.input = .hostWrite a d :: rest ∧ 0x8000 ≤ (a &&& 0xFFFC).toNat ∧ (a &&& 0xFFFC).toNat < 0x8200)

/-! ## NOP and the reserved opcodes -/

/-- R236: NOP completes OK and changes nothing else. -/
def Obligations.NopCompletes : Prop :=
  ∀ s : State, exec .nop s =
    .next { s with code := .ok, busy := false, done := true, phase := .idle }

/-- R237: every opcode from 0x08 to 0xFF is one of the reserved rows, and each of these rows completes BAD_OP and
changes nothing else. -/
def Obligations.ReservedOpcodesCompleteBadOp : Prop :=
  (∀ (w : Word) (s : State), 8 ≤ w.toNat % 256 → exec (decodeCmd w) s =
    .next { s with code := .badOp, busy := false, done := true, err := true, phase := .idle }) ∧
  (∀ (op : Byte) (s : State) (i : Instr),
    i ∈ [Instr.reserved08 op, .reserved10 op, .reserved20 op, .reserved40 op, .reserved80 op] → exec i s =
    .next { s with code := .badOp, busy := false, done := true, err := true, phase := .idle })

/-! ## The checksum -/

/-- R130: the checksum is the complement of the 16-bit sum plus one, which is the sum's negation; it is 0 exactly when
the 16-bit sum is 0; the empty body gives 0; the document's vector gives 0xFCFE. -/
def Obligations.ChecksumNegatesTheSum : Prop :=
  (∀ body : List Byte,
    (csum body).toNat = ((((body.map BitVec.toNat).sum % 65536) ^^^ 0xFFFF) + 1) % 65536 ∧
    (csum body).toNat = (65536 - (body.map BitVec.toNat).sum % 65536) % 65536 ∧
    (csum body = 0 ↔ (body.map BitVec.toNat).sum % 65536 = 0)) ∧
  csum [] = 0 ∧
  csum [0x32, 0x32, 0x30, 0x30, 0x34, 0x41, 0x34, 0x32, 0x45, 0x30, 0x30, 0x32, 0x46, 0x46] = 0xFCFE

/-- R131: the two write ports of the host checksum engine change CSACC alone, CSACC to data[15:0] and CSFEED by adding
data[7:0] mod 65536. -/
def Obligations.ChecksumPortsWrite : Prop :=
  ∀ (s : State) (d : Word),
    exec (.csaccWrite d) s = .next { s with csacc := BitVec.ofNat 16 (d.toNat % 65536) } ∧
    exec (.csfeedWrite d) s = .next { s with csacc := BitVec.ofNat 16 (s.csacc.toNat + d.toNat % 256) }

/-- R132: CSRES reads the complement of CSACC plus one, and after CSACC <- 0 and one CSFEED per byte of a body it
reads the body's checksum. -/
def Obligations.CsresReadsTheChecksum : Prop :=
  (∀ s : State, exec .csresRead s =
    .next { s with rdata := BitVec.ofNat 32 (((s.csacc ^^^ 0xFFFF).toNat + 1) % 65536) }) ∧
  (∀ (s : State) (body : List Byte), ∃ u : State,
    List.foldlM (m := Option) (fun (x : State) (b : Byte) =>
      match exec (.csfeedWrite (b.setWidth 32)) x with
      | .next y => some y
      | .fault _ => none
      | .refused _ => none) { s with csacc := 0 } body = some u ∧
    exec .csresRead u = .next { u with rdata := BitVec.ofNat 32 (csum body).toNat })

/-- R133: VERIFY on a frame of n = RXLEN bytes: the checksum of the bytes 1 to n - 6 against the four hex digits at n
- 5 to n - 2, compared as numbers. -/
def Obligations.VerifyResult : Prop :=
  ∀ s : State,
    let n := s.rxlen.toNat
    let comp := checksumOf ((List.range (n - 6)).map fun i => rxRead s (i + 1))
    (n < 6 → exec .verify s = .next (finished { s with res0 := 0, res1 := 0xFFFFFFFF, res2 := 0, rxVerified := false })) ∧
    (6 ≤ n → ∀ d0 d1 d2 d3 : Nat, digit (rxRead s (n - 5)) = some d0 → digit (rxRead s (n - 4)) = some d1 →
      digit (rxRead s (n - 3)) = some d2 → digit (rxRead s (n - 2)) = some d3 →
      let c := d0 * 4096 + d1 * 256 + d2 * 16 + d3
      exec .verify s = .next (finished { s with res0 := if c = comp then 1 else 0, res1 := BitVec.ofNat 32 c,
                                                res2 := BitVec.ofNat 32 comp, rxVerified := decide (c = comp) })) ∧
    (6 ≤ n → (∃ k, k < 4 ∧ digit (rxRead s (n - 5 + k)) = none) →
      exec .verify s = .next (finished { s with res0 := 0, res1 := 0xFFFFFFFF, res2 := BitVec.ofNat 32 comp,
                                                rxVerified := false }))

/-- R134, R162: GATECHK gives VERIFY's RES1, RES2 and RXVERIFIED, and in RES0 the first failing gate. -/
def Obligations.GatechkResult : Prop :=
  ∀ s : State,
    let n := s.rxlen.toNat
    ∃ u, exec .verify s = .next u ∧
      let verdict : Word :=
        if n < 1 ∨ rxRead s 0 ≠ 0x7E ∨ rxRead s (n - 1) ≠ 0x0D then 1
        else if u.rxVerified = false then 2
        else if n < s.latMinlen.toNat then 3
        else if n < 9 ∨ rxRead s 7 ≠ 0x30 ∨ rxRead s 8 ≠ 0x30 then 4
        else 0
      exec .gatechk s = .next { u with res0 := verdict }

/-- R162: the gate function gives the first failing gate, in the order a, b, c, d, and lets a candidate pass exactly
when it starts with SOI and ends with EOI, its checksum is good, it is long enough and its return code is "00". -/
def Obligations.GateIsTheConjunction : Prop :=
  ∀ (f : List Byte) (m : Nat) (v : Bool),
    let a := f.head? = some 0x7E ∧ f.getLast? = some 0x0D
    let d := f[7]? = some 0x30 ∧ f[8]? = some 0x30
    (gate f m v = .delimiter ↔ ¬a) ∧ (gate f m v = .checksum ↔ a ∧ v = false) ∧
    (gate f m v = .short ↔ a ∧ v = true ∧ f.length < m) ∧ (gate f m v = .rtn ↔ a ∧ v = true ∧ m ≤ f.length ∧ ¬d) ∧
    (gate f m v = .clear ↔ a ∧ v = true ∧ m ≤ f.length ∧ d) ∧
    Cause.clear.toBits = 0 ∧ Cause.delimiter.toBits = 1 ∧ Cause.checksum.toBits = 2 ∧ Cause.short.toBits = 3 ∧
    Cause.rtn.toBits = 4

/-! ## BUILD -/

/-- R140, R141, R142: BUILD with a legal code and target writes the 20 frame bytes and TXLEN = 20 and completes OK;
every other BUILD completes BAD_ARG with TXLEN = 0 and TXBUF unspecified (R77). That an unspecified TXBUF is a fresh
draw is the model's choice (log 3, DESIGN CHOICE). Nothing else changes. -/
def Obligations.BuildResult : Prop :=
  ∀ (s : State) (code : Byte) (sys : Bool) (pos : BitVec 4) (grp : BitVec 3),
    let legalCode := code = 0x42 ∨ code = 0x4F
    let legalPos := sys = true ∨ (2 ≤ pos.toNat ∧ pos.toNat ≤ 13)
    let adr := if sys then 16 * grp.toNat else pos.toNat + 16 * grp.toNat
    let body : List Byte := [0x32, 0x32, upperHex (adr / 16), upperHex (adr % 16), 0x34, 0x41,
      upperHex (code.toNat / 16), upperHex (code.toNat % 16), 0x45, 0x30, 0x30, 0x32, 0x46, 0x46]
    let k := checksumOf body
    let frame : List Byte := [0x7E] ++ body ++
      [upperHex (k / 4096), upperHex (k / 256 % 16), upperHex (k / 16 % 16), upperHex (k % 16), 0x0D]
    (legalCode → legalPos → ∃ t, exec (.build code sys pos grp) s = .next t ∧
      t = finished { s with txbuf := t.txbuf, txlen := 20 } ∧ ∀ i, i < 20 → txRead t i = frame.getD i 0) ∧
    (¬(legalCode ∧ legalPos) → ∃ t, exec (.build code sys pos grp) s = .next t ∧
      t = faulted .badArg { s with txbuf := t.txbuf, txSeed := s.draws, draws := s.draws + 1, txlen := 0 })

/-- R96: the two request codes, as the CODE of the latched BUILD word (the model's reading of a row of the table that
is an operand value, log 9), build that request; every other code is no request code and makes BUILD complete BAD_ARG.
-/
def Obligations.RequestCodesBuild : Prop :=
  (∀ s : State, exec .queryAnalog s = exec (.build 0x42 (cmdSys s.latCmd) (cmdPos s.latCmd) (cmdGrp s.latCmd)) s ∧
    exec .queryVersion s = exec (.build 0x4F (cmdSys s.latCmd) (cmdPos s.latCmd) (cmdGrp s.latCmd)) s) ∧
  (∀ s : State, cmdSys s.latCmd = true ∨ (2 ≤ (cmdPos s.latCmd).toNat ∧ (cmdPos s.latCmd).toNat ≤ 13) →
    (∃ t, exec .queryAnalog s = .next t ∧ t = finished { s with txbuf := t.txbuf, txlen := 20 } ∧
      txRead t 7 = 0x34 ∧ txRead t 8 = 0x32) ∧
    (∃ t, exec .queryVersion s = .next t ∧ t = finished { s with txbuf := t.txbuf, txlen := 20 } ∧
      txRead t 7 = 0x34 ∧ txRead t 8 = 0x46)) ∧
  (∀ (code : Byte) (sys : Bool) (pos : BitVec 4) (grp : BitVec 3) (s : State), code ≠ 0x42 → code ≠ 0x4F →
    decodeCode code = .error (.notARequestCode code) ∧
    ∃ t, exec (.build code sys pos grp) s = .next t ∧ t.code = .badArg ∧ t.txlen = 0)

/-- R135: the 20 bytes of a BUILD that completed OK, copied into RXBUF with RXLEN = 20, pass VERIFY. -/
def Obligations.BuiltFrameVerifies : Prop :=
  ∀ (s t u : State) (code : Byte) (sys : Bool) (pos : BitVec 4) (grp : BitVec 3),
    exec (.build code sys pos grp) s = .next t → t.code = .ok → u.rxlen = 20 →
    (∀ i, i < 20 → rxRead u i = txRead t i) →
    ∃ r, exec .verify u = .next r ∧ r.res0 = 1 ∧ r.res1 = r.res2 ∧ r.rxVerified = true

/-- R142: no event but Reset and the Retire of a BUILD changes TXBUF or TXLEN. -/
def Obligations.OnlyBuildWritesTxbuf : Prop :=
  ∀ s t : State, step s = .next t →
    (t.txlen = s.txlen ∧ ∀ i, txRead t i = txRead s i) ∨ s.input.head? = some .reset ∨
    (s.phase = .run ∧ cmdOp s.latCmd = 1 ∧ (s.input = [] ∨ s.input.head? = some .retire))

/-! ## The transaction -/

/-- R153: XACT with a built frame latches GAP, TMO and MINLEN and starts; with none it waits in RUN, where it
completes NO_FRAME with nothing else changed. One meaning serves issue and Retire (log 6). -/
def Obligations.XactStartsOrHasNoFrame : Prop :=
  ∀ s : State,
    (s.txlen = 20 → exec .xact s = .next
      { s with latGap := s.gap, latTmo := s.tmo, latMinlen := s.minlen, rxlen := 0, rxVerified := false,
               asm := .waitFirst, clen := 0, accepted := false, txpos := 0, tcnt := 0, phase := .tx }) ∧
    (s.txlen ≠ 20 → s.phase ≠ .run → exec .xact s = .next { s with phase := .run }) ∧
    (s.txlen ≠ 20 → s.phase = .run → exec .xact s = .next (faulted .noFrame s))

/-- R154, R152: in TX the block presents TXBUF[TXPOS]; a TxAccept moves on, and the 20th enters GAP, or ends the gap
in the same step where the latched gap is 0. In another phase there is no TxAccept, and one that the input holds does
nothing (log 5). RXBUF above the frame is drawn anew at completion (log 3). -/
def Obligations.TxAcceptMovesOn : Prop :=
  ∀ (s : State) (rest : List Event), s.params.valid = true → s.input = .txAccept :: rest →
    let u : State := { s with input := rest, txpos := s.txpos + 1 }
    let g : State := { u with phase := .gap, tcnt := 0 }
    (s.phase = .tx → s.txpos.toNat < 20 → txValid s = true ∧ txData s = txRead s s.txpos.toNat) ∧
    (s.phase = .tx → s.txpos.toNat < 19 → step s = .next u) ∧
    (s.phase = .tx → s.txpos = 19 → s.latGap ≠ 0 → step s = .next g) ∧
    (s.phase = .tx → s.txpos = 19 → s.latGap = 0 → s.accepted = true → ∃ t, step s = .next t ∧ xactCompleted g t) ∧
    (s.phase = .tx → s.txpos = 19 → s.latGap = 0 → s.accepted = false → s.latTmo ≠ 0 →
      step s = .next { u with phase := .rx, tcnt := 0 }) ∧
    (s.phase = .tx → s.txpos = 19 → s.latGap = 0 → s.accepted = false → s.latTmo = 0 →
      step s = .next (timedOut { u with tcnt := 0 })) ∧
    (s.phase ≠ .tx → step s = .next { s with input := rest })

/-- R156, R157, R152: a Tick counts in GAP and RX, ends the gap or the window when TCNT reaches the latched value, and
has no effect in another phase. RXBUF above the frame is drawn anew at completion (log 3). -/
def Obligations.TickCounts : Prop :=
  ∀ (s : State) (rest : List Event), s.params.valid = true → s.input = .tick :: rest →
    let u : State := { s with input := rest, tcnt := s.tcnt + 1 }
    (s.phase = .gap → s.tcnt + 1 ≠ s.latGap → step s = .next u) ∧
    (s.phase = .gap → s.tcnt + 1 = s.latGap → s.accepted = true → ∃ t, step s = .next t ∧ xactCompleted u t) ∧
    (s.phase = .gap → s.tcnt + 1 = s.latGap → s.accepted = false → s.latTmo ≠ 0 →
      step s = .next { u with phase := .rx, tcnt := 0 }) ∧
    (s.phase = .gap → s.tcnt + 1 = s.latGap → s.accepted = false → s.latTmo = 0 →
      step s = .next (timedOut { u with tcnt := 0 })) ∧
    (s.phase = .rx → s.tcnt + 1 ≠ s.latTmo → step s = .next u) ∧
    (s.phase = .rx → s.tcnt + 1 = s.latTmo → step s = .next (timedOut u)) ∧
    (s.phase ≠ .gap → s.phase ≠ .rx → step s = .next { s with input := rest })

/-- R158: outside a transaction, and after it has accepted a frame, a received byte leaves no trace. -/
def Obligations.StrayBytesLeaveNoTrace : Prop :=
  ∀ (s : State) (b : Byte) (rest : List Event), s.params.valid = true → s.input = .rxByte b :: rest →
    ¬inTransaction s ∨ s.accepted = true → step s = .next { s with input := rest }

/-- R160, R168: the assembler on every byte that does not end a stored candidate: storing, skipping, overflowing, and
the rejections by gate a and gate e. -/
def Obligations.AssemblerStates : Prop :=
  ∀ (s : State) (b : Byte) (rest : List Event), s.params.valid = true → s.input = .rxByte b :: rest →
    inTransaction s → s.accepted = false →
    let u : State := { s with input := rest }
    let rejected (c : Cause) : State := { u with asm := .waitFirst, rejCause := c, rejHi := 0, rejLo := 0 }
    (s.asm = .waitFirst → b = 0x0D → step s = .next { rejected .delimiter with rejcntA := countedUp s.rejcntA }) ∧
    (s.asm = .waitFirst → b = 0x7E → ∃ t, step s = .next t ∧
      t = { u with rxbuf := t.rxbuf, clen := 1, asm := .inFrame } ∧
      ∀ i, rxRead t i = if i = 0 then b else rxRead s i) ∧
    (s.asm = .waitFirst → b ≠ 0x0D → b ≠ 0x7E → step s = .next { u with asm := .skip }) ∧
    (s.asm = .skip → b = 0x0D → step s = .next { rejected .delimiter with rejcntA := countedUp s.rejcntA }) ∧
    (s.asm = .skip → b ≠ 0x0D → step s = .next u) ∧
    (s.asm = .inFrame → s.clen = s.params.rxbufBytes → b = 0x0D →
      step s = .next { rejected .overlong with rejcntE := countedUp s.rejcntE }) ∧
    (s.asm = .inFrame → s.clen = s.params.rxbufBytes → b ≠ 0x0D → step s = .next { u with asm := .over }) ∧
    (s.asm = .inFrame → s.clen ≠ s.params.rxbufBytes → b ≠ 0x0D → ∃ t, step s = .next t ∧
      t = { u with rxbuf := t.rxbuf, clen := s.clen + 1 } ∧
      ∀ i, rxRead t i = if i = s.clen then b else rxRead s i) ∧
    (s.asm = .over → b = 0x0D → step s = .next { rejected .overlong with rejcntE := countedUp s.rejcntE }) ∧
    (s.asm = .over → b ≠ 0x0D → step s = .next u)

/-- R160, R165, R168: the EOI that ends a stored candidate: a candidate that passes the gates is accepted, and
completes the transaction at once in RX; any other is rejected, counted by its gate, and logged with its RTN bytes for
gate d. RXBUF above the frame is drawn anew at completion (log 3). -/
def Obligations.CandidateEnds : Prop :=
  ∀ (s : State) (rest : List Event), s.params.valid = true → s.input = .rxByte 0x0D :: rest → inTransaction s →
    s.accepted = false → s.asm = .inFrame → s.clen < s.params.rxbufBytes →
    let f : List Byte := (List.range s.clen).map (rxRead s) ++ [0x0D]
    let c := gate f s.latMinlen.toNat (verifyFrame f).good
    (c ≠ .clear → ∃ t, step s = .next t ∧
      t = { s with input := rest, rxbuf := t.rxbuf, clen := s.clen + 1, asm := .waitFirst, rejCause := c,
                   rejHi := if c = .rtn then f.getD 7 0 else 0, rejLo := if c = .rtn then f.getD 8 0 else 0,
                   rejcntA := if c = .delimiter then countedUp s.rejcntA else s.rejcntA,
                   rejcntB := if c = .checksum then countedUp s.rejcntB else s.rejcntB,
                   rejcntC := if c = .short then countedUp s.rejcntC else s.rejcntC,
                   rejcntD := if c = .rtn then countedUp s.rejcntD else s.rejcntD } ∧
      ∀ i, rxRead t i = if i = s.clen then 0x0D else rxRead s i) ∧
    (c = .clear → s.phase ≠ .rx → ∃ t, step s = .next t ∧
      t = { s with input := rest, rxbuf := t.rxbuf, clen := s.clen + 1, asm := .waitFirst, accepted := true,
                   rxlen := BitVec.ofNat 16 (s.clen + 1) } ∧
      ∀ i, rxRead t i = if i = s.clen then 0x0D else rxRead s i) ∧
    (c = .clear → s.phase = .rx → ∃ t, step s = .next t ∧
      t = finished { s with input := rest, rxbuf := t.rxbuf, rxSeed := s.draws, draws := s.draws + 1,
                            clen := s.clen + 1, asm := .waitFirst, accepted := true, rxVerified := true,
                            rxlen := BitVec.ofNat 16 (s.clen + 1) } ∧
      ∀ i, i ≤ s.clen → rxRead t i = if i = s.clen then 0x0D else rxRead s i)

/-- Every change of PHASE: the rows of R150's table, and beside them IDLE to RUN at the issue of every command other
than XACT (R230) and RUN to IDLE at its Retire (R231, R232). -/
def Obligations.PhaseTable : Prop :=
  ∀ s t : State, Inv s → step s = .next t → t.phase ≠ s.phase →
    (∃ a d rest, s.input = .hostWrite a d :: rest ∧ a &&& 0xFFFC = 0x00C ∧ s.phase = .idle ∧
      ((d.toNat % 256 = 2 ∧ s.txlen = 20 ∧ t.phase = .tx) ∨
       (¬(d.toNat % 256 = 2 ∧ s.txlen = 20) ∧ t.phase = .run))) ∨
    (s.phase = .run ∧ t.phase = .idle ∧ (s.input = [] ∨ s.input.head? = some .retire)) ∨
    (s.input.head? = some .txAccept ∧ s.phase = .tx ∧ s.txpos = 19 ∧
      ((0 < s.latGap.toNat ∧ t.phase = .gap) ∨
       (s.latGap = 0 ∧ s.accepted = true ∧ t.phase = .idle ∧ t.code = .ok) ∨
       (s.latGap = 0 ∧ s.accepted = false ∧ 0 < s.latTmo.toNat ∧ t.phase = .rx) ∨
       (s.latGap = 0 ∧ s.accepted = false ∧ s.latTmo = 0 ∧ t.phase = .idle ∧ t.code = .timeout))) ∨
    (s.input.head? = some .tick ∧ s.phase = .gap ∧ s.tcnt + 1 = s.latGap ∧
      ((s.accepted = true ∧ t.phase = .idle ∧ t.code = .ok) ∨
       (s.accepted = false ∧ 0 < s.latTmo.toNat ∧ t.phase = .rx) ∨
       (s.accepted = false ∧ s.latTmo = 0 ∧ t.phase = .idle ∧ t.code = .timeout))) ∨
    (s.input.head? = some .tick ∧ s.phase = .rx ∧ s.tcnt + 1 = s.latTmo ∧ t.phase = .idle ∧ t.code = .timeout) ∨
    (∃ b rest, s.input = .rxByte b :: rest ∧ s.phase = .rx ∧ t.accepted = true ∧ t.phase = .idle ∧ t.code = .ok) ∨
    (s.input.head? = some .reset ∧ t.phase = .idle)

/-- R169: from any moment of a transaction, where the events to come (log 1) hold no Reset, where those up to some point
(`es`) hold the TxAccepts that TX still waits for, and where those after it (`fs`) hold lat_gap + lat_tmo Ticks, the
transaction completes within that many Ticks after the point, whatever other events stand between: received bytes, host
accesses and stray events. -/
def Obligations.TransactionEndsWithinItsTicks : Prop :=
  ∀ (s : State) (es fs : List Event), Inv s → inTransaction s → s.input = es ++ fs → .reset ∉ es ++ fs →
    (s.phase = .tx → 20 ≤ s.txpos.toNat + es.count .txAccept) →
    s.latGap.toNat + s.latTmo.toNat ≤ fs.count .tick →
    ∃ k t, k ≤ (es ++ fs).length ∧ (fs.take (k - es.length)).count .tick ≤ s.latGap.toNat + s.latTmo.toNat ∧
      Sys2Proof.core.run k s = .next t ∧ t.busy = false ∧ t.done = true ∧ (t.code = .ok ∨ t.code = .timeout)

/-! ## Field extraction -/

/-- R184, R183, R181: EXTU on a verified frame, a legal width and divisor and a field of hex digits inside the hex
view: the value, the quotient and the remainder with value = quotient × divisor + remainder. -/
def Obligations.ExtuResult : Prop :=
  ∀ s : State,
    let o := s.latArg0.toNat % 65536
    let w := s.latArg1.toNat % 16
    let d := s.latArg1.toNat / 65536
    s.rxVerified = true → 1 ≤ w → w ≤ 8 → d ≠ 0 → o + w ≤ s.rxlen.toNat - 2 → hexAt s o w →
    ∃ q r : Nat, valueAt s o w = q * d + r ∧ r < d ∧
      exec .extu s = .next (finished { s with res0 := BitVec.ofNat 32 (valueAt s o w), res1 := BitVec.ofNat 32 q,
                                              res2 := BitVec.ofNat 32 r })

/-- R185, R183, R181: EXTS under the same conditions: the value folded over its own width, the quotient truncated
toward zero, and the remainder with the sign of the value. -/
def Obligations.ExtsResult : Prop :=
  ∀ s : State,
    let o := s.latArg0.toNat % 65536
    let w := s.latArg1.toNat % 16
    let d := s.latArg1.toNat / 65536
    let v := fieldAt s o w true
    s.rxVerified = true → 1 ≤ w → w ≤ 8 → d ≠ 0 → o + w ≤ s.rxlen.toNat - 2 → hexAt s o w →
    ∃ q r : Int, v = q * d + r ∧ |r| < d ∧ (0 ≤ v → 0 ≤ r) ∧ (v ≤ 0 → r ≤ 0) ∧
      -(2 : Int) ^ (4 * w - 1) ≤ v ∧ v < (2 : Int) ^ (4 * w - 1) ∧
      exec .exts s = .next (finished { s with res0 := BitVec.ofInt 32 v, res1 := BitVec.ofInt 32 q,
                                              res2 := BitVec.ofInt 32 r })

/-- R182: the faults of EXTU and EXTS in their order, each clearing RES0 to RES2 and recording the field's offset. -/
def Obligations.ExtFaultOrder : Prop :=
  ∀ (s : State) (i : Instr), i = .extu ∨ i = .exts →
    let o := s.latArg0.toNat % 65536
    let w := s.latArg1.toNat % 16
    let d := s.latArg1.toNat / 65536
    let faults (c : Code) : Prop := exec i s =
      .next (faulted c { s with res0 := 0, res1 := 0, res2 := 0, faultOff := BitVec.ofNat 16 o, faultPc := 0 })
    (s.rxVerified = false → faults .unverified) ∧
    (s.rxVerified = true → w = 0 ∨ 8 < w → faults .badWidth) ∧
    (s.rxVerified = true → 1 ≤ w → w ≤ 8 → d = 0 → faults .divZero) ∧
    (s.rxVerified = true → 1 ≤ w → w ≤ 8 → d ≠ 0 → s.rxlen.toNat - 2 < o + w → faults .range) ∧
    (s.rxVerified = true → 1 ≤ w → w ≤ 8 → d ≠ 0 → o + w ≤ s.rxlen.toNat - 2 → ¬hexAt s o w → faults .notHex)

/-! ## The record parser -/

/-- R204, R202, R110 (one pass of PARSE's loop, log 8): VAL reads one field of hex digits, adds ADD1, writes the next
slot with its tag, and moves the cursor and the descriptor index on. Every other slot stays. -/
def Obligations.ValWritesASlot : Prop :=
  ∀ (s : State) (wid : BitVec 4) (sgn : Bool) (dsel : BitVec 2) (add1 : Bool) (fid : Byte),
    1 ≤ wid.toNat → wid.toNat ≤ 8 → s.cur + wid.toNat ≤ s.rxlen.toNat - 2 → hexAt s s.cur wid.toNat → s.ns < 1024 →
    ∃ t, exec (.val wid sgn dsel add1 fid) s = .next t ∧
      t = { s with fval := t.fval, ftag := t.ftag, ns := s.ns + 1, cur := s.cur + wid.toNat, pc := s.pc + 1 } ∧
      (∀ i, fvalRead t i = if i = s.ns then BitVec.ofInt 32 (fieldAt s s.cur wid.toNat sgn + addOne add1) else fvalRead s i) ∧
      (∀ i, ftagRead t i = if i = s.ns then tagValue fid s.pc sgn dsel 1 0 else ftagRead s i)

/-- R205 (one pass of PARSE's loop, log 8): CNT reads one unsigned field into C0 or C1 and writes it to the next slot,
tagged with SGN = DSEL = 0. -/
def Obligations.CntReadsACount : Prop :=
  ∀ (s : State) (wid : BitVec 4) (csel : Bool) (fid : Byte),
    1 ≤ wid.toNat → wid.toNat ≤ 8 → s.cur + wid.toNat ≤ s.rxlen.toNat - 2 → hexAt s s.cur wid.toNat → s.ns < 1024 →
    let v : Word := BitVec.ofNat 32 (valueAt s s.cur wid.toNat)
    ∃ t, exec (.cnt wid csel fid) s = .next t ∧
      t = { s with fval := t.fval, ftag := t.ftag, ns := s.ns + 1, cur := s.cur + wid.toNat, pc := s.pc + 1,
                   c0 := if csel then s.c0 else v, c1 := if csel then v else s.c1 } ∧
      (∀ i, fvalRead t i = if i = s.ns then v else fvalRead s i) ∧
      (∀ i, ftagRead t i = if i = s.ns then tagValue fid s.pc false 0 2 0 else ftagRead s i)

/-- R206 (one pass of PARSE's loop, log 8): REP reads C[CSEL] fields of equal width in order, element 0 at the lowest
offset, and writes one slot each; a count of 0 consumes nothing and writes no slot. -/
def Obligations.RepReadsARun : Prop :=
  ∀ (s : State) (wid : BitVec 4) (sgn : Bool) (dsel : BitVec 2) (add1 csel : Bool) (fid : Byte),
    let n := (if csel then s.c1 else s.c0).toNat
    1 ≤ wid.toNat → wid.toNat ≤ 8 → (n ≠ 0 → s.cur + n * wid.toNat ≤ s.rxlen.toNat - 2) →
    hexAt s s.cur (n * wid.toNat) → s.ns + n ≤ 1024 →
    ∃ t, exec (.rep wid sgn dsel add1 csel fid) s = .next t ∧
      t = { s with fval := t.fval, ftag := t.ftag, ns := s.ns + n, cur := s.cur + n * wid.toNat, pc := s.pc + 1 } ∧
      (∀ e, e < n → fvalRead t (s.ns + e) =
          BitVec.ofInt 32 (fieldAt s (s.cur + e * wid.toNat) wid.toNat sgn + addOne add1) ∧
        ftagRead t (s.ns + e) = tagValue fid s.pc sgn dsel 3 e) ∧
      (∀ i, i < s.ns ∨ s.ns + n ≤ i → fvalRead t i = fvalRead s i ∧ ftagRead t i = ftagRead s i)

/-- R207 (one pass of PARSE's loop, log 8): OPQ writes a slot with the span's start and moves the cursor over the
span, whatever its digits are. -/
def Obligations.OpqSkipsASpan : Prop :=
  ∀ (s : State) (len : BitVec 12) (fid : Byte), s.cur + len.toNat ≤ s.rxlen.toNat - 2 → s.ns < 1024 →
    ∃ t, exec (.opq len fid) s = .next t ∧
      t = { s with fval := t.fval, ftag := t.ftag, ns := s.ns + 1, cur := s.cur + len.toNat, pc := s.pc + 1 } ∧
      (∀ i, fvalRead t i = if i = s.ns then BitVec.ofNat 32 s.cur else fvalRead s i) ∧
      (∀ i, ftagRead t i = if i = s.ns then tagValue fid s.pc false 0 4 0 else ftagRead s i)

/-- R203, R210, R211 (one pass of PARSE's loop, log 8): END completes the PARSE OK: NEXT is the cursor, NSLOT, CNT0
and CNT1 take the interpreter's counts, and LENWARN is set exactly when a nominal length was given and differs from
the length consumed. The interpreter's own registers are 0 after it (log 13). -/
def Obligations.EndFinishesTheRecord : Prop :=
  ∀ s : State,
    let start := s.latArg0.toNat % 65536
    let nom := s.latArg1.toNat % 65536
    exec .endRec s = .next (finished
      { s with nextOff := BitVec.ofNat 32 s.cur, nslot := BitVec.ofNat 16 s.ns, cnt0 := s.c0, cnt1 := s.c1,
               lenWarn := decide (nom ≠ 0 ∧ (s.cur : Int) - start ≠ nom), pc := 0, cur := 0, ns := 0 })

/-- R208, R201, R212: the reserved kinds fault BAD_DESC at the cursor, write no slot and do not move on. That such a
descriptor has a meaning of its own, one pass of PARSE's loop, is the model's choice (log 8, DESIGN CHOICE), and so is
that the interpreter's registers are 0 after it (log 13, DESIGN CHOICE). -/
def Obligations.ReservedKindsFault : Prop :=
  (∀ s : State, exec .badDesc5 s = .next (parseFaulted .badDesc s.cur s)) ∧
  (∀ (s : State) (kind : BitVec 3), exec (.badDesc67 kind) s = .next (parseFaulted .badDesc s.cur s)) ∧
  (∀ (w : Word) (s : State), 5 ≤ (w.toNat / 256) % 8 → exec (decodeDesc w) s = .next (parseFaulted .badDesc s.cur s))

/-- R204 to R207, R202, R234 (one pass of PARSE's loop, log 8): where VAL, CNT, REP and OPQ trap, in the order
BAD_WIDTH, RANGE, NOTHEX, SLOT_OVF: PARSE completes with the fault at the cursor, and CNT has written its count
register before SLOT_OVF. A REP may fault at any element k of its run: at that element's start, with the slots of the
elements before it kept and counted. An OPQ with LEN = 0 at a cursor past HXLEN faults RANGE by the model's choice
(log 20, DESIGN CHOICE), and the interpreter's registers are 0 after a fault (log 13, DESIGN CHOICE). -/
def Obligations.DescriptorFaults : Prop :=
  ∀ (s : State) (wid : BitVec 4) (sgn : Bool) (dsel : BitVec 2) (add1 csel : Bool) (len : BitVec 12) (fid : Byte),
    let w := wid.toNat
    let n := (if csel then s.c1 else s.c0).toNat
    let fits := s.cur + w ≤ s.rxlen.toNat - 2
    let field (i : Instr) : Prop := i = .val wid sgn dsel add1 fid ∨ i = .cnt wid csel fid ∨
      (i = .rep wid sgn dsel add1 csel fid ∧ n ≠ 0)
    (∀ i, field i ∨ i = .rep wid sgn dsel add1 csel fid → w = 0 ∨ 8 < w →
      exec i s = .next (parseFaulted .badWidth s.cur s)) ∧
    (∀ i, field i → 1 ≤ w → w ≤ 8 → ¬fits → exec i s = .next (parseFaulted .range s.cur s)) ∧
    (∀ i, field i → 1 ≤ w → w ≤ 8 → fits → ¬hexAt s s.cur w → exec i s = .next (parseFaulted .notHex s.cur s)) ∧
    (∀ i, field i → i ≠ .cnt wid csel fid → 1 ≤ w → w ≤ 8 → fits → hexAt s s.cur w → 1024 ≤ s.ns →
      exec i s = .next (parseFaulted .slotOvf s.cur s)) ∧
    (1 ≤ w → w ≤ 8 → fits → hexAt s s.cur w → 1024 ≤ s.ns → exec (.cnt wid csel fid) s = .next (parseFaulted .slotOvf s.cur
      { s with c0 := if csel then s.c0 else BitVec.ofNat 32 (valueAt s s.cur w),
               c1 := if csel then BitVec.ofNat 32 (valueAt s s.cur w) else s.c1 })) ∧
    (∀ k, k < n → 1 ≤ w → w ≤ 8 → (k ≠ 0 → s.cur + k * w ≤ s.rxlen.toNat - 2) → hexAt s s.cur (k * w) →
      s.ns + k ≤ 1024 →
      let o := s.cur + k * w
      ∀ c : Code,
        (c = .range ∧ s.rxlen.toNat - 2 < o + w) ∨ (c = .notHex ∧ o + w ≤ s.rxlen.toNat - 2 ∧ ¬hexAt s o w) ∨
          (c = .slotOvf ∧ o + w ≤ s.rxlen.toNat - 2 ∧ hexAt s o w ∧ s.ns + k = 1024) →
        ∃ u : State, exec (.rep wid sgn dsel add1 csel fid) s = .next (parseFaulted c o u) ∧
          u = { s with fval := u.fval, ftag := u.ftag, ns := s.ns + k, cur := o } ∧
          (∀ e, e < k → fvalRead u (s.ns + e) = BitVec.ofInt 32 (fieldAt s (s.cur + e * w) w sgn + addOne add1) ∧
            ftagRead u (s.ns + e) = tagValue fid s.pc sgn dsel 3 e) ∧
          (∀ i, i < s.ns ∨ s.ns + k ≤ i → fvalRead u i = fvalRead s i ∧ ftagRead u i = ftagRead s i)) ∧
    (s.rxlen.toNat - 2 < s.cur + len.toNat → exec (.opq len fid) s = .next (parseFaulted .range s.cur s)) ∧
    (s.cur + len.toNat ≤ s.rxlen.toNat - 2 → 1024 ≤ s.ns → exec (.opq len fid) s = .next (parseFaulted .slotOvf s.cur s))

/-- R201, R66: PARSE on an unverified frame faults UNVERIFIED at START with no slot written. The interpreter's registers
are 0 after it (log 13). -/
def Obligations.ParseNeedsAVerifiedFrame : Prop :=
  ∀ (s : State) (didx : BitVec 7), s.rxVerified = false →
    exec (.parse didx) s = .next (parseFaulted .unverified (s.latArg0.toNat % 65536)
      { s with c0 := 0, c1 := 0, ns := 0, cur := s.latArg0.toNat % 65536, pc := didx.toNat })

/-- R239, R77, R201, R212: every PARSE completes in its one step and changes only its result registers, the slots
below NSLOT, the count registers and the completion's flags; a fault leaves LENWARN, and success leaves RESYNC and
FAULTOFF. That the slots at and above NSLOT keep what they held is R77's wording against U9's (log 16, DEDUCED); the
interpreter's registers are 0 after it (log 13, DESIGN CHOICE). -/
def Obligations.ParseChangesOnlyItsResults : Prop :=
  ∀ (s : State) (didx : BitVec 7), ∃ t, exec (.parse didx) s = .next t ∧
    t = { s with nextOff := t.nextOff, nslot := t.nslot, cnt0 := t.cnt0, cnt1 := t.cnt1, c0 := t.cnt0, c1 := t.cnt1,
                 lenWarn := t.lenWarn, resync := t.resync, faultOff := t.faultOff, faultPc := t.faultPc,
                 fval := t.fval, ftag := t.ftag, pc := 0, cur := 0, ns := 0, code := t.code, busy := false,
                 done := true, err := s.err || decide (t.code ≠ .ok), phase := .idle } ∧
    t.nslot.toNat ≤ 1024 ∧ t.faultPc.toNat ≤ max 128 s.faultPc.toNat ∧
    (∀ i, t.nslot.toNat ≤ i → fvalRead t i = fvalRead s i ∧ ftagRead t i = ftagRead s i) ∧
    (t.code = .ok → t.resync = s.resync ∧ t.faultOff = s.faultOff ∧ t.faultPc = s.faultPc) ∧
    (t.code ≠ .ok → t.lenWarn = s.lenWarn ∧ t.resync = decide (s.latArg1.toNat % 65536 ≠ 0) ∧
      t.nextOff = BitVec.ofNat 32 (s.latArg0.toNat % 65536 + s.latArg1.toNat % 65536))

/-- R215, R210: the default header program on a verified frame with the header's digits at START: PARSE 0 completes
OK, NEXT is START + 66, 14 slots are written, and each field's slot holds the field at its relative offset. -/
def Obligations.HeaderProgramReadsTheHeader : Prop :=
  ∀ s : State,
    let start := s.latArg0.toNat % 65536
    let nom := s.latArg1.toNat % 65536
    s.rxVerified = true → (∀ i, i < 15 → layoutRead s i = headerProgram.getD i 0) →
    start + 66 ≤ s.rxlen.toNat - 2 → hexAt s start 44 → hexAt s (start + 62) 4 →
    ∃ t, exec (.parse 0) s = .next t ∧ t.code = .ok ∧ t.nextOff = BitVec.ofNat 32 (start + 66) ∧ t.nslot = 14 ∧
      t.cnt0 = 0 ∧ t.cnt1 = 0 ∧ t.lenWarn = decide (nom ≠ 0 ∧ nom ≠ 66) ∧
      (∀ k, k < 11 → fvalRead t k = BitVec.ofInt 32 (fieldAt s (start + 4 * k) 4
        (decide (k = 1 ∨ k = 5 ∨ k = 6 ∨ k = 9 ∨ k = 10)))) ∧
      fvalRead t 11 = BitVec.ofNat 32 (start + 44) ∧
      fvalRead t 12 = BitVec.ofNat 32 (valueAt s (start + 62) 2) ∧
      fvalRead t 13 = BitVec.ofNat 32 (valueAt s (start + 64) 2)

/-- R217, R219, R211: the default battery program on a verified frame with a battery block's digits at START: PARSE 32
completes OK, consumes 132 + 4 C0 + 4 C1 digits, writes 34 + C0 + C1 slots, slot 0 holding the battery number plus
one, and warns exactly when a nominal length was given and differs. -/
def Obligations.BatteryProgramConsumesTheBlock : Prop :=
  ∀ s : State,
    let start := s.latArg0.toNat % 65536
    let nom := s.latArg1.toNat % 65536
    let cells := valueAt s (start + 10) 2
    let temps := valueAt s (start + 24 + 4 * cells) 2
    let total := 132 + 4 * cells + 4 * temps
    s.rxVerified = true → (∀ i, i < 37 → layoutRead s (32 + i) = batteryProgram.getD i 0) →
    start + total ≤ s.rxlen.toNat - 2 → hexAt s start (total - 8) →
    ∃ t, exec (.parse 32) s = .next t ∧ t.code = .ok ∧ t.nextOff = BitVec.ofNat 32 (start + total) ∧
      t.nslot = BitVec.ofNat 16 (34 + cells + temps) ∧ t.cnt0 = BitVec.ofNat 32 cells ∧
      t.cnt1 = BitVec.ofNat 32 temps ∧ t.lenWarn = decide (nom ≠ 0 ∧ nom ≠ total) ∧
      fvalRead t 0 = BitVec.ofNat 32 (valueAt s start 2 + 1) ∧
      (∀ e, e < cells → fvalRead t (4 + e) = BitVec.ofNat 32 (valueAt s (start + 12 + 4 * e) 4))

/-! ## Whole-machine promises -/

/-- The invariant of Sys2Proof/Safety.lean holds right after Reset (R260), for every legal choice of the parameters (R6),
every number of draws made before it (log 3) and any events to come (log 1); State.reset is the case of the defaults.
The invariant's zeros of the interpreter's registers (log 13) and its form of the memories (log 19) are the model's. -/
def Obligations.InvAtReset : Prop :=
  (∀ es : List Event, Inv { State.reset with input := es }) ∧
  ∀ (p : Config.Params) (draw : Nat) (es : List Event), p.valid = true → Inv { State.resetWith p draw with input := es }

/-- Every step keeps the invariant: legal parameters, canonical memories, BUSY with PHASE, the counters below their
compare values, the register ranges, and no RXVERIFIED on a frame that fails the checksum (R25, R43 to R49, R66, R136,
R230 to R232, R246). The parameters' place (log 7), the zeros of the interpreter's registers (log 13) and the form of
the memories (log 19) are the model's choice. -/
def Obligations.StepKeepsInv : Prop := ∀ s t : State, Inv s → step s = .next t → Inv t

/-- R136: RXVERIFIED rises only by the Retire of a VERIFY or GATECHK or by a transaction completing OK, and then the
frame in RXBUF passes the checksum check. -/
def Obligations.RxverifiedNeedsAChecksumPass : Prop :=
  ∀ s t : State, Inv s → step s = .next t → s.rxVerified = false → t.rxVerified = true →
    frameGood t ∧ t.code = .ok ∧ s.busy = true ∧ t.busy = false ∧
    ((s.phase = .run ∧ (cmdOp s.latCmd = 3 ∨ cmdOp s.latCmd = 4)) ∨ (inTransaction s ∧ t.accepted = true))

/-- R241: the interrupt output is CTRL.IRQEN AND STATUS.DONE, and every completion, with any code, raises it where it
is enabled: a step that ends BUSY is a completion or a Reset. -/
def Obligations.CompletionRaisesIrq : Prop :=
  (∀ s : State, irq s = (s.irqen && s.done)) ∧
  ∀ s t : State, Inv s → step s = .next t → s.busy = true → t.busy = false →
    s.input.head? = some .reset ∨ (t.done = true ∧ t.irqen = s.irqen ∧ irq t = s.irqen ∧
      (t.err = true ↔ s.err = true ∨ t.code ≠ .ok))
end

