-- ==== Sys2Proof/Laws/Memory.lean ====
section
/-! SUPPORT. The laws of cell lists and of the five memories: a read after a write, the canonical form. -/

namespace Sys2Proof.Machine

variable {α : Type}

theorem Memory.lookup_insert (m : List (Nat × α)) (a b : Nat) (v : α) :
    Memory.lookup (Memory.insert m a v) b = if b = a then some v else Memory.lookup m b := by
  induction m with
  | nil => simp [Memory.insert, Memory.lookup, eq_comm]
  | cons c rest ih =>
    obtain ⟨k, w⟩ := c
    rcases Nat.lt_trichotomy a k with h1 | h1 | h1
    · simp [Memory.insert, h1, Memory.lookup, eq_comm]
    · subst h1
      by_cases h : a = b
      · simp [Memory.insert, Memory.lookup, h]
      · simp [Memory.insert, Memory.lookup, h, Ne.symm h]
    · have h2 : ¬a < k := by omega
      have h3 : ¬a = k := by omega
      by_cases h : b = a
      · subst h; simp [Memory.insert, Memory.lookup, h2, h3, Ne.symm h3, ih]
      · simp [Memory.insert, Memory.lookup, h2, h3, h, ih]

theorem Memory.lookup_erase (m : List (Nat × α)) (a b : Nat) :
    Memory.lookup (Memory.erase m a) b = if b = a then none else Memory.lookup m b := by
  induction m with
  | nil => simp [Memory.erase, Memory.lookup]
  | cons c rest ih =>
    obtain ⟨k, w⟩ := c
    rw [Memory.erase] at ih ⊢
    by_cases hk : k = a
    · subst hk
      by_cases h : b = k
      · subst h; simpa using ih
      · have : ¬k = b := fun e => h e.symm
        simpa [Memory.lookup, h, this] using ih
    · by_cases h : b = a
      · subst h; simpa [Memory.lookup, hk] using ih
      · simp [Memory.lookup, hk, h] at ih ⊢
        simp [ih]

theorem Memory.mem_insert {m : List (Nat × α)} {a : Nat} {v : α} {c : Nat × α}
    (h : c ∈ Memory.insert m a v) : c = (a, v) ∨ c ∈ m := by
  induction m with
  | nil => simpa [Memory.insert] using h
  | cons d rest ih =>
    obtain ⟨k, w⟩ := d
    simp only [Memory.insert] at h
    split_ifs at h with h1 h2
    · simpa using h
    · simp at h ⊢; tauto
    · simp at h ⊢
      rcases h with h | h
      · tauto
      · rcases ih h with h | h <;> tauto

theorem Memory.wf_insert {bound : Nat} {m : List (Nat × α)} {a : Nat} {v : α} (ha : a < bound)
    (h : Memory.wf bound m) : Memory.wf bound (Memory.insert m a v) := by
  refine ⟨?_, fun c hc => ?_⟩
  · have hp := h.1
    clear h ha
    induction m with
    | nil => simp [Memory.insert]
    | cons d rest ih =>
      obtain ⟨k, w⟩ := d
      rw [List.pairwise_cons] at hp
      simp only [Memory.insert]
      split_ifs with h1 h2
      · refine List.pairwise_cons.2 ⟨fun c hc => ?_, List.pairwise_cons.2 hp⟩
        rcases List.mem_cons.1 hc with rfl | hc
        · exact h1
        · exact Nat.lt_trans h1 (hp.1 c hc)
      · subst h2
        exact List.pairwise_cons.2 ⟨fun c hc => hp.1 c hc, hp.2⟩
      · refine List.pairwise_cons.2 ⟨fun c hc => ?_, ih hp.2⟩
        rcases Memory.mem_insert hc with rfl | hc
        · show k < a; omega
        · exact hp.1 c hc
  · rcases Memory.mem_insert hc with rfl | hc
    · exact ha
    · exact h.2 c hc

theorem Memory.wf_erase {bound : Nat} {m : List (Nat × α)} (a : Nat) (h : Memory.wf bound m) :
    Memory.wf bound (Memory.erase m a) :=
  ⟨h.1.filter _, fun c hc => h.2 c (List.mem_of_mem_filter hc)⟩

theorem Memory.lookup_cellsFrom (bs : List Byte) (i j : Nat) :
    Memory.lookup (cellsFrom i bs) j = if i ≤ j then bs[j - i]? else none := by
  induction bs generalizing i with
  | nil => simp [cellsFrom, Memory.lookup]
  | cons b rest ih =>
    simp only [cellsFrom, Memory.lookup, ih]
    by_cases h : i = j
    · subst h; simp
    · by_cases hij : i ≤ j
      · have : j - i = (j - (i + 1)) + 1 := by omega
        simp [h, hij, this, show i + 1 ≤ j by omega]
      · simp [h, hij, show ¬i + 1 ≤ j by omega]

theorem Memory.cellsFrom_bounds {bs : List Byte} {i : Nat} {c : Host.Cell} (h : c ∈ cellsFrom i bs) :
    i ≤ c.1 ∧ c.1 < i + bs.length := by
  induction bs generalizing i with
  | nil => simp [cellsFrom] at h
  | cons b rest ih =>
    rcases List.mem_cons.1 h with rfl | h
    · simp
    · have := ih h
      simp only [List.length_cons]
      omega

theorem Memory.wf_cellsFrom {bound : Nat} {bs : List Byte} (h : bs.length ≤ bound) :
    Memory.wf bound (cellsFrom 0 bs) := by
  refine ⟨?_, fun c hc => ?_⟩
  · clear h
    generalize 0 = i
    induction bs generalizing i with
    | nil => simp [cellsFrom]
    | cons b rest ih =>
      refine List.pairwise_cons.2 ⟨fun c hc => ?_, ih (i + 1)⟩
      have := Memory.cellsFrom_bounds hc
      show i < c.1
      omega
  · have := Memory.cellsFrom_bounds hc
    omega

/-! ## Reads after writes -/

theorem rxRead_rxWrite (i j : Nat) (b : Byte) (s : State) :
    rxRead (rxWrite i b s) j = if j = i then b else rxRead s j := by
  simp only [rxRead, rxWrite, Memory.lookup_insert]
  split_ifs <;> rfl

theorem layoutRead_layoutWrite (i j : Nat) (w : Word) (s : State) :
    layoutRead (layoutWrite i w s) j = if j = i then w else layoutRead s j := by
  simp only [layoutRead, layoutWrite]
  split_ifs with h1 h2 h2
  · subst h2; simp [Memory.lookup_erase, h1]
  · simp [Memory.lookup_erase, h2]
  · subst h2; simp [Memory.lookup_insert]
  · simp [Memory.lookup_insert, h2]

theorem rxFrame_getElem? (s : State) (n i : Nat) : (rxFrame s n)[i]? = if i < n then some (rxRead s i) else none := by
  by_cases h : i < n <;> simp [rxFrame, h]

@[simp] theorem rxFrame_length (s : State) (n : Nat) : (rxFrame s n).length = n := by simp [rxFrame]

/-- The entries below RXLEN survive the draw of the others. -/
theorem rxRead_redrawRx {s : State} {i : Nat} (h : i < s.rxlen.toNat) : rxRead (redrawRx s) i = rxRead s i := by
  have e : Memory.lookup (redrawRx s).rxbuf i = some (rxRead s i) := by
    rw [redrawRx, Memory.lookup_cellsFrom]
    simpa [h] using (rxFrame_getElem? s s.rxlen.toNat i).trans (if_pos h)
  rw [rxRead, e, Option.getD_some]

theorem rxFrame_congr {s t : State} {n : Nat} (h : ∀ i, i < n → rxRead t i = rxRead s i) : rxFrame t n = rxFrame s n :=
  List.map_congr_left fun i hi => h i (List.mem_range.1 hi)

theorem rxFrame_redrawRx (s : State) : rxFrame (redrawRx s) s.rxlen.toNat = rxFrame s s.rxlen.toNat :=
  rxFrame_congr fun _ h => rxRead_redrawRx h

/-! ## The canonical form -/

theorem memWf_rxWrite {s : State} {i : Nat} (b : Byte) (hi : i < s.params.rxbufBytes) (h : s.memWf) :
    (rxWrite i b s).memWf :=
  ⟨h.1, Memory.wf_insert hi h.2.1, h.2.2⟩

theorem memWf_layoutWrite {s : State} {i : Nat} (w : Word) (hi : i < Config.layoutWords) (h : s.memWf) :
    (layoutWrite i w s).memWf := by
  obtain ⟨h1, h2, h3, h4, h5⟩ := h
  by_cases hw : w = defaultLayout i
  · have e : layoutWrite i w s = { s with layout := Memory.erase s.layout i } := by simp [layoutWrite, hw]
    rw [e]
    exact ⟨h1, h2, Memory.wf_erase i h3, fun c hc => h4 c (List.mem_of_mem_filter hc), h5⟩
  · have e : layoutWrite i w s = { s with layout := Memory.insert s.layout i w } := by simp [layoutWrite, hw]
    rw [e]
    refine ⟨h1, h2, Memory.wf_insert hi h3, fun c hc => ?_, h5⟩
    rcases Memory.mem_insert hc with rfl | hc
    · exact hw
    · exact h4 c hc

theorem memWf_redrawTx {s : State} (h : s.memWf) : (redrawTx s).memWf :=
  ⟨⟨List.Pairwise.nil, fun _ hc => absurd hc List.not_mem_nil⟩, h.2⟩

theorem memWf_redrawRx {s : State} (hr : s.rxlen.toNat ≤ s.params.rxbufBytes) (h : s.memWf) : (redrawRx s).memWf :=
  ⟨h.1, Memory.wf_cellsFrom (by rw [rxFrame_length]; exact hr), h.2.2⟩

end Sys2Proof.Machine
end

