-- ==== Sys2Proof/Laws/Checksum.lean ====
section
/-! SUPPORT. Laws of the hex digits, of the checksum and of frame verification. -/

namespace Sys2Proof.Machine

/-! ## Digits -/

theorem digit_lt {b : Byte} {d : Nat} (h : digit b = some d) : d < 16 := by
  unfold digit at h
  dsimp only at h
  split_ifs at h <;> simp only [Option.some.injEq] at h <;> omega

/-- `hexChar` spells a digit in upper case. -/
theorem hexChar_eq_upperHex (d : BitVec 4) : hexChar d = upperHex d.toNat := by
  revert d; decide

theorem digit_hexChar (d : BitVec 4) : digit (hexChar d) = some d.toNat := by
  revert d; decide

/-- The digits of a sequence, read on from `acc`: none where one is invalid, else the positional value. -/
theorem hexFrom_append (acc : Nat) (xs ys : List Byte) :
    hexFrom acc (xs ++ ys) = (hexFrom acc xs).bind fun v => hexFrom v ys := by
  induction xs generalizing acc with
  | nil => rfl
  | cons b rest ih =>
    simp only [List.cons_append, hexFrom]
    cases digit b with
    | none => rfl
    | some d => exact ih _

/-- Four digits are a number below 65536. -/
theorem hexValue_four (b0 b1 b2 b3 : Byte) : hexValue [b0, b1, b2, b3] =
    (digit b0).bind fun d0 => (digit b1).bind fun d1 => (digit b2).bind fun d2 => (digit b3).map fun d3 =>
      d0 * 4096 + d1 * 256 + d2 * 16 + d3 := by
  simp only [hexValue, hexFrom]
  cases digit b0 with
  | none => rfl
  | some d0 =>
    cases digit b1 with
    | none => rfl
    | some d1 =>
      cases digit b2 with
      | none => rfl
      | some d2 =>
        cases digit b3 with
        | none => rfl
        | some d3 => simp only [Option.bind_some, Option.map_some, Option.some.injEq]; omega

/-- What `hex4` spells reads back as the number (R93, R64). -/
theorem hexValue_hex4 (n : Half) : hexValue (hex4 n) = some n.toNat := by
  rw [hex4, hexValue_four]
  simp only [digit_hexChar, Option.bind_some, Option.map_some, Option.some.injEq, BitVec.extractLsb'_toNat,
    Nat.shiftRight_eq_div_pow]
  have := n.isLt
  omega

/-! ## The checksum -/

theorem byteSum_toNat (body : List Byte) : (byteSum body).toNat = (body.map BitVec.toNat).sum % 65536 := by
  induction body with
  | nil => rfl
  | cons b rest ih =>
    have := b.isLt
    simp only [byteSum, BitVec.toNat_add, BitVec.toNat_setWidth, ih, List.map_cons, List.sum_cons]
    omega

/-- Complement plus one is negation mod 65536 (R130). -/
theorem negate16_toNat (x : Half) : (negate16 x).toNat = (65536 - x.toNat) % 65536 := by
  have h : x ^^^ 0xFFFF = ~~~x := by
    rw [show (0xFFFF : Half) = BitVec.allOnes 16 by decide, BitVec.xor_allOnes]
  have := x.isLt
  rw [negate16, h]
  simp only [BitVec.toNat_add, BitVec.toNat_not]
  simp
  omega

theorem csum_toNat (body : List Byte) : (csum body).toNat = checksumOf body := by
  rw [csum, negate16_toNat, byteSum_toNat, checksumOf]

theorem checksumOf_lt (body : List Byte) : checksumOf body < 65536 := Nat.mod_lt _ (by decide)

/-- The host engine's sum after one more byte (R131). -/
theorem byteSum_append (xs : List Byte) (b : Byte) : byteSum (xs ++ [b]) = byteSum xs + b.setWidth 16 := by
  induction xs with
  | nil => simp [byteSum]
  | cons x rest ih => simp only [List.cons_append, byteSum, ih, BitVec.add_assoc]

/-! ## Verification -/

theorem rxFrame_drop_take (s : State) (n i k : Nat) (h : i + k ≤ n) :
    ((rxFrame s n).drop i).take k = (List.range k).map fun j => rxRead s (i + j) := by
  apply List.ext_getElem?
  intro j
  rw [List.getElem?_take, List.getElem?_drop, rxFrame_getElem?]
  by_cases hj : j < k
  · simp [hj, show i + j < n by omega]
  · simp [hj]

/-- A frame of fewer than 6 bytes never verifies (R133). -/
theorem verifyFrame_short {f : List Byte} (h : f.length < 6) :
    verifyFrame f = { good := false, claim := 0xFFFFFFFF, comp := 0 } := by
  simp only [verifyFrame, if_pos h]

/-- The verification of a longer frame (R133): `body ++ claim` between its first and its last byte. -/
theorem verifyFrame_long (a z : Byte) (body : List Byte) (b0 b1 b2 b3 : Byte) :
    verifyFrame ([a] ++ body ++ [b0, b1, b2, b3] ++ [z]) =
      match hexValue [b0, b1, b2, b3] with
      | none => { good := false, claim := 0xFFFFFFFF, comp := (csum body).setWidth 32 }
      | some c => { good := decide (c = (csum body).toNat), claim := BitVec.ofNat 32 c,
                    comp := (csum body).setWidth 32 } := by
  have hl : ([a] ++ body ++ [b0, b1, b2, b3] ++ [z]).length = body.length + 6 := by simp
  have h1 : (([a] ++ body ++ [b0, b1, b2, b3] ++ [z]).drop 1).take (body.length + 6 - 6) = body := by simp
  have h2 : (([a] ++ body ++ [b0, b1, b2, b3] ++ [z]).drop (body.length + 6 - 5)).take 4 = [b0, b1, b2, b3] := by
    have e : [a] ++ body ++ [b0, b1, b2, b3] ++ [z] = ([a] ++ body) ++ ([b0, b1, b2, b3] ++ [z]) := by simp
    rw [e, List.drop_append_of_le_length (by simp), List.drop_of_length_le (by simp)]
    rfl
  simp only [verifyFrame, hl]
  rw [if_neg (by omega), h1, h2]
  all_goals cases hexValue [b0, b1, b2, b3] <;> rfl

/-- A built request verifies (R135). -/
theorem verifyFrame_requestFrame (adr code : Byte) :
    verifyFrame (requestFrame adr code) =
      { good := true, claim := (csum (requestBody adr code)).setWidth 32,
        comp := (csum (requestBody adr code)).setWidth 32 } := by
  have := verifyFrame_long soi eoi (requestBody adr code)
  simp only [requestFrame, hex4] at *
  rw [this, show ∀ n : Half, [hexChar (n.extractLsb' 12 4), hexChar (n.extractLsb' 8 4), hexChar (n.extractLsb' 4 4),
    hexChar (n.extractLsb' 0 4)] = hex4 n from fun _ => rfl, hexValue_hex4]
  simp [BitVec.ofNat_toNat]

end Sys2Proof.Machine
end

