-- ==== Sys2Proof/Laws/Events.lean ====
section
/-! SUPPORT. Laws of host offsets and of the step: what an offset selects, which event a step takes, and what a host
access does, by the kind of its offset. -/

namespace Sys2Proof.Machine

/-! ## Offsets -/

/-- Clearing the two low bits of an offset rounds it down to a multiple of 4. -/
theorem wordOffset_toNat (a : Half) : (a &&& 0xFFFC).toNat = 4 * (a.toNat / 4) := by
  have h : a &&& (0xFFFC : Half) = (a >>> 2) <<< 2 := by
    apply BitVec.eq_of_getLsbD_eq
    intro i hi
    interval_cases i <;> simp
  rw [h, BitVec.toNat_shiftLeft, BitVec.toNat_ushiftRight, Nat.shiftLeft_eq, Nat.shiftRight_eq_div_pow]
  have := a.isLt
  omega

theorem toNat_div_of_wordOffset {a b : Half} (h : a &&& 0xFFFC = b) : a.toNat / 4 = b.toNat / 4 := by
  have := wordOffset_toNat a
  rw [h] at this
  omega

theorem toNat_div_congr {a b : Half} (h : a &&& 0xFFFC = b &&& 0xFFFC) : a.toNat / 4 = b.toNat / 4 := by
  have h1 := wordOffset_toNat a
  have h2 := wordOffset_toNat b
  rw [h] at h1
  omega

/-- Two offsets of one word select the same target. -/
theorem target_congr (p : Config.Params) {a b : Half} (h : a.toNat / 4 = b.toNat / 4) : target p a = target p b := by
  simp only [target, h]

theorem target_reg {p : Config.Params} {a : Half} {k : Nat} (h : a.toNat / 4 = k) (hk : k < 0x400) :
    target p a = regAt k := by
  simp only [target, h, if_pos hk]

theorem target_txbuf {p : Config.Params} {a : Half} {i : Nat} (h : a.toNat / 4 = 0x400 + i) (hi : i < 20) :
    target p a = .txbuf i := by
  simp only [target, h]
  rw [if_neg (by omega), if_pos (by simp only [Config.txbufBytes]; omega)]
  simp

theorem target_rxbuf {p : Config.Params} {a : Half} {i : Nat} (h : a.toNat / 4 = 0x1000 + i) (hi : i < p.rxbufBytes) :
    target p a = .rxbuf i := by
  simp only [target, h]
  rw [if_neg (by omega), if_neg (by simp only [Config.txbufBytes]; omega), if_pos (by omega)]
  simp

theorem target_layout {p : Config.Params} {a : Half} {i : Nat} (hp : p.valid = true) (h : a.toNat / 4 = 0x2000 + i)
    (hi : i < 128) : target p a = .layout i := by
  simp only [Config.Params.valid, decide_eq_true_eq] at hp
  simp only [target, h]
  rw [if_neg (by omega), if_neg (by simp only [Config.txbufBytes]; omega), if_neg (by omega),
    if_pos (by simp only [Config.layoutWords]; omega)]
  simp

theorem target_fval {p : Config.Params} {a : Half} {i : Nat} (hp : p.valid = true) (h : a.toNat / 4 = 0x2800 + i)
    (hi : i < 1024) : target p a = .fval i := by
  simp only [Config.Params.valid, decide_eq_true_eq] at hp
  simp only [target, h]
  rw [if_neg (by omega), if_neg (by simp only [Config.txbufBytes]; omega), if_neg (by omega),
    if_neg (by simp only [Config.layoutWords]; omega), if_pos (by simp only [Config.fieldSlots]; omega)]
  simp

theorem target_ftag {p : Config.Params} {a : Half} {i : Nat} (hp : p.valid = true) (h : a.toNat / 4 = 0x2C00 + i)
    (hi : i < 1024) : target p a = .ftag i := by
  simp only [Config.Params.valid, decide_eq_true_eq] at hp
  simp only [target, h]
  rw [if_neg (by omega), if_neg (by simp only [Config.txbufBytes]; omega), if_neg (by omega),
    if_neg (by simp only [Config.layoutWords]; omega), if_neg (by simp only [Config.fieldSlots]; omega),
    if_pos (by simp only [Config.fieldSlots]; omega)]
  simp

/-- Every offset selects a register, an entry of a window, or nothing, by its word index. -/
theorem target_cases {p : Config.Params} (hp : p.valid = true) (a : Half) :
    let k := a.toNat / 4
    (k < 0x400 ∧ target p a = regAt k) ∨ (∃ i, i < 20 ∧ k = 0x400 + i ∧ target p a = .txbuf i) ∨
    (∃ i, i < p.rxbufBytes ∧ k = 0x1000 + i ∧ target p a = .rxbuf i) ∨
    (∃ i, i < 128 ∧ k = 0x2000 + i ∧ target p a = .layout i) ∨
    (∃ i, i < 1024 ∧ k = 0x2800 + i ∧ target p a = .fval i) ∨
    (∃ i, i < 1024 ∧ k = 0x2C00 + i ∧ target p a = .ftag i) ∨
    (target p a = .unmapped ∧ 0x414 ≤ k ∧ ¬(0x1000 ≤ k ∧ k < 0x1000 + p.rxbufBytes) ∧
      ¬(0x2000 ≤ k ∧ k < 0x2080) ∧ ¬(0x2800 ≤ k ∧ k < 0x3000)) := by
  intro k
  by_cases h1 : k < 0x400
  · exact .inl ⟨h1, target_reg rfl h1⟩
  by_cases h2 : k < 0x414
  · exact .inr (.inl ⟨k - 0x400, by omega, by omega, target_txbuf (by omega) (by omega)⟩)
  by_cases h3 : 0x1000 ≤ k ∧ k < 0x1000 + p.rxbufBytes
  · exact .inr (.inr (.inl ⟨k - 0x1000, by omega, by omega, target_rxbuf (by omega) (by omega)⟩))
  by_cases h4 : 0x2000 ≤ k ∧ k < 0x2080
  · exact .inr (.inr (.inr (.inl ⟨k - 0x2000, by omega, by omega, target_layout hp (by omega) (by omega)⟩)))
  by_cases h5 : 0x2800 ≤ k ∧ k < 0x2C00
  · exact .inr (.inr (.inr (.inr (.inl ⟨k - 0x2800, by omega, by omega, target_fval hp (by omega) (by omega)⟩))))
  by_cases h6 : 0x2C00 ≤ k ∧ k < 0x3000
  · exact .inr (.inr (.inr (.inr (.inr (.inl ⟨k - 0x2C00, by omega, by omega, target_ftag hp (by omega) (by omega)⟩)))))
  refine .inr (.inr (.inr (.inr (.inr (.inr ⟨?_, by omega, h3, h4, by omega⟩)))))
  show target p a = .unmapped
  unfold target
  show (if k < 0x400 then _ else _) = _
  rw [if_neg h1, if_neg (by simp only [Config.txbufBytes]; omega), if_neg h3,
    if_neg (by simp only [Config.layoutWords]; omega), if_neg (by simp only [Config.fieldSlots]; omega),
    if_neg (by simp only [Config.fieldSlots]; omega)]

/-! ## The event a step takes -/

theorem step_cons {s : State} {e : Event} {rest : List Event} (hp : s.params.valid = true) (hi : s.input = e :: rest) :
    step s = runEvent e { s with input := rest } := by
  simp only [step, if_pos hp, runNext, hi]

theorem step_nil {s : State} (hp : s.params.valid = true) (hi : s.input = []) : step s = retire s := by
  simp only [step, if_pos hp, runNext, hi]

/-- What a step can be: it takes the first event of the input, or, with none, a Retire. -/
theorem step_cases {s t : State} (h : step s = .next t) :
    s.params.valid = true ∧ ((s.input = [] ∧ retire s = .next t) ∨
      ∃ e rest, s.input = e :: rest ∧ runEvent e { s with input := rest } = .next t) := by
  unfold step at h
  split at h
  · rename_i hp
    refine ⟨hp, ?_⟩
    unfold runNext at h
    split at h
    · exact .inl ⟨‹_›, h⟩
    · exact .inr ⟨_, _, ‹_›, h⟩
  · cases h

/-- A run of one step more goes on from the state that the first step gives. -/
theorem run_succ (M : Host.Core) {s t : M.State} (k : Nat) (h : M.step s = .next t) : M.run (k + 1) s = M.run k t := by
  simp only [Host.Core.run, h]

/-! ## Host accesses by the word index of their offset -/

theorem wordOffset_eq_iff {a c : Half} (hc : c &&& 0xFFFC = c) : wordOffset a = c ↔ a.toNat / 4 = c.toNat / 4 := by
  have h1 := wordOffset_toNat a
  have h2 := wordOffset_toNat c
  rw [hc] at h2
  constructor
  · intro h; exact toNat_div_of_wordOffset h
  · intro h; apply BitVec.eq_of_toNat_eq; show (a &&& 0xFFFC).toNat = _; omega

/-- A HostWrite, by its word index: the two checksum ports, CMD, and every other offset. -/
theorem hostWriteEvent_eq (a : Half) (d : Word) (s : State) (hp : s.params.valid = true) :
    hostWriteEvent a d s =
      if a.toNat / 4 = 0x18 then exec (.csaccWrite d) s
      else if a.toNat / 4 = 0x19 then exec (.csfeedWrite d) s
      else if a.toNat / 4 = 3 then (if s.busy then .next (setBusyErr s) else issue d s)
      else .next (hostWrite (target s.params a) d s) := by
  have e1 := wordOffset_eq_iff (a := a) (c := 0x060) (by decide)
  have e2 := wordOffset_eq_iff (a := a) (c := 0x064) (by decide)
  simp only [BitVec.reduceToNat] at e1 e2
  unfold hostWriteEvent decodeHostWrite
  by_cases h1 : a.toNat / 4 = 0x18
  · rw [if_pos (e1.2 h1), if_pos h1]
  by_cases h2 : a.toNat / 4 = 0x19
  · rw [if_neg (fun h => h1 (e1.1 h)), if_pos (e2.2 h2), if_neg h1, if_pos h2]
  rw [if_neg (fun h => h1 (e1.1 h)), if_neg (fun h => h2 (e2.1 h)), if_neg h1, if_neg h2]
  by_cases h3 : a.toNat / 4 = 3
  · simp only [target_reg h3 (by decide), regAt, if_pos h3, if_true]
  · rw [if_neg h3]
    have : target s.params a ≠ .reg .cmd := by
      rcases target_cases hp a with ⟨h, e⟩ | ⟨i, _, _, e⟩ | ⟨i, _, _, e⟩ | ⟨i, _, _, e⟩ | ⟨i, _, _, e⟩ | ⟨i, _, _, e⟩ | ⟨e, _⟩
      · rw [e]; generalize a.toNat / 4 = k at h h3
        unfold regAt; split <;> simp_all
      all_goals rw [e]; simp
    simp only [this, if_false]

/-- A HostRead, by its word index: CSRES, and every other offset. -/
theorem hostReadEvent_eq (a : Half) (s : State) :
    hostReadEvent a s =
      if a.toNat / 4 = 0x1A then exec .csresRead s else .next (hostRead (target s.params a) s) := by
  have e1 := wordOffset_eq_iff (a := a) (c := 0x068) (by decide)
  simp only [BitVec.reduceToNat] at e1
  unfold hostReadEvent decodeHostRead
  by_cases h1 : a.toNat / 4 = 0x1A
  · rw [if_pos (e1.2 h1), if_pos h1]
  · rw [if_neg (fun h => h1 (e1.1 h)), if_neg h1]

/-- A step on a HostWrite, by the word index of its offset. -/
theorem step_hostWrite {s : State} {a : Half} {d : Word} {rest : List Event} (hp : s.params.valid = true)
    (hi : s.input = .hostWrite a d :: rest) :
    step s =
      if a.toNat / 4 = 0x18 then exec (.csaccWrite d) { s with input := rest }
      else if a.toNat / 4 = 0x19 then exec (.csfeedWrite d) { s with input := rest }
      else if a.toNat / 4 = 3 then
        (if s.busy then .next (setBusyErr { s with input := rest }) else issue d { s with input := rest })
      else .next (hostWrite (target s.params a) d { s with input := rest }) :=
  (step_cons hp hi).trans (hostWriteEvent_eq a d { s with input := rest } hp)

/-- A step on a HostRead, by the word index of its offset. -/
theorem step_hostRead {s : State} {a : Half} {rest : List Event} (hp : s.params.valid = true)
    (hi : s.input = .hostRead a :: rest) :
    step s =
      if a.toNat / 4 = 0x1A then exec .csresRead { s with input := rest }
      else .next (hostRead (target s.params a) { s with input := rest }) :=
  (step_cons hp hi).trans (hostReadEvent_eq a { s with input := rest })

/-- Every issue gives a next state. -/
theorem issue_next (d : Word) (s : State) : ∃ t, issue d s = .next t := by
  unfold issue
  dsimp only
  split_ifs with h
  · have : decodeCmd d = .xact := by unfold decodeCmd; rw [h]; rfl
    rw [this]
    unfold exec execXact
    dsimp only
    split_ifs <;> exact ⟨_, rfl⟩
  · exact ⟨_, rfl⟩
  · exact ⟨_, rfl⟩

end Sys2Proof.Machine
end

