-- ==== Sys2Proof/Laws/State.lean ====
section
/-! SUPPORT. What each named update of the state leaves in each field, one lemma per field, so that no proof unfolds a
record update. -/

namespace Sys2Proof.Machine

/-! ## `rxWrite` -/

@[simp] theorem rxWrite_params (i : Nat) (b : Byte) (s : State) : (rxWrite i b s).params = s.params := rfl
@[simp] theorem rxWrite_irqen (i : Nat) (b : Byte) (s : State) : (rxWrite i b s).irqen = s.irqen := rfl
@[simp] theorem rxWrite_busy (i : Nat) (b : Byte) (s : State) : (rxWrite i b s).busy = s.busy := rfl
@[simp] theorem rxWrite_done (i : Nat) (b : Byte) (s : State) : (rxWrite i b s).done = s.done := rfl
@[simp] theorem rxWrite_err (i : Nat) (b : Byte) (s : State) : (rxWrite i b s).err = s.err := rfl
@[simp] theorem rxWrite_busyErr (i : Nat) (b : Byte) (s : State) : (rxWrite i b s).busyErr = s.busyErr := rfl
@[simp] theorem rxWrite_lenWarn (i : Nat) (b : Byte) (s : State) : (rxWrite i b s).lenWarn = s.lenWarn := rfl
@[simp] theorem rxWrite_resync (i : Nat) (b : Byte) (s : State) : (rxWrite i b s).resync = s.resync := rfl
@[simp] theorem rxWrite_rxVerified (i : Nat) (b : Byte) (s : State) : (rxWrite i b s).rxVerified = s.rxVerified := rfl
@[simp] theorem rxWrite_code (i : Nat) (b : Byte) (s : State) : (rxWrite i b s).code = s.code := rfl
@[simp] theorem rxWrite_arg0 (i : Nat) (b : Byte) (s : State) : (rxWrite i b s).arg0 = s.arg0 := rfl
@[simp] theorem rxWrite_arg1 (i : Nat) (b : Byte) (s : State) : (rxWrite i b s).arg1 = s.arg1 := rfl
@[simp] theorem rxWrite_gap (i : Nat) (b : Byte) (s : State) : (rxWrite i b s).gap = s.gap := rfl
@[simp] theorem rxWrite_tmo (i : Nat) (b : Byte) (s : State) : (rxWrite i b s).tmo = s.tmo := rfl
@[simp] theorem rxWrite_minlen (i : Nat) (b : Byte) (s : State) : (rxWrite i b s).minlen = s.minlen := rfl
@[simp] theorem rxWrite_rxlen (i : Nat) (b : Byte) (s : State) : (rxWrite i b s).rxlen = s.rxlen := rfl
@[simp] theorem rxWrite_res0 (i : Nat) (b : Byte) (s : State) : (rxWrite i b s).res0 = s.res0 := rfl
@[simp] theorem rxWrite_res1 (i : Nat) (b : Byte) (s : State) : (rxWrite i b s).res1 = s.res1 := rfl
@[simp] theorem rxWrite_res2 (i : Nat) (b : Byte) (s : State) : (rxWrite i b s).res2 = s.res2 := rfl
@[simp] theorem rxWrite_nextOff (i : Nat) (b : Byte) (s : State) : (rxWrite i b s).nextOff = s.nextOff := rfl
@[simp] theorem rxWrite_faultOff (i : Nat) (b : Byte) (s : State) : (rxWrite i b s).faultOff = s.faultOff := rfl
@[simp] theorem rxWrite_faultPc (i : Nat) (b : Byte) (s : State) : (rxWrite i b s).faultPc = s.faultPc := rfl
@[simp] theorem rxWrite_cnt0 (i : Nat) (b : Byte) (s : State) : (rxWrite i b s).cnt0 = s.cnt0 := rfl
@[simp] theorem rxWrite_cnt1 (i : Nat) (b : Byte) (s : State) : (rxWrite i b s).cnt1 = s.cnt1 := rfl
@[simp] theorem rxWrite_nslot (i : Nat) (b : Byte) (s : State) : (rxWrite i b s).nslot = s.nslot := rfl
@[simp] theorem rxWrite_rejCause (i : Nat) (b : Byte) (s : State) : (rxWrite i b s).rejCause = s.rejCause := rfl
@[simp] theorem rxWrite_rejHi (i : Nat) (b : Byte) (s : State) : (rxWrite i b s).rejHi = s.rejHi := rfl
@[simp] theorem rxWrite_rejLo (i : Nat) (b : Byte) (s : State) : (rxWrite i b s).rejLo = s.rejLo := rfl
@[simp] theorem rxWrite_rejcntA (i : Nat) (b : Byte) (s : State) : (rxWrite i b s).rejcntA = s.rejcntA := rfl
@[simp] theorem rxWrite_rejcntB (i : Nat) (b : Byte) (s : State) : (rxWrite i b s).rejcntB = s.rejcntB := rfl
@[simp] theorem rxWrite_rejcntC (i : Nat) (b : Byte) (s : State) : (rxWrite i b s).rejcntC = s.rejcntC := rfl
@[simp] theorem rxWrite_rejcntD (i : Nat) (b : Byte) (s : State) : (rxWrite i b s).rejcntD = s.rejcntD := rfl
@[simp] theorem rxWrite_rejcntE (i : Nat) (b : Byte) (s : State) : (rxWrite i b s).rejcntE = s.rejcntE := rfl
@[simp] theorem rxWrite_csacc (i : Nat) (b : Byte) (s : State) : (rxWrite i b s).csacc = s.csacc := rfl
@[simp] theorem rxWrite_txlen (i : Nat) (b : Byte) (s : State) : (rxWrite i b s).txlen = s.txlen := rfl
@[simp] theorem rxWrite_phase (i : Nat) (b : Byte) (s : State) : (rxWrite i b s).phase = s.phase := rfl
@[simp] theorem rxWrite_accepted (i : Nat) (b : Byte) (s : State) : (rxWrite i b s).accepted = s.accepted := rfl
@[simp] theorem rxWrite_asm (i : Nat) (b : Byte) (s : State) : (rxWrite i b s).asm = s.asm := rfl
@[simp] theorem rxWrite_tcnt (i : Nat) (b : Byte) (s : State) : (rxWrite i b s).tcnt = s.tcnt := rfl
@[simp] theorem rxWrite_txpos (i : Nat) (b : Byte) (s : State) : (rxWrite i b s).txpos = s.txpos := rfl
@[simp] theorem rxWrite_txbuf (i : Nat) (b : Byte) (s : State) : (rxWrite i b s).txbuf = s.txbuf := rfl
@[simp] theorem rxWrite_rxbuf (i : Nat) (b : Byte) (s : State) : (rxWrite i b s).rxbuf = Memory.insert s.rxbuf i b := rfl
@[simp] theorem rxWrite_layout (i : Nat) (b : Byte) (s : State) : (rxWrite i b s).layout = s.layout := rfl
@[simp] theorem rxWrite_fval (i : Nat) (b : Byte) (s : State) : (rxWrite i b s).fval = s.fval := rfl
@[simp] theorem rxWrite_ftag (i : Nat) (b : Byte) (s : State) : (rxWrite i b s).ftag = s.ftag := rfl
@[simp] theorem rxWrite_latCmd (i : Nat) (b : Byte) (s : State) : (rxWrite i b s).latCmd = s.latCmd := rfl
@[simp] theorem rxWrite_latArg0 (i : Nat) (b : Byte) (s : State) : (rxWrite i b s).latArg0 = s.latArg0 := rfl
@[simp] theorem rxWrite_latArg1 (i : Nat) (b : Byte) (s : State) : (rxWrite i b s).latArg1 = s.latArg1 := rfl
@[simp] theorem rxWrite_latGap (i : Nat) (b : Byte) (s : State) : (rxWrite i b s).latGap = s.latGap := rfl
@[simp] theorem rxWrite_latTmo (i : Nat) (b : Byte) (s : State) : (rxWrite i b s).latTmo = s.latTmo := rfl
@[simp] theorem rxWrite_latMinlen (i : Nat) (b : Byte) (s : State) : (rxWrite i b s).latMinlen = s.latMinlen := rfl
@[simp] theorem rxWrite_clen (i : Nat) (b : Byte) (s : State) : (rxWrite i b s).clen = s.clen := rfl
@[simp] theorem rxWrite_c0 (i : Nat) (b : Byte) (s : State) : (rxWrite i b s).c0 = s.c0 := rfl
@[simp] theorem rxWrite_c1 (i : Nat) (b : Byte) (s : State) : (rxWrite i b s).c1 = s.c1 := rfl
@[simp] theorem rxWrite_pc (i : Nat) (b : Byte) (s : State) : (rxWrite i b s).pc = s.pc := rfl
@[simp] theorem rxWrite_cur (i : Nat) (b : Byte) (s : State) : (rxWrite i b s).cur = s.cur := rfl
@[simp] theorem rxWrite_ns (i : Nat) (b : Byte) (s : State) : (rxWrite i b s).ns = s.ns := rfl
@[simp] theorem rxWrite_input (i : Nat) (b : Byte) (s : State) : (rxWrite i b s).input = s.input := rfl
@[simp] theorem rxWrite_rdata (i : Nat) (b : Byte) (s : State) : (rxWrite i b s).rdata = s.rdata := rfl
@[simp] theorem rxWrite_draws (i : Nat) (b : Byte) (s : State) : (rxWrite i b s).draws = s.draws := rfl
@[simp] theorem rxWrite_txSeed (i : Nat) (b : Byte) (s : State) : (rxWrite i b s).txSeed = s.txSeed := rfl
@[simp] theorem rxWrite_rxSeed (i : Nat) (b : Byte) (s : State) : (rxWrite i b s).rxSeed = s.rxSeed := rfl
@[simp] theorem rxWrite_fvalSeed (i : Nat) (b : Byte) (s : State) : (rxWrite i b s).fvalSeed = s.fvalSeed := rfl
@[simp] theorem rxWrite_ftagSeed (i : Nat) (b : Byte) (s : State) : (rxWrite i b s).ftagSeed = s.ftagSeed := rfl

/-! ## `layoutWrite` -/

@[simp] theorem layoutWrite_params (i : Nat) (w : Word) (s : State) : (layoutWrite i w s).params = s.params := rfl
@[simp] theorem layoutWrite_irqen (i : Nat) (w : Word) (s : State) : (layoutWrite i w s).irqen = s.irqen := rfl
@[simp] theorem layoutWrite_busy (i : Nat) (w : Word) (s : State) : (layoutWrite i w s).busy = s.busy := rfl
@[simp] theorem layoutWrite_done (i : Nat) (w : Word) (s : State) : (layoutWrite i w s).done = s.done := rfl
@[simp] theorem layoutWrite_err (i : Nat) (w : Word) (s : State) : (layoutWrite i w s).err = s.err := rfl
@[simp] theorem layoutWrite_busyErr (i : Nat) (w : Word) (s : State) : (layoutWrite i w s).busyErr = s.busyErr := rfl
@[simp] theorem layoutWrite_lenWarn (i : Nat) (w : Word) (s : State) : (layoutWrite i w s).lenWarn = s.lenWarn := rfl
@[simp] theorem layoutWrite_resync (i : Nat) (w : Word) (s : State) : (layoutWrite i w s).resync = s.resync := rfl
@[simp] theorem layoutWrite_rxVerified (i : Nat) (w : Word) (s : State) : (layoutWrite i w s).rxVerified = s.rxVerified := rfl
@[simp] theorem layoutWrite_code (i : Nat) (w : Word) (s : State) : (layoutWrite i w s).code = s.code := rfl
@[simp] theorem layoutWrite_arg0 (i : Nat) (w : Word) (s : State) : (layoutWrite i w s).arg0 = s.arg0 := rfl
@[simp] theorem layoutWrite_arg1 (i : Nat) (w : Word) (s : State) : (layoutWrite i w s).arg1 = s.arg1 := rfl
@[simp] theorem layoutWrite_gap (i : Nat) (w : Word) (s : State) : (layoutWrite i w s).gap = s.gap := rfl
@[simp] theorem layoutWrite_tmo (i : Nat) (w : Word) (s : State) : (layoutWrite i w s).tmo = s.tmo := rfl
@[simp] theorem layoutWrite_minlen (i : Nat) (w : Word) (s : State) : (layoutWrite i w s).minlen = s.minlen := rfl
@[simp] theorem layoutWrite_rxlen (i : Nat) (w : Word) (s : State) : (layoutWrite i w s).rxlen = s.rxlen := rfl
@[simp] theorem layoutWrite_res0 (i : Nat) (w : Word) (s : State) : (layoutWrite i w s).res0 = s.res0 := rfl
@[simp] theorem layoutWrite_res1 (i : Nat) (w : Word) (s : State) : (layoutWrite i w s).res1 = s.res1 := rfl
@[simp] theorem layoutWrite_res2 (i : Nat) (w : Word) (s : State) : (layoutWrite i w s).res2 = s.res2 := rfl
@[simp] theorem layoutWrite_nextOff (i : Nat) (w : Word) (s : State) : (layoutWrite i w s).nextOff = s.nextOff := rfl
@[simp] theorem layoutWrite_faultOff (i : Nat) (w : Word) (s : State) : (layoutWrite i w s).faultOff = s.faultOff := rfl
@[simp] theorem layoutWrite_faultPc (i : Nat) (w : Word) (s : State) : (layoutWrite i w s).faultPc = s.faultPc := rfl
@[simp] theorem layoutWrite_cnt0 (i : Nat) (w : Word) (s : State) : (layoutWrite i w s).cnt0 = s.cnt0 := rfl
@[simp] theorem layoutWrite_cnt1 (i : Nat) (w : Word) (s : State) : (layoutWrite i w s).cnt1 = s.cnt1 := rfl
@[simp] theorem layoutWrite_nslot (i : Nat) (w : Word) (s : State) : (layoutWrite i w s).nslot = s.nslot := rfl
@[simp] theorem layoutWrite_rejCause (i : Nat) (w : Word) (s : State) : (layoutWrite i w s).rejCause = s.rejCause := rfl
@[simp] theorem layoutWrite_rejHi (i : Nat) (w : Word) (s : State) : (layoutWrite i w s).rejHi = s.rejHi := rfl
@[simp] theorem layoutWrite_rejLo (i : Nat) (w : Word) (s : State) : (layoutWrite i w s).rejLo = s.rejLo := rfl
@[simp] theorem layoutWrite_rejcntA (i : Nat) (w : Word) (s : State) : (layoutWrite i w s).rejcntA = s.rejcntA := rfl
@[simp] theorem layoutWrite_rejcntB (i : Nat) (w : Word) (s : State) : (layoutWrite i w s).rejcntB = s.rejcntB := rfl
@[simp] theorem layoutWrite_rejcntC (i : Nat) (w : Word) (s : State) : (layoutWrite i w s).rejcntC = s.rejcntC := rfl
@[simp] theorem layoutWrite_rejcntD (i : Nat) (w : Word) (s : State) : (layoutWrite i w s).rejcntD = s.rejcntD := rfl
@[simp] theorem layoutWrite_rejcntE (i : Nat) (w : Word) (s : State) : (layoutWrite i w s).rejcntE = s.rejcntE := rfl
@[simp] theorem layoutWrite_csacc (i : Nat) (w : Word) (s : State) : (layoutWrite i w s).csacc = s.csacc := rfl
@[simp] theorem layoutWrite_txlen (i : Nat) (w : Word) (s : State) : (layoutWrite i w s).txlen = s.txlen := rfl
@[simp] theorem layoutWrite_phase (i : Nat) (w : Word) (s : State) : (layoutWrite i w s).phase = s.phase := rfl
@[simp] theorem layoutWrite_accepted (i : Nat) (w : Word) (s : State) : (layoutWrite i w s).accepted = s.accepted := rfl
@[simp] theorem layoutWrite_asm (i : Nat) (w : Word) (s : State) : (layoutWrite i w s).asm = s.asm := rfl
@[simp] theorem layoutWrite_tcnt (i : Nat) (w : Word) (s : State) : (layoutWrite i w s).tcnt = s.tcnt := rfl
@[simp] theorem layoutWrite_txpos (i : Nat) (w : Word) (s : State) : (layoutWrite i w s).txpos = s.txpos := rfl
@[simp] theorem layoutWrite_txbuf (i : Nat) (w : Word) (s : State) : (layoutWrite i w s).txbuf = s.txbuf := rfl
@[simp] theorem layoutWrite_rxbuf (i : Nat) (w : Word) (s : State) : (layoutWrite i w s).rxbuf = s.rxbuf := rfl
@[simp] theorem layoutWrite_fval (i : Nat) (w : Word) (s : State) : (layoutWrite i w s).fval = s.fval := rfl
@[simp] theorem layoutWrite_ftag (i : Nat) (w : Word) (s : State) : (layoutWrite i w s).ftag = s.ftag := rfl
@[simp] theorem layoutWrite_latCmd (i : Nat) (w : Word) (s : State) : (layoutWrite i w s).latCmd = s.latCmd := rfl
@[simp] theorem layoutWrite_latArg0 (i : Nat) (w : Word) (s : State) : (layoutWrite i w s).latArg0 = s.latArg0 := rfl
@[simp] theorem layoutWrite_latArg1 (i : Nat) (w : Word) (s : State) : (layoutWrite i w s).latArg1 = s.latArg1 := rfl
@[simp] theorem layoutWrite_latGap (i : Nat) (w : Word) (s : State) : (layoutWrite i w s).latGap = s.latGap := rfl
@[simp] theorem layoutWrite_latTmo (i : Nat) (w : Word) (s : State) : (layoutWrite i w s).latTmo = s.latTmo := rfl
@[simp] theorem layoutWrite_latMinlen (i : Nat) (w : Word) (s : State) : (layoutWrite i w s).latMinlen = s.latMinlen := rfl
@[simp] theorem layoutWrite_clen (i : Nat) (w : Word) (s : State) : (layoutWrite i w s).clen = s.clen := rfl
@[simp] theorem layoutWrite_c0 (i : Nat) (w : Word) (s : State) : (layoutWrite i w s).c0 = s.c0 := rfl
@[simp] theorem layoutWrite_c1 (i : Nat) (w : Word) (s : State) : (layoutWrite i w s).c1 = s.c1 := rfl
@[simp] theorem layoutWrite_pc (i : Nat) (w : Word) (s : State) : (layoutWrite i w s).pc = s.pc := rfl
@[simp] theorem layoutWrite_cur (i : Nat) (w : Word) (s : State) : (layoutWrite i w s).cur = s.cur := rfl
@[simp] theorem layoutWrite_ns (i : Nat) (w : Word) (s : State) : (layoutWrite i w s).ns = s.ns := rfl
@[simp] theorem layoutWrite_input (i : Nat) (w : Word) (s : State) : (layoutWrite i w s).input = s.input := rfl
@[simp] theorem layoutWrite_rdata (i : Nat) (w : Word) (s : State) : (layoutWrite i w s).rdata = s.rdata := rfl
@[simp] theorem layoutWrite_draws (i : Nat) (w : Word) (s : State) : (layoutWrite i w s).draws = s.draws := rfl
@[simp] theorem layoutWrite_txSeed (i : Nat) (w : Word) (s : State) : (layoutWrite i w s).txSeed = s.txSeed := rfl
@[simp] theorem layoutWrite_rxSeed (i : Nat) (w : Word) (s : State) : (layoutWrite i w s).rxSeed = s.rxSeed := rfl
@[simp] theorem layoutWrite_fvalSeed (i : Nat) (w : Word) (s : State) : (layoutWrite i w s).fvalSeed = s.fvalSeed := rfl
@[simp] theorem layoutWrite_ftagSeed (i : Nat) (w : Word) (s : State) : (layoutWrite i w s).ftagSeed = s.ftagSeed := rfl

/-! ## `redrawTx` -/

@[simp] theorem redrawTx_params (s : State) : (redrawTx s).params = s.params := rfl
@[simp] theorem redrawTx_irqen (s : State) : (redrawTx s).irqen = s.irqen := rfl
@[simp] theorem redrawTx_busy (s : State) : (redrawTx s).busy = s.busy := rfl
@[simp] theorem redrawTx_done (s : State) : (redrawTx s).done = s.done := rfl
@[simp] theorem redrawTx_err (s : State) : (redrawTx s).err = s.err := rfl
@[simp] theorem redrawTx_busyErr (s : State) : (redrawTx s).busyErr = s.busyErr := rfl
@[simp] theorem redrawTx_lenWarn (s : State) : (redrawTx s).lenWarn = s.lenWarn := rfl
@[simp] theorem redrawTx_resync (s : State) : (redrawTx s).resync = s.resync := rfl
@[simp] theorem redrawTx_rxVerified (s : State) : (redrawTx s).rxVerified = s.rxVerified := rfl
@[simp] theorem redrawTx_code (s : State) : (redrawTx s).code = s.code := rfl
@[simp] theorem redrawTx_arg0 (s : State) : (redrawTx s).arg0 = s.arg0 := rfl
@[simp] theorem redrawTx_arg1 (s : State) : (redrawTx s).arg1 = s.arg1 := rfl
@[simp] theorem redrawTx_gap (s : State) : (redrawTx s).gap = s.gap := rfl
@[simp] theorem redrawTx_tmo (s : State) : (redrawTx s).tmo = s.tmo := rfl
@[simp] theorem redrawTx_minlen (s : State) : (redrawTx s).minlen = s.minlen := rfl
@[simp] theorem redrawTx_rxlen (s : State) : (redrawTx s).rxlen = s.rxlen := rfl
@[simp] theorem redrawTx_res0 (s : State) : (redrawTx s).res0 = s.res0 := rfl
@[simp] theorem redrawTx_res1 (s : State) : (redrawTx s).res1 = s.res1 := rfl
@[simp] theorem redrawTx_res2 (s : State) : (redrawTx s).res2 = s.res2 := rfl
@[simp] theorem redrawTx_nextOff (s : State) : (redrawTx s).nextOff = s.nextOff := rfl
@[simp] theorem redrawTx_faultOff (s : State) : (redrawTx s).faultOff = s.faultOff := rfl
@[simp] theorem redrawTx_faultPc (s : State) : (redrawTx s).faultPc = s.faultPc := rfl
@[simp] theorem redrawTx_cnt0 (s : State) : (redrawTx s).cnt0 = s.cnt0 := rfl
@[simp] theorem redrawTx_cnt1 (s : State) : (redrawTx s).cnt1 = s.cnt1 := rfl
@[simp] theorem redrawTx_nslot (s : State) : (redrawTx s).nslot = s.nslot := rfl
@[simp] theorem redrawTx_rejCause (s : State) : (redrawTx s).rejCause = s.rejCause := rfl
@[simp] theorem redrawTx_rejHi (s : State) : (redrawTx s).rejHi = s.rejHi := rfl
@[simp] theorem redrawTx_rejLo (s : State) : (redrawTx s).rejLo = s.rejLo := rfl
@[simp] theorem redrawTx_rejcntA (s : State) : (redrawTx s).rejcntA = s.rejcntA := rfl
@[simp] theorem redrawTx_rejcntB (s : State) : (redrawTx s).rejcntB = s.rejcntB := rfl
@[simp] theorem redrawTx_rejcntC (s : State) : (redrawTx s).rejcntC = s.rejcntC := rfl
@[simp] theorem redrawTx_rejcntD (s : State) : (redrawTx s).rejcntD = s.rejcntD := rfl
@[simp] theorem redrawTx_rejcntE (s : State) : (redrawTx s).rejcntE = s.rejcntE := rfl
@[simp] theorem redrawTx_csacc (s : State) : (redrawTx s).csacc = s.csacc := rfl
@[simp] theorem redrawTx_txlen (s : State) : (redrawTx s).txlen = s.txlen := rfl
@[simp] theorem redrawTx_phase (s : State) : (redrawTx s).phase = s.phase := rfl
@[simp] theorem redrawTx_accepted (s : State) : (redrawTx s).accepted = s.accepted := rfl
@[simp] theorem redrawTx_asm (s : State) : (redrawTx s).asm = s.asm := rfl
@[simp] theorem redrawTx_tcnt (s : State) : (redrawTx s).tcnt = s.tcnt := rfl
@[simp] theorem redrawTx_txpos (s : State) : (redrawTx s).txpos = s.txpos := rfl
@[simp] theorem redrawTx_txbuf (s : State) : (redrawTx s).txbuf = [] := rfl
@[simp] theorem redrawTx_rxbuf (s : State) : (redrawTx s).rxbuf = s.rxbuf := rfl
@[simp] theorem redrawTx_layout (s : State) : (redrawTx s).layout = s.layout := rfl
@[simp] theorem redrawTx_fval (s : State) : (redrawTx s).fval = s.fval := rfl
@[simp] theorem redrawTx_ftag (s : State) : (redrawTx s).ftag = s.ftag := rfl
@[simp] theorem redrawTx_latCmd (s : State) : (redrawTx s).latCmd = s.latCmd := rfl
@[simp] theorem redrawTx_latArg0 (s : State) : (redrawTx s).latArg0 = s.latArg0 := rfl
@[simp] theorem redrawTx_latArg1 (s : State) : (redrawTx s).latArg1 = s.latArg1 := rfl
@[simp] theorem redrawTx_latGap (s : State) : (redrawTx s).latGap = s.latGap := rfl
@[simp] theorem redrawTx_latTmo (s : State) : (redrawTx s).latTmo = s.latTmo := rfl
@[simp] theorem redrawTx_latMinlen (s : State) : (redrawTx s).latMinlen = s.latMinlen := rfl
@[simp] theorem redrawTx_clen (s : State) : (redrawTx s).clen = s.clen := rfl
@[simp] theorem redrawTx_c0 (s : State) : (redrawTx s).c0 = s.c0 := rfl
@[simp] theorem redrawTx_c1 (s : State) : (redrawTx s).c1 = s.c1 := rfl
@[simp] theorem redrawTx_pc (s : State) : (redrawTx s).pc = s.pc := rfl
@[simp] theorem redrawTx_cur (s : State) : (redrawTx s).cur = s.cur := rfl
@[simp] theorem redrawTx_ns (s : State) : (redrawTx s).ns = s.ns := rfl
@[simp] theorem redrawTx_input (s : State) : (redrawTx s).input = s.input := rfl
@[simp] theorem redrawTx_rdata (s : State) : (redrawTx s).rdata = s.rdata := rfl
@[simp] theorem redrawTx_draws (s : State) : (redrawTx s).draws = s.draws + 1 := rfl
@[simp] theorem redrawTx_txSeed (s : State) : (redrawTx s).txSeed = s.draws := rfl
@[simp] theorem redrawTx_rxSeed (s : State) : (redrawTx s).rxSeed = s.rxSeed := rfl
@[simp] theorem redrawTx_fvalSeed (s : State) : (redrawTx s).fvalSeed = s.fvalSeed := rfl
@[simp] theorem redrawTx_ftagSeed (s : State) : (redrawTx s).ftagSeed = s.ftagSeed := rfl

/-! ## `redrawRx` -/

@[simp] theorem redrawRx_params (s : State) : (redrawRx s).params = s.params := rfl
@[simp] theorem redrawRx_irqen (s : State) : (redrawRx s).irqen = s.irqen := rfl
@[simp] theorem redrawRx_busy (s : State) : (redrawRx s).busy = s.busy := rfl
@[simp] theorem redrawRx_done (s : State) : (redrawRx s).done = s.done := rfl
@[simp] theorem redrawRx_err (s : State) : (redrawRx s).err = s.err := rfl
@[simp] theorem redrawRx_busyErr (s : State) : (redrawRx s).busyErr = s.busyErr := rfl
@[simp] theorem redrawRx_lenWarn (s : State) : (redrawRx s).lenWarn = s.lenWarn := rfl
@[simp] theorem redrawRx_resync (s : State) : (redrawRx s).resync = s.resync := rfl
@[simp] theorem redrawRx_rxVerified (s : State) : (redrawRx s).rxVerified = s.rxVerified := rfl
@[simp] theorem redrawRx_code (s : State) : (redrawRx s).code = s.code := rfl
@[simp] theorem redrawRx_arg0 (s : State) : (redrawRx s).arg0 = s.arg0 := rfl
@[simp] theorem redrawRx_arg1 (s : State) : (redrawRx s).arg1 = s.arg1 := rfl
@[simp] theorem redrawRx_gap (s : State) : (redrawRx s).gap = s.gap := rfl
@[simp] theorem redrawRx_tmo (s : State) : (redrawRx s).tmo = s.tmo := rfl
@[simp] theorem redrawRx_minlen (s : State) : (redrawRx s).minlen = s.minlen := rfl
@[simp] theorem redrawRx_rxlen (s : State) : (redrawRx s).rxlen = s.rxlen := rfl
@[simp] theorem redrawRx_res0 (s : State) : (redrawRx s).res0 = s.res0 := rfl
@[simp] theorem redrawRx_res1 (s : State) : (redrawRx s).res1 = s.res1 := rfl
@[simp] theorem redrawRx_res2 (s : State) : (redrawRx s).res2 = s.res2 := rfl
@[simp] theorem redrawRx_nextOff (s : State) : (redrawRx s).nextOff = s.nextOff := rfl
@[simp] theorem redrawRx_faultOff (s : State) : (redrawRx s).faultOff = s.faultOff := rfl
@[simp] theorem redrawRx_faultPc (s : State) : (redrawRx s).faultPc = s.faultPc := rfl
@[simp] theorem redrawRx_cnt0 (s : State) : (redrawRx s).cnt0 = s.cnt0 := rfl
@[simp] theorem redrawRx_cnt1 (s : State) : (redrawRx s).cnt1 = s.cnt1 := rfl
@[simp] theorem redrawRx_nslot (s : State) : (redrawRx s).nslot = s.nslot := rfl
@[simp] theorem redrawRx_rejCause (s : State) : (redrawRx s).rejCause = s.rejCause := rfl
@[simp] theorem redrawRx_rejHi (s : State) : (redrawRx s).rejHi = s.rejHi := rfl
@[simp] theorem redrawRx_rejLo (s : State) : (redrawRx s).rejLo = s.rejLo := rfl
@[simp] theorem redrawRx_rejcntA (s : State) : (redrawRx s).rejcntA = s.rejcntA := rfl
@[simp] theorem redrawRx_rejcntB (s : State) : (redrawRx s).rejcntB = s.rejcntB := rfl
@[simp] theorem redrawRx_rejcntC (s : State) : (redrawRx s).rejcntC = s.rejcntC := rfl
@[simp] theorem redrawRx_rejcntD (s : State) : (redrawRx s).rejcntD = s.rejcntD := rfl
@[simp] theorem redrawRx_rejcntE (s : State) : (redrawRx s).rejcntE = s.rejcntE := rfl
@[simp] theorem redrawRx_csacc (s : State) : (redrawRx s).csacc = s.csacc := rfl
@[simp] theorem redrawRx_txlen (s : State) : (redrawRx s).txlen = s.txlen := rfl
@[simp] theorem redrawRx_phase (s : State) : (redrawRx s).phase = s.phase := rfl
@[simp] theorem redrawRx_accepted (s : State) : (redrawRx s).accepted = s.accepted := rfl
@[simp] theorem redrawRx_asm (s : State) : (redrawRx s).asm = s.asm := rfl
@[simp] theorem redrawRx_tcnt (s : State) : (redrawRx s).tcnt = s.tcnt := rfl
@[simp] theorem redrawRx_txpos (s : State) : (redrawRx s).txpos = s.txpos := rfl
@[simp] theorem redrawRx_txbuf (s : State) : (redrawRx s).txbuf = s.txbuf := rfl
@[simp] theorem redrawRx_layout (s : State) : (redrawRx s).layout = s.layout := rfl
@[simp] theorem redrawRx_fval (s : State) : (redrawRx s).fval = s.fval := rfl
@[simp] theorem redrawRx_ftag (s : State) : (redrawRx s).ftag = s.ftag := rfl
@[simp] theorem redrawRx_latCmd (s : State) : (redrawRx s).latCmd = s.latCmd := rfl
@[simp] theorem redrawRx_latArg0 (s : State) : (redrawRx s).latArg0 = s.latArg0 := rfl
@[simp] theorem redrawRx_latArg1 (s : State) : (redrawRx s).latArg1 = s.latArg1 := rfl
@[simp] theorem redrawRx_latGap (s : State) : (redrawRx s).latGap = s.latGap := rfl
@[simp] theorem redrawRx_latTmo (s : State) : (redrawRx s).latTmo = s.latTmo := rfl
@[simp] theorem redrawRx_latMinlen (s : State) : (redrawRx s).latMinlen = s.latMinlen := rfl
@[simp] theorem redrawRx_clen (s : State) : (redrawRx s).clen = s.clen := rfl
@[simp] theorem redrawRx_c0 (s : State) : (redrawRx s).c0 = s.c0 := rfl
@[simp] theorem redrawRx_c1 (s : State) : (redrawRx s).c1 = s.c1 := rfl
@[simp] theorem redrawRx_pc (s : State) : (redrawRx s).pc = s.pc := rfl
@[simp] theorem redrawRx_cur (s : State) : (redrawRx s).cur = s.cur := rfl
@[simp] theorem redrawRx_ns (s : State) : (redrawRx s).ns = s.ns := rfl
@[simp] theorem redrawRx_input (s : State) : (redrawRx s).input = s.input := rfl
@[simp] theorem redrawRx_rdata (s : State) : (redrawRx s).rdata = s.rdata := rfl
@[simp] theorem redrawRx_draws (s : State) : (redrawRx s).draws = s.draws + 1 := rfl
@[simp] theorem redrawRx_txSeed (s : State) : (redrawRx s).txSeed = s.txSeed := rfl
@[simp] theorem redrawRx_rxSeed (s : State) : (redrawRx s).rxSeed = s.draws := rfl
@[simp] theorem redrawRx_fvalSeed (s : State) : (redrawRx s).fvalSeed = s.fvalSeed := rfl
@[simp] theorem redrawRx_ftagSeed (s : State) : (redrawRx s).ftagSeed = s.ftagSeed := rfl

/-! ## `setRdata` -/

@[simp] theorem setRdata_params (d : Word) (s : State) : (setRdata d s).params = s.params := rfl
@[simp] theorem setRdata_irqen (d : Word) (s : State) : (setRdata d s).irqen = s.irqen := rfl
@[simp] theorem setRdata_busy (d : Word) (s : State) : (setRdata d s).busy = s.busy := rfl
@[simp] theorem setRdata_done (d : Word) (s : State) : (setRdata d s).done = s.done := rfl
@[simp] theorem setRdata_err (d : Word) (s : State) : (setRdata d s).err = s.err := rfl
@[simp] theorem setRdata_busyErr (d : Word) (s : State) : (setRdata d s).busyErr = s.busyErr := rfl
@[simp] theorem setRdata_lenWarn (d : Word) (s : State) : (setRdata d s).lenWarn = s.lenWarn := rfl
@[simp] theorem setRdata_resync (d : Word) (s : State) : (setRdata d s).resync = s.resync := rfl
@[simp] theorem setRdata_rxVerified (d : Word) (s : State) : (setRdata d s).rxVerified = s.rxVerified := rfl
@[simp] theorem setRdata_code (d : Word) (s : State) : (setRdata d s).code = s.code := rfl
@[simp] theorem setRdata_arg0 (d : Word) (s : State) : (setRdata d s).arg0 = s.arg0 := rfl
@[simp] theorem setRdata_arg1 (d : Word) (s : State) : (setRdata d s).arg1 = s.arg1 := rfl
@[simp] theorem setRdata_gap (d : Word) (s : State) : (setRdata d s).gap = s.gap := rfl
@[simp] theorem setRdata_tmo (d : Word) (s : State) : (setRdata d s).tmo = s.tmo := rfl
@[simp] theorem setRdata_minlen (d : Word) (s : State) : (setRdata d s).minlen = s.minlen := rfl
@[simp] theorem setRdata_rxlen (d : Word) (s : State) : (setRdata d s).rxlen = s.rxlen := rfl
@[simp] theorem setRdata_res0 (d : Word) (s : State) : (setRdata d s).res0 = s.res0 := rfl
@[simp] theorem setRdata_res1 (d : Word) (s : State) : (setRdata d s).res1 = s.res1 := rfl
@[simp] theorem setRdata_res2 (d : Word) (s : State) : (setRdata d s).res2 = s.res2 := rfl
@[simp] theorem setRdata_nextOff (d : Word) (s : State) : (setRdata d s).nextOff = s.nextOff := rfl
@[simp] theorem setRdata_faultOff (d : Word) (s : State) : (setRdata d s).faultOff = s.faultOff := rfl
@[simp] theorem setRdata_faultPc (d : Word) (s : State) : (setRdata d s).faultPc = s.faultPc := rfl
@[simp] theorem setRdata_cnt0 (d : Word) (s : State) : (setRdata d s).cnt0 = s.cnt0 := rfl
@[simp] theorem setRdata_cnt1 (d : Word) (s : State) : (setRdata d s).cnt1 = s.cnt1 := rfl
@[simp] theorem setRdata_nslot (d : Word) (s : State) : (setRdata d s).nslot = s.nslot := rfl
@[simp] theorem setRdata_rejCause (d : Word) (s : State) : (setRdata d s).rejCause = s.rejCause := rfl
@[simp] theorem setRdata_rejHi (d : Word) (s : State) : (setRdata d s).rejHi = s.rejHi := rfl
@[simp] theorem setRdata_rejLo (d : Word) (s : State) : (setRdata d s).rejLo = s.rejLo := rfl
@[simp] theorem setRdata_rejcntA (d : Word) (s : State) : (setRdata d s).rejcntA = s.rejcntA := rfl
@[simp] theorem setRdata_rejcntB (d : Word) (s : State) : (setRdata d s).rejcntB = s.rejcntB := rfl
@[simp] theorem setRdata_rejcntC (d : Word) (s : State) : (setRdata d s).rejcntC = s.rejcntC := rfl
@[simp] theorem setRdata_rejcntD (d : Word) (s : State) : (setRdata d s).rejcntD = s.rejcntD := rfl
@[simp] theorem setRdata_rejcntE (d : Word) (s : State) : (setRdata d s).rejcntE = s.rejcntE := rfl
@[simp] theorem setRdata_csacc (d : Word) (s : State) : (setRdata d s).csacc = s.csacc := rfl
@[simp] theorem setRdata_txlen (d : Word) (s : State) : (setRdata d s).txlen = s.txlen := rfl
@[simp] theorem setRdata_phase (d : Word) (s : State) : (setRdata d s).phase = s.phase := rfl
@[simp] theorem setRdata_accepted (d : Word) (s : State) : (setRdata d s).accepted = s.accepted := rfl
@[simp] theorem setRdata_asm (d : Word) (s : State) : (setRdata d s).asm = s.asm := rfl
@[simp] theorem setRdata_tcnt (d : Word) (s : State) : (setRdata d s).tcnt = s.tcnt := rfl
@[simp] theorem setRdata_txpos (d : Word) (s : State) : (setRdata d s).txpos = s.txpos := rfl
@[simp] theorem setRdata_txbuf (d : Word) (s : State) : (setRdata d s).txbuf = s.txbuf := rfl
@[simp] theorem setRdata_rxbuf (d : Word) (s : State) : (setRdata d s).rxbuf = s.rxbuf := rfl
@[simp] theorem setRdata_layout (d : Word) (s : State) : (setRdata d s).layout = s.layout := rfl
@[simp] theorem setRdata_fval (d : Word) (s : State) : (setRdata d s).fval = s.fval := rfl
@[simp] theorem setRdata_ftag (d : Word) (s : State) : (setRdata d s).ftag = s.ftag := rfl
@[simp] theorem setRdata_latCmd (d : Word) (s : State) : (setRdata d s).latCmd = s.latCmd := rfl
@[simp] theorem setRdata_latArg0 (d : Word) (s : State) : (setRdata d s).latArg0 = s.latArg0 := rfl
@[simp] theorem setRdata_latArg1 (d : Word) (s : State) : (setRdata d s).latArg1 = s.latArg1 := rfl
@[simp] theorem setRdata_latGap (d : Word) (s : State) : (setRdata d s).latGap = s.latGap := rfl
@[simp] theorem setRdata_latTmo (d : Word) (s : State) : (setRdata d s).latTmo = s.latTmo := rfl
@[simp] theorem setRdata_latMinlen (d : Word) (s : State) : (setRdata d s).latMinlen = s.latMinlen := rfl
@[simp] theorem setRdata_clen (d : Word) (s : State) : (setRdata d s).clen = s.clen := rfl
@[simp] theorem setRdata_c0 (d : Word) (s : State) : (setRdata d s).c0 = s.c0 := rfl
@[simp] theorem setRdata_c1 (d : Word) (s : State) : (setRdata d s).c1 = s.c1 := rfl
@[simp] theorem setRdata_pc (d : Word) (s : State) : (setRdata d s).pc = s.pc := rfl
@[simp] theorem setRdata_cur (d : Word) (s : State) : (setRdata d s).cur = s.cur := rfl
@[simp] theorem setRdata_ns (d : Word) (s : State) : (setRdata d s).ns = s.ns := rfl
@[simp] theorem setRdata_input (d : Word) (s : State) : (setRdata d s).input = s.input := rfl
@[simp] theorem setRdata_rdata (d : Word) (s : State) : (setRdata d s).rdata = d := rfl
@[simp] theorem setRdata_draws (d : Word) (s : State) : (setRdata d s).draws = s.draws := rfl
@[simp] theorem setRdata_txSeed (d : Word) (s : State) : (setRdata d s).txSeed = s.txSeed := rfl
@[simp] theorem setRdata_rxSeed (d : Word) (s : State) : (setRdata d s).rxSeed = s.rxSeed := rfl
@[simp] theorem setRdata_fvalSeed (d : Word) (s : State) : (setRdata d s).fvalSeed = s.fvalSeed := rfl
@[simp] theorem setRdata_ftagSeed (d : Word) (s : State) : (setRdata d s).ftagSeed = s.ftagSeed := rfl

/-! ## `complete` -/

@[simp] theorem complete_params (c : Code) (s : State) : (complete c s).params = s.params := rfl
@[simp] theorem complete_irqen (c : Code) (s : State) : (complete c s).irqen = s.irqen := rfl
@[simp] theorem complete_busy (c : Code) (s : State) : (complete c s).busy = false := rfl
@[simp] theorem complete_done (c : Code) (s : State) : (complete c s).done = true := rfl
@[simp] theorem complete_err (c : Code) (s : State) : (complete c s).err = (s.err || decide (c ≠ .ok)) := rfl
@[simp] theorem complete_busyErr (c : Code) (s : State) : (complete c s).busyErr = s.busyErr := rfl
@[simp] theorem complete_lenWarn (c : Code) (s : State) : (complete c s).lenWarn = s.lenWarn := rfl
@[simp] theorem complete_resync (c : Code) (s : State) : (complete c s).resync = s.resync := rfl
@[simp] theorem complete_rxVerified (c : Code) (s : State) : (complete c s).rxVerified = s.rxVerified := rfl
@[simp] theorem complete_code (c : Code) (s : State) : (complete c s).code = c := rfl
@[simp] theorem complete_arg0 (c : Code) (s : State) : (complete c s).arg0 = s.arg0 := rfl
@[simp] theorem complete_arg1 (c : Code) (s : State) : (complete c s).arg1 = s.arg1 := rfl
@[simp] theorem complete_gap (c : Code) (s : State) : (complete c s).gap = s.gap := rfl
@[simp] theorem complete_tmo (c : Code) (s : State) : (complete c s).tmo = s.tmo := rfl
@[simp] theorem complete_minlen (c : Code) (s : State) : (complete c s).minlen = s.minlen := rfl
@[simp] theorem complete_rxlen (c : Code) (s : State) : (complete c s).rxlen = s.rxlen := rfl
@[simp] theorem complete_res0 (c : Code) (s : State) : (complete c s).res0 = s.res0 := rfl
@[simp] theorem complete_res1 (c : Code) (s : State) : (complete c s).res1 = s.res1 := rfl
@[simp] theorem complete_res2 (c : Code) (s : State) : (complete c s).res2 = s.res2 := rfl
@[simp] theorem complete_nextOff (c : Code) (s : State) : (complete c s).nextOff = s.nextOff := rfl
@[simp] theorem complete_faultOff (c : Code) (s : State) : (complete c s).faultOff = s.faultOff := rfl
@[simp] theorem complete_faultPc (c : Code) (s : State) : (complete c s).faultPc = s.faultPc := rfl
@[simp] theorem complete_cnt0 (c : Code) (s : State) : (complete c s).cnt0 = s.cnt0 := rfl
@[simp] theorem complete_cnt1 (c : Code) (s : State) : (complete c s).cnt1 = s.cnt1 := rfl
@[simp] theorem complete_nslot (c : Code) (s : State) : (complete c s).nslot = s.nslot := rfl
@[simp] theorem complete_rejCause (c : Code) (s : State) : (complete c s).rejCause = s.rejCause := rfl
@[simp] theorem complete_rejHi (c : Code) (s : State) : (complete c s).rejHi = s.rejHi := rfl
@[simp] theorem complete_rejLo (c : Code) (s : State) : (complete c s).rejLo = s.rejLo := rfl
@[simp] theorem complete_rejcntA (c : Code) (s : State) : (complete c s).rejcntA = s.rejcntA := rfl
@[simp] theorem complete_rejcntB (c : Code) (s : State) : (complete c s).rejcntB = s.rejcntB := rfl
@[simp] theorem complete_rejcntC (c : Code) (s : State) : (complete c s).rejcntC = s.rejcntC := rfl
@[simp] theorem complete_rejcntD (c : Code) (s : State) : (complete c s).rejcntD = s.rejcntD := rfl
@[simp] theorem complete_rejcntE (c : Code) (s : State) : (complete c s).rejcntE = s.rejcntE := rfl
@[simp] theorem complete_csacc (c : Code) (s : State) : (complete c s).csacc = s.csacc := rfl
@[simp] theorem complete_txlen (c : Code) (s : State) : (complete c s).txlen = s.txlen := rfl
@[simp] theorem complete_phase (c : Code) (s : State) : (complete c s).phase = .idle := rfl
@[simp] theorem complete_accepted (c : Code) (s : State) : (complete c s).accepted = s.accepted := rfl
@[simp] theorem complete_asm (c : Code) (s : State) : (complete c s).asm = s.asm := rfl
@[simp] theorem complete_tcnt (c : Code) (s : State) : (complete c s).tcnt = s.tcnt := rfl
@[simp] theorem complete_txpos (c : Code) (s : State) : (complete c s).txpos = s.txpos := rfl
@[simp] theorem complete_txbuf (c : Code) (s : State) : (complete c s).txbuf = s.txbuf := rfl
@[simp] theorem complete_rxbuf (c : Code) (s : State) : (complete c s).rxbuf = s.rxbuf := rfl
@[simp] theorem complete_layout (c : Code) (s : State) : (complete c s).layout = s.layout := rfl
@[simp] theorem complete_fval (c : Code) (s : State) : (complete c s).fval = s.fval := rfl
@[simp] theorem complete_ftag (c : Code) (s : State) : (complete c s).ftag = s.ftag := rfl
@[simp] theorem complete_latCmd (c : Code) (s : State) : (complete c s).latCmd = s.latCmd := rfl
@[simp] theorem complete_latArg0 (c : Code) (s : State) : (complete c s).latArg0 = s.latArg0 := rfl
@[simp] theorem complete_latArg1 (c : Code) (s : State) : (complete c s).latArg1 = s.latArg1 := rfl
@[simp] theorem complete_latGap (c : Code) (s : State) : (complete c s).latGap = s.latGap := rfl
@[simp] theorem complete_latTmo (c : Code) (s : State) : (complete c s).latTmo = s.latTmo := rfl
@[simp] theorem complete_latMinlen (c : Code) (s : State) : (complete c s).latMinlen = s.latMinlen := rfl
@[simp] theorem complete_clen (c : Code) (s : State) : (complete c s).clen = s.clen := rfl
@[simp] theorem complete_c0 (c : Code) (s : State) : (complete c s).c0 = s.c0 := rfl
@[simp] theorem complete_c1 (c : Code) (s : State) : (complete c s).c1 = s.c1 := rfl
@[simp] theorem complete_pc (c : Code) (s : State) : (complete c s).pc = s.pc := rfl
@[simp] theorem complete_cur (c : Code) (s : State) : (complete c s).cur = s.cur := rfl
@[simp] theorem complete_ns (c : Code) (s : State) : (complete c s).ns = s.ns := rfl
@[simp] theorem complete_input (c : Code) (s : State) : (complete c s).input = s.input := rfl
@[simp] theorem complete_rdata (c : Code) (s : State) : (complete c s).rdata = s.rdata := rfl
@[simp] theorem complete_draws (c : Code) (s : State) : (complete c s).draws = s.draws := rfl
@[simp] theorem complete_txSeed (c : Code) (s : State) : (complete c s).txSeed = s.txSeed := rfl
@[simp] theorem complete_rxSeed (c : Code) (s : State) : (complete c s).rxSeed = s.rxSeed := rfl
@[simp] theorem complete_fvalSeed (c : Code) (s : State) : (complete c s).fvalSeed = s.fvalSeed := rfl
@[simp] theorem complete_ftagSeed (c : Code) (s : State) : (complete c s).ftagSeed = s.ftagSeed := rfl

/-! ## `ackStatus` -/

@[simp] theorem ackStatus_params (d : Word) (s : State) : (ackStatus d s).params = s.params := rfl
@[simp] theorem ackStatus_irqen (d : Word) (s : State) : (ackStatus d s).irqen = s.irqen := rfl
@[simp] theorem ackStatus_busy (d : Word) (s : State) : (ackStatus d s).busy = s.busy := rfl
@[simp] theorem ackStatus_done (d : Word) (s : State) : (ackStatus d s).done = (s.done && !d.getLsbD 1) := rfl
@[simp] theorem ackStatus_err (d : Word) (s : State) : (ackStatus d s).err = (s.err && !d.getLsbD 2) := rfl
@[simp] theorem ackStatus_busyErr (d : Word) (s : State) : (ackStatus d s).busyErr = (s.busyErr && !d.getLsbD 3) := rfl
@[simp] theorem ackStatus_lenWarn (d : Word) (s : State) : (ackStatus d s).lenWarn = s.lenWarn := rfl
@[simp] theorem ackStatus_resync (d : Word) (s : State) : (ackStatus d s).resync = s.resync := rfl
@[simp] theorem ackStatus_rxVerified (d : Word) (s : State) : (ackStatus d s).rxVerified = s.rxVerified := rfl
@[simp] theorem ackStatus_code (d : Word) (s : State) : (ackStatus d s).code = s.code := rfl
@[simp] theorem ackStatus_arg0 (d : Word) (s : State) : (ackStatus d s).arg0 = s.arg0 := rfl
@[simp] theorem ackStatus_arg1 (d : Word) (s : State) : (ackStatus d s).arg1 = s.arg1 := rfl
@[simp] theorem ackStatus_gap (d : Word) (s : State) : (ackStatus d s).gap = s.gap := rfl
@[simp] theorem ackStatus_tmo (d : Word) (s : State) : (ackStatus d s).tmo = s.tmo := rfl
@[simp] theorem ackStatus_minlen (d : Word) (s : State) : (ackStatus d s).minlen = s.minlen := rfl
@[simp] theorem ackStatus_rxlen (d : Word) (s : State) : (ackStatus d s).rxlen = s.rxlen := rfl
@[simp] theorem ackStatus_res0 (d : Word) (s : State) : (ackStatus d s).res0 = s.res0 := rfl
@[simp] theorem ackStatus_res1 (d : Word) (s : State) : (ackStatus d s).res1 = s.res1 := rfl
@[simp] theorem ackStatus_res2 (d : Word) (s : State) : (ackStatus d s).res2 = s.res2 := rfl
@[simp] theorem ackStatus_nextOff (d : Word) (s : State) : (ackStatus d s).nextOff = s.nextOff := rfl
@[simp] theorem ackStatus_faultOff (d : Word) (s : State) : (ackStatus d s).faultOff = s.faultOff := rfl
@[simp] theorem ackStatus_faultPc (d : Word) (s : State) : (ackStatus d s).faultPc = s.faultPc := rfl
@[simp] theorem ackStatus_cnt0 (d : Word) (s : State) : (ackStatus d s).cnt0 = s.cnt0 := rfl
@[simp] theorem ackStatus_cnt1 (d : Word) (s : State) : (ackStatus d s).cnt1 = s.cnt1 := rfl
@[simp] theorem ackStatus_nslot (d : Word) (s : State) : (ackStatus d s).nslot = s.nslot := rfl
@[simp] theorem ackStatus_rejCause (d : Word) (s : State) : (ackStatus d s).rejCause = s.rejCause := rfl
@[simp] theorem ackStatus_rejHi (d : Word) (s : State) : (ackStatus d s).rejHi = s.rejHi := rfl
@[simp] theorem ackStatus_rejLo (d : Word) (s : State) : (ackStatus d s).rejLo = s.rejLo := rfl
@[simp] theorem ackStatus_rejcntA (d : Word) (s : State) : (ackStatus d s).rejcntA = s.rejcntA := rfl
@[simp] theorem ackStatus_rejcntB (d : Word) (s : State) : (ackStatus d s).rejcntB = s.rejcntB := rfl
@[simp] theorem ackStatus_rejcntC (d : Word) (s : State) : (ackStatus d s).rejcntC = s.rejcntC := rfl
@[simp] theorem ackStatus_rejcntD (d : Word) (s : State) : (ackStatus d s).rejcntD = s.rejcntD := rfl
@[simp] theorem ackStatus_rejcntE (d : Word) (s : State) : (ackStatus d s).rejcntE = s.rejcntE := rfl
@[simp] theorem ackStatus_csacc (d : Word) (s : State) : (ackStatus d s).csacc = s.csacc := rfl
@[simp] theorem ackStatus_txlen (d : Word) (s : State) : (ackStatus d s).txlen = s.txlen := rfl
@[simp] theorem ackStatus_phase (d : Word) (s : State) : (ackStatus d s).phase = s.phase := rfl
@[simp] theorem ackStatus_accepted (d : Word) (s : State) : (ackStatus d s).accepted = s.accepted := rfl
@[simp] theorem ackStatus_asm (d : Word) (s : State) : (ackStatus d s).asm = s.asm := rfl
@[simp] theorem ackStatus_tcnt (d : Word) (s : State) : (ackStatus d s).tcnt = s.tcnt := rfl
@[simp] theorem ackStatus_txpos (d : Word) (s : State) : (ackStatus d s).txpos = s.txpos := rfl
@[simp] theorem ackStatus_txbuf (d : Word) (s : State) : (ackStatus d s).txbuf = s.txbuf := rfl
@[simp] theorem ackStatus_rxbuf (d : Word) (s : State) : (ackStatus d s).rxbuf = s.rxbuf := rfl
@[simp] theorem ackStatus_layout (d : Word) (s : State) : (ackStatus d s).layout = s.layout := rfl
@[simp] theorem ackStatus_fval (d : Word) (s : State) : (ackStatus d s).fval = s.fval := rfl
@[simp] theorem ackStatus_ftag (d : Word) (s : State) : (ackStatus d s).ftag = s.ftag := rfl
@[simp] theorem ackStatus_latCmd (d : Word) (s : State) : (ackStatus d s).latCmd = s.latCmd := rfl
@[simp] theorem ackStatus_latArg0 (d : Word) (s : State) : (ackStatus d s).latArg0 = s.latArg0 := rfl
@[simp] theorem ackStatus_latArg1 (d : Word) (s : State) : (ackStatus d s).latArg1 = s.latArg1 := rfl
@[simp] theorem ackStatus_latGap (d : Word) (s : State) : (ackStatus d s).latGap = s.latGap := rfl
@[simp] theorem ackStatus_latTmo (d : Word) (s : State) : (ackStatus d s).latTmo = s.latTmo := rfl
@[simp] theorem ackStatus_latMinlen (d : Word) (s : State) : (ackStatus d s).latMinlen = s.latMinlen := rfl
@[simp] theorem ackStatus_clen (d : Word) (s : State) : (ackStatus d s).clen = s.clen := rfl
@[simp] theorem ackStatus_c0 (d : Word) (s : State) : (ackStatus d s).c0 = s.c0 := rfl
@[simp] theorem ackStatus_c1 (d : Word) (s : State) : (ackStatus d s).c1 = s.c1 := rfl
@[simp] theorem ackStatus_pc (d : Word) (s : State) : (ackStatus d s).pc = s.pc := rfl
@[simp] theorem ackStatus_cur (d : Word) (s : State) : (ackStatus d s).cur = s.cur := rfl
@[simp] theorem ackStatus_ns (d : Word) (s : State) : (ackStatus d s).ns = s.ns := rfl
@[simp] theorem ackStatus_input (d : Word) (s : State) : (ackStatus d s).input = s.input := rfl
@[simp] theorem ackStatus_rdata (d : Word) (s : State) : (ackStatus d s).rdata = s.rdata := rfl
@[simp] theorem ackStatus_draws (d : Word) (s : State) : (ackStatus d s).draws = s.draws := rfl
@[simp] theorem ackStatus_txSeed (d : Word) (s : State) : (ackStatus d s).txSeed = s.txSeed := rfl
@[simp] theorem ackStatus_rxSeed (d : Word) (s : State) : (ackStatus d s).rxSeed = s.rxSeed := rfl
@[simp] theorem ackStatus_fvalSeed (d : Word) (s : State) : (ackStatus d s).fvalSeed = s.fvalSeed := rfl
@[simp] theorem ackStatus_ftagSeed (d : Word) (s : State) : (ackStatus d s).ftagSeed = s.ftagSeed := rfl

/-! ## `issueLatch` -/

@[simp] theorem issueLatch_params (d : Word) (s : State) : (issueLatch d s).params = s.params := rfl
@[simp] theorem issueLatch_irqen (d : Word) (s : State) : (issueLatch d s).irqen = s.irqen := rfl
@[simp] theorem issueLatch_busy (d : Word) (s : State) : (issueLatch d s).busy = true := rfl
@[simp] theorem issueLatch_done (d : Word) (s : State) : (issueLatch d s).done = false := rfl
@[simp] theorem issueLatch_err (d : Word) (s : State) : (issueLatch d s).err = s.err := rfl
@[simp] theorem issueLatch_busyErr (d : Word) (s : State) : (issueLatch d s).busyErr = s.busyErr := rfl
@[simp] theorem issueLatch_lenWarn (d : Word) (s : State) : (issueLatch d s).lenWarn = false := rfl
@[simp] theorem issueLatch_resync (d : Word) (s : State) : (issueLatch d s).resync = false := rfl
@[simp] theorem issueLatch_rxVerified (d : Word) (s : State) : (issueLatch d s).rxVerified = s.rxVerified := rfl
@[simp] theorem issueLatch_code (d : Word) (s : State) : (issueLatch d s).code = .ok := rfl
@[simp] theorem issueLatch_arg0 (d : Word) (s : State) : (issueLatch d s).arg0 = s.arg0 := rfl
@[simp] theorem issueLatch_arg1 (d : Word) (s : State) : (issueLatch d s).arg1 = s.arg1 := rfl
@[simp] theorem issueLatch_gap (d : Word) (s : State) : (issueLatch d s).gap = s.gap := rfl
@[simp] theorem issueLatch_tmo (d : Word) (s : State) : (issueLatch d s).tmo = s.tmo := rfl
@[simp] theorem issueLatch_minlen (d : Word) (s : State) : (issueLatch d s).minlen = s.minlen := rfl
@[simp] theorem issueLatch_rxlen (d : Word) (s : State) : (issueLatch d s).rxlen = s.rxlen := rfl
@[simp] theorem issueLatch_res0 (d : Word) (s : State) : (issueLatch d s).res0 = s.res0 := rfl
@[simp] theorem issueLatch_res1 (d : Word) (s : State) : (issueLatch d s).res1 = s.res1 := rfl
@[simp] theorem issueLatch_res2 (d : Word) (s : State) : (issueLatch d s).res2 = s.res2 := rfl
@[simp] theorem issueLatch_nextOff (d : Word) (s : State) : (issueLatch d s).nextOff = s.nextOff := rfl
@[simp] theorem issueLatch_faultOff (d : Word) (s : State) : (issueLatch d s).faultOff = 0 := rfl
@[simp] theorem issueLatch_faultPc (d : Word) (s : State) : (issueLatch d s).faultPc = 0 := rfl
@[simp] theorem issueLatch_cnt0 (d : Word) (s : State) : (issueLatch d s).cnt0 = s.cnt0 := rfl
@[simp] theorem issueLatch_cnt1 (d : Word) (s : State) : (issueLatch d s).cnt1 = s.cnt1 := rfl
@[simp] theorem issueLatch_nslot (d : Word) (s : State) : (issueLatch d s).nslot = s.nslot := rfl
@[simp] theorem issueLatch_rejCause (d : Word) (s : State) : (issueLatch d s).rejCause = s.rejCause := rfl
@[simp] theorem issueLatch_rejHi (d : Word) (s : State) : (issueLatch d s).rejHi = s.rejHi := rfl
@[simp] theorem issueLatch_rejLo (d : Word) (s : State) : (issueLatch d s).rejLo = s.rejLo := rfl
@[simp] theorem issueLatch_rejcntA (d : Word) (s : State) : (issueLatch d s).rejcntA = s.rejcntA := rfl
@[simp] theorem issueLatch_rejcntB (d : Word) (s : State) : (issueLatch d s).rejcntB = s.rejcntB := rfl
@[simp] theorem issueLatch_rejcntC (d : Word) (s : State) : (issueLatch d s).rejcntC = s.rejcntC := rfl
@[simp] theorem issueLatch_rejcntD (d : Word) (s : State) : (issueLatch d s).rejcntD = s.rejcntD := rfl
@[simp] theorem issueLatch_rejcntE (d : Word) (s : State) : (issueLatch d s).rejcntE = s.rejcntE := rfl
@[simp] theorem issueLatch_csacc (d : Word) (s : State) : (issueLatch d s).csacc = s.csacc := rfl
@[simp] theorem issueLatch_txlen (d : Word) (s : State) : (issueLatch d s).txlen = s.txlen := rfl
@[simp] theorem issueLatch_phase (d : Word) (s : State) : (issueLatch d s).phase = s.phase := rfl
@[simp] theorem issueLatch_accepted (d : Word) (s : State) : (issueLatch d s).accepted = s.accepted := rfl
@[simp] theorem issueLatch_asm (d : Word) (s : State) : (issueLatch d s).asm = s.asm := rfl
@[simp] theorem issueLatch_tcnt (d : Word) (s : State) : (issueLatch d s).tcnt = s.tcnt := rfl
@[simp] theorem issueLatch_txpos (d : Word) (s : State) : (issueLatch d s).txpos = s.txpos := rfl
@[simp] theorem issueLatch_txbuf (d : Word) (s : State) : (issueLatch d s).txbuf = s.txbuf := rfl
@[simp] theorem issueLatch_rxbuf (d : Word) (s : State) : (issueLatch d s).rxbuf = s.rxbuf := rfl
@[simp] theorem issueLatch_layout (d : Word) (s : State) : (issueLatch d s).layout = s.layout := rfl
@[simp] theorem issueLatch_fval (d : Word) (s : State) : (issueLatch d s).fval = s.fval := rfl
@[simp] theorem issueLatch_ftag (d : Word) (s : State) : (issueLatch d s).ftag = s.ftag := rfl
@[simp] theorem issueLatch_latCmd (d : Word) (s : State) : (issueLatch d s).latCmd = d := rfl
@[simp] theorem issueLatch_latArg0 (d : Word) (s : State) : (issueLatch d s).latArg0 = s.arg0 := rfl
@[simp] theorem issueLatch_latArg1 (d : Word) (s : State) : (issueLatch d s).latArg1 = s.arg1 := rfl
@[simp] theorem issueLatch_latGap (d : Word) (s : State) : (issueLatch d s).latGap = s.latGap := rfl
@[simp] theorem issueLatch_latTmo (d : Word) (s : State) : (issueLatch d s).latTmo = s.latTmo := rfl
@[simp] theorem issueLatch_latMinlen (d : Word) (s : State) : (issueLatch d s).latMinlen = s.latMinlen := rfl
@[simp] theorem issueLatch_clen (d : Word) (s : State) : (issueLatch d s).clen = s.clen := rfl
@[simp] theorem issueLatch_c0 (d : Word) (s : State) : (issueLatch d s).c0 = s.c0 := rfl
@[simp] theorem issueLatch_c1 (d : Word) (s : State) : (issueLatch d s).c1 = s.c1 := rfl
@[simp] theorem issueLatch_pc (d : Word) (s : State) : (issueLatch d s).pc = s.pc := rfl
@[simp] theorem issueLatch_cur (d : Word) (s : State) : (issueLatch d s).cur = s.cur := rfl
@[simp] theorem issueLatch_ns (d : Word) (s : State) : (issueLatch d s).ns = s.ns := rfl
@[simp] theorem issueLatch_input (d : Word) (s : State) : (issueLatch d s).input = s.input := rfl
@[simp] theorem issueLatch_rdata (d : Word) (s : State) : (issueLatch d s).rdata = s.rdata := rfl
@[simp] theorem issueLatch_draws (d : Word) (s : State) : (issueLatch d s).draws = s.draws := rfl
@[simp] theorem issueLatch_txSeed (d : Word) (s : State) : (issueLatch d s).txSeed = s.txSeed := rfl
@[simp] theorem issueLatch_rxSeed (d : Word) (s : State) : (issueLatch d s).rxSeed = s.rxSeed := rfl
@[simp] theorem issueLatch_fvalSeed (d : Word) (s : State) : (issueLatch d s).fvalSeed = s.fvalSeed := rfl
@[simp] theorem issueLatch_ftagSeed (d : Word) (s : State) : (issueLatch d s).ftagSeed = s.ftagSeed := rfl

/-! ## `setBusyErr` -/

@[simp] theorem setBusyErr_params (s : State) : (setBusyErr s).params = s.params := rfl
@[simp] theorem setBusyErr_irqen (s : State) : (setBusyErr s).irqen = s.irqen := rfl
@[simp] theorem setBusyErr_busy (s : State) : (setBusyErr s).busy = s.busy := rfl
@[simp] theorem setBusyErr_done (s : State) : (setBusyErr s).done = s.done := rfl
@[simp] theorem setBusyErr_err (s : State) : (setBusyErr s).err = s.err := rfl
@[simp] theorem setBusyErr_busyErr (s : State) : (setBusyErr s).busyErr = true := rfl
@[simp] theorem setBusyErr_lenWarn (s : State) : (setBusyErr s).lenWarn = s.lenWarn := rfl
@[simp] theorem setBusyErr_resync (s : State) : (setBusyErr s).resync = s.resync := rfl
@[simp] theorem setBusyErr_rxVerified (s : State) : (setBusyErr s).rxVerified = s.rxVerified := rfl
@[simp] theorem setBusyErr_code (s : State) : (setBusyErr s).code = s.code := rfl
@[simp] theorem setBusyErr_arg0 (s : State) : (setBusyErr s).arg0 = s.arg0 := rfl
@[simp] theorem setBusyErr_arg1 (s : State) : (setBusyErr s).arg1 = s.arg1 := rfl
@[simp] theorem setBusyErr_gap (s : State) : (setBusyErr s).gap = s.gap := rfl
@[simp] theorem setBusyErr_tmo (s : State) : (setBusyErr s).tmo = s.tmo := rfl
@[simp] theorem setBusyErr_minlen (s : State) : (setBusyErr s).minlen = s.minlen := rfl
@[simp] theorem setBusyErr_rxlen (s : State) : (setBusyErr s).rxlen = s.rxlen := rfl
@[simp] theorem setBusyErr_res0 (s : State) : (setBusyErr s).res0 = s.res0 := rfl
@[simp] theorem setBusyErr_res1 (s : State) : (setBusyErr s).res1 = s.res1 := rfl
@[simp] theorem setBusyErr_res2 (s : State) : (setBusyErr s).res2 = s.res2 := rfl
@[simp] theorem setBusyErr_nextOff (s : State) : (setBusyErr s).nextOff = s.nextOff := rfl
@[simp] theorem setBusyErr_faultOff (s : State) : (setBusyErr s).faultOff = s.faultOff := rfl
@[simp] theorem setBusyErr_faultPc (s : State) : (setBusyErr s).faultPc = s.faultPc := rfl
@[simp] theorem setBusyErr_cnt0 (s : State) : (setBusyErr s).cnt0 = s.cnt0 := rfl
@[simp] theorem setBusyErr_cnt1 (s : State) : (setBusyErr s).cnt1 = s.cnt1 := rfl
@[simp] theorem setBusyErr_nslot (s : State) : (setBusyErr s).nslot = s.nslot := rfl
@[simp] theorem setBusyErr_rejCause (s : State) : (setBusyErr s).rejCause = s.rejCause := rfl
@[simp] theorem setBusyErr_rejHi (s : State) : (setBusyErr s).rejHi = s.rejHi := rfl
@[simp] theorem setBusyErr_rejLo (s : State) : (setBusyErr s).rejLo = s.rejLo := rfl
@[simp] theorem setBusyErr_rejcntA (s : State) : (setBusyErr s).rejcntA = s.rejcntA := rfl
@[simp] theorem setBusyErr_rejcntB (s : State) : (setBusyErr s).rejcntB = s.rejcntB := rfl
@[simp] theorem setBusyErr_rejcntC (s : State) : (setBusyErr s).rejcntC = s.rejcntC := rfl
@[simp] theorem setBusyErr_rejcntD (s : State) : (setBusyErr s).rejcntD = s.rejcntD := rfl
@[simp] theorem setBusyErr_rejcntE (s : State) : (setBusyErr s).rejcntE = s.rejcntE := rfl
@[simp] theorem setBusyErr_csacc (s : State) : (setBusyErr s).csacc = s.csacc := rfl
@[simp] theorem setBusyErr_txlen (s : State) : (setBusyErr s).txlen = s.txlen := rfl
@[simp] theorem setBusyErr_phase (s : State) : (setBusyErr s).phase = s.phase := rfl
@[simp] theorem setBusyErr_accepted (s : State) : (setBusyErr s).accepted = s.accepted := rfl
@[simp] theorem setBusyErr_asm (s : State) : (setBusyErr s).asm = s.asm := rfl
@[simp] theorem setBusyErr_tcnt (s : State) : (setBusyErr s).tcnt = s.tcnt := rfl
@[simp] theorem setBusyErr_txpos (s : State) : (setBusyErr s).txpos = s.txpos := rfl
@[simp] theorem setBusyErr_txbuf (s : State) : (setBusyErr s).txbuf = s.txbuf := rfl
@[simp] theorem setBusyErr_rxbuf (s : State) : (setBusyErr s).rxbuf = s.rxbuf := rfl
@[simp] theorem setBusyErr_layout (s : State) : (setBusyErr s).layout = s.layout := rfl
@[simp] theorem setBusyErr_fval (s : State) : (setBusyErr s).fval = s.fval := rfl
@[simp] theorem setBusyErr_ftag (s : State) : (setBusyErr s).ftag = s.ftag := rfl
@[simp] theorem setBusyErr_latCmd (s : State) : (setBusyErr s).latCmd = s.latCmd := rfl
@[simp] theorem setBusyErr_latArg0 (s : State) : (setBusyErr s).latArg0 = s.latArg0 := rfl
@[simp] theorem setBusyErr_latArg1 (s : State) : (setBusyErr s).latArg1 = s.latArg1 := rfl
@[simp] theorem setBusyErr_latGap (s : State) : (setBusyErr s).latGap = s.latGap := rfl
@[simp] theorem setBusyErr_latTmo (s : State) : (setBusyErr s).latTmo = s.latTmo := rfl
@[simp] theorem setBusyErr_latMinlen (s : State) : (setBusyErr s).latMinlen = s.latMinlen := rfl
@[simp] theorem setBusyErr_clen (s : State) : (setBusyErr s).clen = s.clen := rfl
@[simp] theorem setBusyErr_c0 (s : State) : (setBusyErr s).c0 = s.c0 := rfl
@[simp] theorem setBusyErr_c1 (s : State) : (setBusyErr s).c1 = s.c1 := rfl
@[simp] theorem setBusyErr_pc (s : State) : (setBusyErr s).pc = s.pc := rfl
@[simp] theorem setBusyErr_cur (s : State) : (setBusyErr s).cur = s.cur := rfl
@[simp] theorem setBusyErr_ns (s : State) : (setBusyErr s).ns = s.ns := rfl
@[simp] theorem setBusyErr_input (s : State) : (setBusyErr s).input = s.input := rfl
@[simp] theorem setBusyErr_rdata (s : State) : (setBusyErr s).rdata = s.rdata := rfl
@[simp] theorem setBusyErr_draws (s : State) : (setBusyErr s).draws = s.draws := rfl
@[simp] theorem setBusyErr_txSeed (s : State) : (setBusyErr s).txSeed = s.txSeed := rfl
@[simp] theorem setBusyErr_rxSeed (s : State) : (setBusyErr s).rxSeed = s.rxSeed := rfl
@[simp] theorem setBusyErr_fvalSeed (s : State) : (setBusyErr s).fvalSeed = s.fvalSeed := rfl
@[simp] theorem setBusyErr_ftagSeed (s : State) : (setBusyErr s).ftagSeed = s.ftagSeed := rfl

/-! ## `xactStart` -/

@[simp] theorem xactStart_params (s : State) : (xactStart s).params = s.params := rfl
@[simp] theorem xactStart_irqen (s : State) : (xactStart s).irqen = s.irqen := rfl
@[simp] theorem xactStart_busy (s : State) : (xactStart s).busy = s.busy := rfl
@[simp] theorem xactStart_done (s : State) : (xactStart s).done = s.done := rfl
@[simp] theorem xactStart_err (s : State) : (xactStart s).err = s.err := rfl
@[simp] theorem xactStart_busyErr (s : State) : (xactStart s).busyErr = s.busyErr := rfl
@[simp] theorem xactStart_lenWarn (s : State) : (xactStart s).lenWarn = s.lenWarn := rfl
@[simp] theorem xactStart_resync (s : State) : (xactStart s).resync = s.resync := rfl
@[simp] theorem xactStart_rxVerified (s : State) : (xactStart s).rxVerified = false := rfl
@[simp] theorem xactStart_code (s : State) : (xactStart s).code = s.code := rfl
@[simp] theorem xactStart_arg0 (s : State) : (xactStart s).arg0 = s.arg0 := rfl
@[simp] theorem xactStart_arg1 (s : State) : (xactStart s).arg1 = s.arg1 := rfl
@[simp] theorem xactStart_gap (s : State) : (xactStart s).gap = s.gap := rfl
@[simp] theorem xactStart_tmo (s : State) : (xactStart s).tmo = s.tmo := rfl
@[simp] theorem xactStart_minlen (s : State) : (xactStart s).minlen = s.minlen := rfl
@[simp] theorem xactStart_rxlen (s : State) : (xactStart s).rxlen = 0 := rfl
@[simp] theorem xactStart_res0 (s : State) : (xactStart s).res0 = s.res0 := rfl
@[simp] theorem xactStart_res1 (s : State) : (xactStart s).res1 = s.res1 := rfl
@[simp] theorem xactStart_res2 (s : State) : (xactStart s).res2 = s.res2 := rfl
@[simp] theorem xactStart_nextOff (s : State) : (xactStart s).nextOff = s.nextOff := rfl
@[simp] theorem xactStart_faultOff (s : State) : (xactStart s).faultOff = s.faultOff := rfl
@[simp] theorem xactStart_faultPc (s : State) : (xactStart s).faultPc = s.faultPc := rfl
@[simp] theorem xactStart_cnt0 (s : State) : (xactStart s).cnt0 = s.cnt0 := rfl
@[simp] theorem xactStart_cnt1 (s : State) : (xactStart s).cnt1 = s.cnt1 := rfl
@[simp] theorem xactStart_nslot (s : State) : (xactStart s).nslot = s.nslot := rfl
@[simp] theorem xactStart_rejCause (s : State) : (xactStart s).rejCause = s.rejCause := rfl
@[simp] theorem xactStart_rejHi (s : State) : (xactStart s).rejHi = s.rejHi := rfl
@[simp] theorem xactStart_rejLo (s : State) : (xactStart s).rejLo = s.rejLo := rfl
@[simp] theorem xactStart_rejcntA (s : State) : (xactStart s).rejcntA = s.rejcntA := rfl
@[simp] theorem xactStart_rejcntB (s : State) : (xactStart s).rejcntB = s.rejcntB := rfl
@[simp] theorem xactStart_rejcntC (s : State) : (xactStart s).rejcntC = s.rejcntC := rfl
@[simp] theorem xactStart_rejcntD (s : State) : (xactStart s).rejcntD = s.rejcntD := rfl
@[simp] theorem xactStart_rejcntE (s : State) : (xactStart s).rejcntE = s.rejcntE := rfl
@[simp] theorem xactStart_csacc (s : State) : (xactStart s).csacc = s.csacc := rfl
@[simp] theorem xactStart_txlen (s : State) : (xactStart s).txlen = s.txlen := rfl
@[simp] theorem xactStart_phase (s : State) : (xactStart s).phase = .tx := rfl
@[simp] theorem xactStart_accepted (s : State) : (xactStart s).accepted = false := rfl
@[simp] theorem xactStart_asm (s : State) : (xactStart s).asm = .waitFirst := rfl
@[simp] theorem xactStart_tcnt (s : State) : (xactStart s).tcnt = 0 := rfl
@[simp] theorem xactStart_txpos (s : State) : (xactStart s).txpos = 0 := rfl
@[simp] theorem xactStart_txbuf (s : State) : (xactStart s).txbuf = s.txbuf := rfl
@[simp] theorem xactStart_rxbuf (s : State) : (xactStart s).rxbuf = s.rxbuf := rfl
@[simp] theorem xactStart_layout (s : State) : (xactStart s).layout = s.layout := rfl
@[simp] theorem xactStart_fval (s : State) : (xactStart s).fval = s.fval := rfl
@[simp] theorem xactStart_ftag (s : State) : (xactStart s).ftag = s.ftag := rfl
@[simp] theorem xactStart_latCmd (s : State) : (xactStart s).latCmd = s.latCmd := rfl
@[simp] theorem xactStart_latArg0 (s : State) : (xactStart s).latArg0 = s.latArg0 := rfl
@[simp] theorem xactStart_latArg1 (s : State) : (xactStart s).latArg1 = s.latArg1 := rfl
@[simp] theorem xactStart_latGap (s : State) : (xactStart s).latGap = s.gap := rfl
@[simp] theorem xactStart_latTmo (s : State) : (xactStart s).latTmo = s.tmo := rfl
@[simp] theorem xactStart_latMinlen (s : State) : (xactStart s).latMinlen = s.minlen := rfl
@[simp] theorem xactStart_clen (s : State) : (xactStart s).clen = 0 := rfl
@[simp] theorem xactStart_c0 (s : State) : (xactStart s).c0 = s.c0 := rfl
@[simp] theorem xactStart_c1 (s : State) : (xactStart s).c1 = s.c1 := rfl
@[simp] theorem xactStart_pc (s : State) : (xactStart s).pc = s.pc := rfl
@[simp] theorem xactStart_cur (s : State) : (xactStart s).cur = s.cur := rfl
@[simp] theorem xactStart_ns (s : State) : (xactStart s).ns = s.ns := rfl
@[simp] theorem xactStart_input (s : State) : (xactStart s).input = s.input := rfl
@[simp] theorem xactStart_rdata (s : State) : (xactStart s).rdata = s.rdata := rfl
@[simp] theorem xactStart_draws (s : State) : (xactStart s).draws = s.draws := rfl
@[simp] theorem xactStart_txSeed (s : State) : (xactStart s).txSeed = s.txSeed := rfl
@[simp] theorem xactStart_rxSeed (s : State) : (xactStart s).rxSeed = s.rxSeed := rfl
@[simp] theorem xactStart_fvalSeed (s : State) : (xactStart s).fvalSeed = s.fvalSeed := rfl
@[simp] theorem xactStart_ftagSeed (s : State) : (xactStart s).ftagSeed = s.ftagSeed := rfl

/-! ## `clearInterp` -/

@[simp] theorem clearInterp_params (s : State) : (clearInterp s).params = s.params := rfl
@[simp] theorem clearInterp_irqen (s : State) : (clearInterp s).irqen = s.irqen := rfl
@[simp] theorem clearInterp_busy (s : State) : (clearInterp s).busy = s.busy := rfl
@[simp] theorem clearInterp_done (s : State) : (clearInterp s).done = s.done := rfl
@[simp] theorem clearInterp_err (s : State) : (clearInterp s).err = s.err := rfl
@[simp] theorem clearInterp_busyErr (s : State) : (clearInterp s).busyErr = s.busyErr := rfl
@[simp] theorem clearInterp_lenWarn (s : State) : (clearInterp s).lenWarn = s.lenWarn := rfl
@[simp] theorem clearInterp_resync (s : State) : (clearInterp s).resync = s.resync := rfl
@[simp] theorem clearInterp_rxVerified (s : State) : (clearInterp s).rxVerified = s.rxVerified := rfl
@[simp] theorem clearInterp_code (s : State) : (clearInterp s).code = s.code := rfl
@[simp] theorem clearInterp_arg0 (s : State) : (clearInterp s).arg0 = s.arg0 := rfl
@[simp] theorem clearInterp_arg1 (s : State) : (clearInterp s).arg1 = s.arg1 := rfl
@[simp] theorem clearInterp_gap (s : State) : (clearInterp s).gap = s.gap := rfl
@[simp] theorem clearInterp_tmo (s : State) : (clearInterp s).tmo = s.tmo := rfl
@[simp] theorem clearInterp_minlen (s : State) : (clearInterp s).minlen = s.minlen := rfl
@[simp] theorem clearInterp_rxlen (s : State) : (clearInterp s).rxlen = s.rxlen := rfl
@[simp] theorem clearInterp_res0 (s : State) : (clearInterp s).res0 = s.res0 := rfl
@[simp] theorem clearInterp_res1 (s : State) : (clearInterp s).res1 = s.res1 := rfl
@[simp] theorem clearInterp_res2 (s : State) : (clearInterp s).res2 = s.res2 := rfl
@[simp] theorem clearInterp_nextOff (s : State) : (clearInterp s).nextOff = s.nextOff := rfl
@[simp] theorem clearInterp_faultOff (s : State) : (clearInterp s).faultOff = s.faultOff := rfl
@[simp] theorem clearInterp_faultPc (s : State) : (clearInterp s).faultPc = s.faultPc := rfl
@[simp] theorem clearInterp_cnt0 (s : State) : (clearInterp s).cnt0 = s.cnt0 := rfl
@[simp] theorem clearInterp_cnt1 (s : State) : (clearInterp s).cnt1 = s.cnt1 := rfl
@[simp] theorem clearInterp_nslot (s : State) : (clearInterp s).nslot = s.nslot := rfl
@[simp] theorem clearInterp_rejCause (s : State) : (clearInterp s).rejCause = s.rejCause := rfl
@[simp] theorem clearInterp_rejHi (s : State) : (clearInterp s).rejHi = s.rejHi := rfl
@[simp] theorem clearInterp_rejLo (s : State) : (clearInterp s).rejLo = s.rejLo := rfl
@[simp] theorem clearInterp_rejcntA (s : State) : (clearInterp s).rejcntA = s.rejcntA := rfl
@[simp] theorem clearInterp_rejcntB (s : State) : (clearInterp s).rejcntB = s.rejcntB := rfl
@[simp] theorem clearInterp_rejcntC (s : State) : (clearInterp s).rejcntC = s.rejcntC := rfl
@[simp] theorem clearInterp_rejcntD (s : State) : (clearInterp s).rejcntD = s.rejcntD := rfl
@[simp] theorem clearInterp_rejcntE (s : State) : (clearInterp s).rejcntE = s.rejcntE := rfl
@[simp] theorem clearInterp_csacc (s : State) : (clearInterp s).csacc = s.csacc := rfl
@[simp] theorem clearInterp_txlen (s : State) : (clearInterp s).txlen = s.txlen := rfl
@[simp] theorem clearInterp_phase (s : State) : (clearInterp s).phase = s.phase := rfl
@[simp] theorem clearInterp_accepted (s : State) : (clearInterp s).accepted = s.accepted := rfl
@[simp] theorem clearInterp_asm (s : State) : (clearInterp s).asm = s.asm := rfl
@[simp] theorem clearInterp_tcnt (s : State) : (clearInterp s).tcnt = s.tcnt := rfl
@[simp] theorem clearInterp_txpos (s : State) : (clearInterp s).txpos = s.txpos := rfl
@[simp] theorem clearInterp_txbuf (s : State) : (clearInterp s).txbuf = s.txbuf := rfl
@[simp] theorem clearInterp_rxbuf (s : State) : (clearInterp s).rxbuf = s.rxbuf := rfl
@[simp] theorem clearInterp_layout (s : State) : (clearInterp s).layout = s.layout := rfl
@[simp] theorem clearInterp_fval (s : State) : (clearInterp s).fval = s.fval := rfl
@[simp] theorem clearInterp_ftag (s : State) : (clearInterp s).ftag = s.ftag := rfl
@[simp] theorem clearInterp_latCmd (s : State) : (clearInterp s).latCmd = s.latCmd := rfl
@[simp] theorem clearInterp_latArg0 (s : State) : (clearInterp s).latArg0 = s.latArg0 := rfl
@[simp] theorem clearInterp_latArg1 (s : State) : (clearInterp s).latArg1 = s.latArg1 := rfl
@[simp] theorem clearInterp_latGap (s : State) : (clearInterp s).latGap = s.latGap := rfl
@[simp] theorem clearInterp_latTmo (s : State) : (clearInterp s).latTmo = s.latTmo := rfl
@[simp] theorem clearInterp_latMinlen (s : State) : (clearInterp s).latMinlen = s.latMinlen := rfl
@[simp] theorem clearInterp_clen (s : State) : (clearInterp s).clen = s.clen := rfl
@[simp] theorem clearInterp_c0 (s : State) : (clearInterp s).c0 = s.c0 := rfl
@[simp] theorem clearInterp_c1 (s : State) : (clearInterp s).c1 = s.c1 := rfl
@[simp] theorem clearInterp_pc (s : State) : (clearInterp s).pc = 0 := rfl
@[simp] theorem clearInterp_cur (s : State) : (clearInterp s).cur = 0 := rfl
@[simp] theorem clearInterp_ns (s : State) : (clearInterp s).ns = 0 := rfl
@[simp] theorem clearInterp_input (s : State) : (clearInterp s).input = s.input := rfl
@[simp] theorem clearInterp_rdata (s : State) : (clearInterp s).rdata = s.rdata := rfl
@[simp] theorem clearInterp_draws (s : State) : (clearInterp s).draws = s.draws := rfl
@[simp] theorem clearInterp_txSeed (s : State) : (clearInterp s).txSeed = s.txSeed := rfl
@[simp] theorem clearInterp_rxSeed (s : State) : (clearInterp s).rxSeed = s.rxSeed := rfl
@[simp] theorem clearInterp_fvalSeed (s : State) : (clearInterp s).fvalSeed = s.fvalSeed := rfl
@[simp] theorem clearInterp_ftagSeed (s : State) : (clearInterp s).ftagSeed = s.ftagSeed := rfl

end Sys2Proof.Machine
end

