-- ==== Sys2Proof/Laws/Fields.lean ====
section
/-! SUPPORT. What a field read answers (43_field_extract.md R181), in the terms of Sys2Proof/Safety.lean, and what one
slot of the record parser costs (44_record_parser.md R202 to R206). -/

namespace Sys2Proof.Machine

/-! ## The field read -/

theorem digitAt_lt (s : State) (i : Nat) : digitAt s i < 16 := by
  unfold digitAt
  cases h : digit (hx s i) with
  | none => exact Nat.zero_lt_succ _
  | some d => exact digit_lt h

/-- One more digit is one more base-16 place (R64). -/
theorem valueAt_succ (s : State) (o w : Nat) : valueAt s o (w + 1) = valueAt s o w * 16 + digitAt s (o + w) := by
  unfold valueAt
  rw [Finset.sum_range_succ, Finset.sum_mul]
  congr 1
  · refine Finset.sum_congr rfl fun k hk => ?_
    have hk := Finset.mem_range.1 hk
    rw [Nat.mul_assoc, ← Nat.pow_succ]
    congr 2
    omega
  · simp

theorem valueAt_lt (s : State) (o w : Nat) : valueAt s o w < 2 ^ (4 * w) := by
  induction w with
  | zero => simp [valueAt]
  | succ w ih =>
    have := digitAt_lt s (o + w)
    rw [valueAt_succ, show 4 * (w + 1) = 4 * w + 4 by omega, Nat.pow_add]
    omega

theorem hxDigits_succ (s : State) (o w : Nat) : hxDigits s o (w + 1) = hxDigits s o w ++ [hx s (o + w)] := by
  simp only [hxDigits, List.range_succ, List.map_append, List.map_cons, List.map_nil]

/-- A field whose digits are all hex digits reads as the sum of R64. -/
theorem hexValue_hxDigits {s : State} {o w : Nat} (h : hexAt s o w) :
    hexValue (hxDigits s o w) = some (valueAt s o w) := by
  induction w with
  | zero => rfl
  | succ w ih =>
    rw [hxDigits_succ, hexValue, hexFrom_append]
    rw [show hexFrom 0 (hxDigits s o w) = _ from ih fun k hk => h k (by omega)]
    obtain ⟨d, hd⟩ := Option.isSome_iff_exists.1 (h w (by omega))
    have : digitAt s (o + w) = d := by simp [digitAt, hd]
    simp only [Option.bind_some, hexFrom, hd, valueAt_succ, this]

/-- A field with a digit that is no hex digit has no value. -/
theorem hexValue_hxDigits_none {s : State} {o w : Nat} (h : ¬hexAt s o w) : hexValue (hxDigits s o w) = none := by
  induction w with
  | zero => exact absurd (fun k hk => absurd hk (Nat.not_lt_zero k)) h
  | succ w ih =>
    rw [hxDigits_succ, hexValue, hexFrom_append]
    by_cases hw : hexAt s o w
    · rw [show hexFrom 0 (hxDigits s o w) = _ from hexValue_hxDigits hw]
      have hd : digit (hx s (o + w)) = none := by
        by_contra hn
        refine h fun k hk => ?_
        rcases Nat.lt_succ_iff_lt_or_eq.1 hk with hk | rfl
        · exact hw k hk
        · exact Option.isSome_iff_ne_none.2 hn
      simp only [Option.bind_some, hexFrom, hd]
    · rw [show hexFrom 0 (hxDigits s o w) = _ from ih hw]
      rfl

/-- The read primitive on a legal field (R181). -/
theorem readField_ok {s : State} {o w : Nat} (sgn : Bool) (h1 : 1 ≤ w) (h8 : w ≤ 8) (hr : o + w ≤ s.rxlen.toNat - 2)
    (hd : hexAt s o w) : readField s o w sgn = .ok (fieldAt s o w sgn) := by
  unfold readField
  rw [if_neg (by simp only [Config.maxDigits]; omega), if_neg (by simp only [hxLen]; omega), hexValue_hxDigits hd]
  unfold fieldAt signFold
  cases sgn <;> simp

theorem readField_badWidth {s : State} {o w : Nat} (sgn : Bool) (h : w = 0 ∨ 8 < w) :
    readField s o w sgn = .error .badWidth := by
  unfold readField
  rw [if_pos h]

theorem readField_range {s : State} {o w : Nat} (sgn : Bool) (h1 : 1 ≤ w) (h8 : w ≤ 8) (h : s.rxlen.toNat - 2 < o + w) :
    readField s o w sgn = .error .range := by
  unfold readField
  rw [if_neg (by simp only [Config.maxDigits]; omega)]
  exact if_pos h

theorem readField_notHex {s : State} {o w : Nat} (sgn : Bool) (h1 : 1 ≤ w) (h8 : w ≤ 8)
    (hr : o + w ≤ s.rxlen.toNat - 2) (hd : ¬hexAt s o w) : readField s o w sgn = .error .notHex := by
  unfold readField
  rw [if_neg (by simp only [Config.maxDigits]; omega), if_neg (by simp only [hxLen]; omega), hexValue_hxDigits_none hd]

/-- What a read can answer: a value of a legal field, or one of the three faults, each where R181 raises it. -/
theorem readField_cases (s : State) (o w : Nat) (sgn : Bool) :
    (readField s o w sgn = .error .badWidth ∧ (w = 0 ∨ 8 < w)) ∨
    (readField s o w sgn = .error .range ∧ 1 ≤ w ∧ w ≤ 8 ∧ s.rxlen.toNat - 2 < o + w) ∨
    (readField s o w sgn = .error .notHex ∧ 1 ≤ w ∧ w ≤ 8 ∧ o + w ≤ s.rxlen.toNat - 2 ∧ ¬hexAt s o w) ∨
    (readField s o w sgn = .ok (fieldAt s o w sgn) ∧ 1 ≤ w ∧ w ≤ 8 ∧ o + w ≤ s.rxlen.toNat - 2 ∧ hexAt s o w) := by
  by_cases h : w = 0 ∨ 8 < w
  · exact .inl ⟨readField_badWidth sgn h, h⟩
  by_cases hr : s.rxlen.toNat - 2 < o + w
  · exact .inr (.inl ⟨readField_range sgn (by omega) (by omega) hr, by omega, by omega, hr⟩)
  by_cases hd : hexAt s o w
  · exact .inr (.inr (.inr ⟨readField_ok sgn (by omega) (by omega) (by omega) hd, by omega, by omega, by omega, hd⟩))
  · exact .inr (.inr (.inl ⟨readField_notHex sgn (by omega) (by omega) (by omega) hd, by omega, by omega, by omega, hd⟩))

/-- Two states with the same frame length and the same RXBUF read the same fields. -/
theorem hx_congr {s t : State} (hb : t.rxbuf = s.rxbuf) (hs : t.rxSeed = s.rxSeed) (i : Nat) : hx t i = hx s i := by
  simp only [hx, rxRead, hb, hs]

theorem readField_congr {s t : State} (hl : t.rxlen = s.rxlen) (hb : t.rxbuf = s.rxbuf) (hs : t.rxSeed = s.rxSeed)
    (o w : Nat) (sgn : Bool) : readField t o w sgn = readField s o w sgn := by
  unfold readField hxLen hxDigits
  rw [hl, funext (hx_congr hb hs)]

theorem fieldAt_congr {s t : State} (hb : t.rxbuf = s.rxbuf) (hs : t.rxSeed = s.rxSeed) (o w : Nat) (sgn : Bool) :
    fieldAt t o w sgn = fieldAt s o w sgn := by
  unfold fieldAt valueAt digitAt
  rw [funext (hx_congr hb hs)]

/-! ## Slots -/

theorem fvalRead_insert (s : State) (i j : Nat) (v : Word) :
    fvalRead { s with fval := Memory.insert s.fval i v } j = if j = i then v else fvalRead s j := by
  simp only [fvalRead, Memory.lookup_insert]
  split_ifs <;> rfl

theorem ftagRead_insert (s : State) (i j : Nat) (v : Word) :
    ftagRead { s with ftag := Memory.insert s.ftag i v } j = if j = i then v else ftagRead s j := by
  simp only [ftagRead, Memory.lookup_insert]
  split_ifs <;> rfl

/-- The FTAG word is the sum of its fields (R110, R202). -/
theorem tagWord_eq_tagValue (fid : Byte) (pc : Nat) (sgn : Bool) (dsel : BitVec 2) (kind : BitVec 3) (e : Nat) :
    tagWord fid pc sgn dsel kind e = tagValue fid pc sgn dsel kind.toNat e := by
  apply BitVec.eq_of_toNat_eq
  have h1 := fid.isLt
  have h2 := dsel.isLt
  have h3 := kind.isLt
  have h4 : sgn.toNat < 2 := Bool.toNat_lt sgn
  have h5 : pc % 128 < 128 := Nat.mod_lt _ (by decide)
  have h6 : e % 2048 < 2048 := Nat.mod_lt _ (by decide)
  simp only [tagWord, tagValue, BitVec.toNat_append, BitVec.toNat_ofNat, BitVec.toNat_ofBool]
  rw [← Nat.shiftLeft_add_eq_or_of_lt (by omega), ← Nat.shiftLeft_add_eq_or_of_lt (by omega),
    ← Nat.shiftLeft_add_eq_or_of_lt (by omega), ← Nat.shiftLeft_add_eq_or_of_lt (by omega),
    ← Nat.shiftLeft_add_eq_or_of_lt (by omega)]
  simp only [Nat.shiftLeft_eq]
  norm_num
  omega

/-- Emission with a free slot: the slot is written, the cursor moves on (R202). -/
theorem emit_more {s : State} (v tag : Word) (adv : Nat) (h : s.ns < 1024) :
    emit v tag adv s = .more { s with fval := Memory.insert s.fval s.ns v, ftag := Memory.insert s.ftag s.ns tag,
                                      ns := s.ns + 1, cur := s.cur + adv } := by
  unfold emit
  rw [if_neg (by simp only [Config.fieldSlots]; omega)]

theorem emit_full {s : State} (v tag : Word) (adv : Nat) (h : 1024 ≤ s.ns) :
    emit v tag adv s = .stop (pfault .slotOvf s.cur s) := by
  unfold emit
  rw [if_pos h]

/-- A field of a VAL or a REP that is read and has a free slot (R204, R206). -/
theorem takeField_more {s : State} {wid : BitVec 4} (sgn add1 : Bool) (tag : Word) (h1 : 1 ≤ wid.toNat)
    (h8 : wid.toNat ≤ 8) (hr : s.cur + wid.toNat ≤ s.rxlen.toNat - 2) (hd : hexAt s s.cur wid.toNat) (hn : s.ns < 1024) :
    takeField wid sgn add1 tag s =
      .more { s with fval := Memory.insert s.fval s.ns (word32 (fieldAt s s.cur wid.toNat sgn + addOne add1)),
                     ftag := Memory.insert s.ftag s.ns tag, ns := s.ns + 1, cur := s.cur + wid.toNat } := by
  unfold takeField
  rw [readField_ok sgn h1 h8 hr hd]
  exact emit_more _ _ _ hn

/-- Everything a VAL or REP field can do: one slot more, or the fault of the read, or SLOT_OVF. -/
theorem takeField_cases (wid : BitVec 4) (sgn add1 : Bool) (tag : Word) (s : State) :
    (∃ c, takeField wid sgn add1 tag s = .stop (pfault c s.cur s) ∧ c ≠ .ok) ∨
    (s.ns < 1024 ∧ ∃ v, takeField wid sgn add1 tag s =
      .more { s with fval := Memory.insert s.fval s.ns v, ftag := Memory.insert s.ftag s.ns tag, ns := s.ns + 1,
                     cur := s.cur + wid.toNat }) := by
  unfold takeField
  rcases readField_cases s s.cur wid.toNat sgn with ⟨h, _⟩ | ⟨h, _⟩ | ⟨h, _⟩ | ⟨h, _⟩
  · exact .inl ⟨.badWidth, by rw [h], by decide⟩
  · exact .inl ⟨.range, by rw [h], by decide⟩
  · exact .inl ⟨.notHex, by rw [h], by decide⟩
  · rw [h]
    by_cases hn : s.ns < 1024
    · exact .inr ⟨hn, _, emit_more _ _ _ hn⟩
    · exact .inl ⟨.slotOvf, emit_full _ _ _ (by omega), by decide⟩

/-- A PARSE fault, in the terms of the statements (R201, R212). -/
theorem pfault_eq {c : Code} (hc : c ≠ .ok) (off : Nat) (s : State) : pfault c off s = parseFaulted c off s := by
  have e0 : parseStart s = s.latArg0.toNat % 65536 := by simp [parseStart]
  have e1 : parseNom s = s.latArg1.toNat % 65536 := by simp [parseNom]
  simp only [pfault, parseFaulted, faulted, complete, clearInterp, e0, e1, hc, ne_eq, not_false_eq_true, decide_true,
    Bool.or_true, decide_not]
  congr 2
  split_ifs with h
  · rw [h, Nat.add_zero]
  · rfl

end Sys2Proof.Machine
end

