-- ==== Sys2Proof/Laws/Parser.lean ====
section
/-! SUPPORT. Everything a pass of PARSE's loop and a whole PARSE can do (44_record_parser.md R200 to R213): the slots
only grow, only the interpreter's registers and the slots change before completion, and PARSE ends in `finish` or in one
fault. -/

namespace Sys2Proof.Machine

/-- `t` is `s` after some more slots: only the slots and the interpreter's registers differ, and the slots that `t` has
not counted are as in `s`. -/
structure SlotsGrow (s t : State) : Prop where
  frame : t = { s with fval := t.fval, ftag := t.ftag, ns := t.ns, cur := t.cur, pc := t.pc, c0 := t.c0, c1 := t.c1 }
  le : s.ns ≤ t.ns
  bound : s.ns ≤ 1024 → t.ns ≤ 1024
  fval : ∀ i, t.ns ≤ i → fvalRead t i = fvalRead s i
  ftag : ∀ i, t.ns ≤ i → ftagRead t i = ftagRead s i
  fvalWf : s.ns ≤ 1024 → Memory.wf 1024 s.fval → Memory.wf 1024 t.fval
  ftagWf : s.ns ≤ 1024 → Memory.wf 1024 s.ftag → Memory.wf 1024 t.ftag

theorem SlotsGrow.refl (s : State) : SlotsGrow s s :=
  ⟨rfl, le_refl _, id, fun _ _ => rfl, fun _ _ => rfl, fun _ => id, fun _ => id⟩

theorem SlotsGrow.trans {s t u : State} (h1 : SlotsGrow s t) (h2 : SlotsGrow t u) : SlotsGrow s u where
  frame := by
    have e1 := h1.frame
    have e2 := h2.frame
    rw [e1] at e2
    exact e2
  le := le_trans h1.le h2.le
  bound h := h2.bound (h1.bound h)
  fval i hi := (h2.fval i hi).trans (h1.fval i (le_trans h2.le hi))
  ftag i hi := (h2.ftag i hi).trans (h1.ftag i (le_trans h2.le hi))
  fvalWf h hw := h2.fvalWf (h1.bound h) (h1.fvalWf h hw)
  ftagWf h hw := h2.ftagWf (h1.bound h) (h1.ftagWf h hw)

/-- Moving the interpreter's registers writes no slot. -/
theorem SlotsGrow.regs (s : State) (pc : Nat) (c0 c1 : Word) : SlotsGrow s { s with pc := pc, c0 := c0, c1 := c1 } :=
  ⟨rfl, le_refl _, id, fun _ _ => rfl, fun _ _ => rfl, fun _ => id, fun _ => id⟩

theorem SlotsGrow.slot {s : State} (h : s.ns < 1024) (v tag : Word) (cur : Nat) :
    SlotsGrow s { s with fval := Memory.insert s.fval s.ns v, ftag := Memory.insert s.ftag s.ns tag, ns := s.ns + 1,
                         cur := cur } where
  frame := rfl
  le := Nat.le_succ _
  bound _ := h
  fval i hi := (fvalRead_insert s s.ns i v).trans (if_neg (by have : s.ns + 1 ≤ i := hi; omega))
  ftag i hi := (ftagRead_insert s s.ns i tag).trans (if_neg (by have : s.ns + 1 ≤ i := hi; omega))
  fvalWf _ hw := Memory.wf_insert h hw
  ftagWf _ hw := Memory.wf_insert h hw

theorem setCount_grow (csel : Bool) (v : Word) (s : State) : SlotsGrow s (setCount csel v s) := by
  cases csel
  · exact SlotsGrow.regs s s.pc v s.c1
  · exact SlotsGrow.regs s s.pc s.c0 v

/-- What a step of the interpreter can be, from the state `s` of the descriptor at `s.pc`: it goes on with more slots at
the next descriptor, or it faults at a cursor with the slots written so far, or it finishes the record as it stands. -/
inductive Pass (s : State) (next : Nat) : Cont → Prop where
  | more (t : State) (h : SlotsGrow s t) (hpc : t.pc = next) : Pass s next (.more t)
  | fault (c : Code) (u : State) (hc : c ≠ .ok) (h : SlotsGrow s u) (hpc : u.pc = s.pc) :
      Pass s next (.stop (pfault c u.cur u))
  | done : Pass s next (.stop (finish s))

theorem emit_pass {s u : State} (h : SlotsGrow s u) (hpc : u.pc = s.pc) (v tag : Word) (adv : Nat) :
    Pass s s.pc (emit v tag adv u) := by
  by_cases hn : u.ns < 1024
  · rw [emit_more _ _ _ hn]
    exact .more _ (h.trans (.slot hn v tag _)) hpc
  · rw [emit_full _ _ _ (by omega)]
    exact .fault _ u (by decide) h hpc

theorem takeField_pass {s u : State} (h : SlotsGrow s u) (hpc : u.pc = s.pc) (wid : BitVec 4) (sgn add1 : Bool)
    (tag : Word) : Pass s s.pc (takeField wid sgn add1 tag u) := by
  rcases takeField_cases wid sgn add1 tag u with ⟨c, e, hc⟩ | ⟨hn, v, e⟩
  · rw [e]
    exact .fault c u hc h hpc
  · rw [e]
    exact .more _ (h.trans (.slot hn v tag _)) hpc

theorem repLoop_pass (wid : BitVec 4) (sgn : Bool) (dsel : BitVec 2) (add1 : Bool) (fid : Byte) {s : State} (n : Nat) :
    ∀ (e : Nat) (u : State), SlotsGrow s u → u.pc = s.pc → Pass s s.pc (repLoop wid sgn dsel add1 fid n e u) := by
  induction n with
  | zero => intro e u h hpc; exact .more _ h hpc
  | succ n ih =>
    intro e u h hpc
    rw [repLoop]
    have hp := takeField_pass h hpc wid sgn add1 (tagWord fid u.pc sgn dsel 3 e)
    generalize takeField wid sgn add1 (tagWord fid u.pc sgn dsel 3 e) u = c at hp
    cases hp with
    | more t ht htp => exact ih (e + 1) t ht htp
    | fault c v hc hv hvp => exact .fault c v hc hv hvp
    | done => exact .done

theorem advance_pass {s : State} {c : Cont} (h : Pass s s.pc c) : Pass s (s.pc + 1) (advance c) := by
  cases h with
  | more t ht hpc => exact .more _ (ht.trans (.regs t (t.pc + 1) t.c0 t.c1)) (by show t.pc + 1 = _; rw [hpc])
  | fault c u hc hu hpc => exact .fault c u hc hu hpc
  | done => exact .done

/-- Everything one pass of PARSE's loop can do. -/
theorem descStep_pass (d : Word) (s : State) : Pass s (s.pc + 1) (descStep d s) := by
  have fault : ∀ c, c ≠ .ok → Pass s (s.pc + 1) (.stop (pfault c s.cur s)) := fun c hc => .fault c s hc (.refl s) rfl
  unfold descStep
  split
  · exact .done
  · exact advance_pass (takeField_pass (.refl s) rfl _ _ _ _)
  · rw [stepCnt]
    split
    · rename_i c hc
      refine fault c fun e => ?_
      subst e
      rcases readField_cases s s.cur (descWid d).toNat false with ⟨h, _⟩ | ⟨h, _⟩ | ⟨h, _⟩ | ⟨h, _⟩ <;> rw [h] at hc <;>
        cases hc
    · refine advance_pass (emit_pass (setCount_grow _ _ s) ?_ _ _ _)
      cases descCsel d <;> rfl
  · rw [stepRep]
    split
    · exact fault _ (by decide)
    · exact advance_pass (repLoop_pass _ _ _ _ _ _ 0 s (.refl s) rfl)
  · rw [stepOpq]
    split
    · exact fault _ (by decide)
    · exact advance_pass (emit_pass (.refl s) rfl _ _ _)
  · exact fault _ (by decide)

/-- A pass is the meaning of the descriptor that the word decodes to (R105). -/
theorem exec_decodeDesc (d : Word) (s : State) : exec (decodeDesc d) s = .next (descStep d s).state := by
  unfold decodeDesc descStep
  rcases (descKind d).toNat with _ | _ | _ | _ | _ | _ | _ <;> rfl

/-- How PARSE ends, from the state `s` of its interpreter: `finish`, or one fault, on the slots written so far. -/
inductive ParseEnd (s : State) : State → Prop where
  | done (u : State) (h : SlotsGrow s u) (hpc : u.pc < 128) : ParseEnd s (finish u)
  | fault (c : Code) (u : State) (hc : c ≠ .ok) (h : SlotsGrow s u) (hpc : u.pc ≤ 128) :
      ParseEnd s (pfault c u.cur u)

theorem parseLoop_end (n : Nat) : ∀ s : State, s.pc + n = 128 → ParseEnd s (parseLoop n s) := by
  induction n with
  | zero => intro s h; exact .fault _ s (by decide) (.refl s) (by omega)
  | succ n ih =>
    intro s h
    rw [parseLoop]
    have hp := descStep_pass (layoutRead s s.pc) s
    generalize descStep (layoutRead s s.pc) s = c at hp
    cases hp with
    | more t ht hpc =>
      show ParseEnd s (parseLoop n t)
      have := ih t (by omega)
      generalize parseLoop n t = r at this
      cases this with
      | done u hu hup => exact .done u (ht.trans hu) hup
      | fault c u hc hu hup => exact .fault c u hc (ht.trans hu) hup
    | fault c u hc hu hpc => exact .fault c u hc hu (by omega)
    | done => exact .done s (.refl s) (by omega)

/-- Everything a PARSE from a legal descriptor index can do. -/
theorem parseFrom_end {s : State} (h : s.pc ≤ 128) : ParseEnd s (parseFrom s) :=
  parseLoop_end _ s (by simp only [Config.layoutWords]; omega)

theorem parse_end (didx : BitVec 7) (s : State) : (s.rxVerified = true ∧ ParseEnd (parseInit didx s) (parse didx s)) ∨
    (s.rxVerified = false ∧ parse didx s = pfault .unverified (parseStart s) (parseInit didx s)) := by
  have := didx.isLt
  unfold parse
  cases hv : s.rxVerified
  · exact .inr ⟨rfl, rfl⟩
  · exact .inl ⟨rfl, parseFrom_end (by show didx.toNat ≤ 128; omega)⟩

/-! ## Running a layout program -/

/-- One pass of the loop (R201). -/
theorem parseFrom_step {s : State} (hp : s.pc < 128) :
    parseFrom s = match descStep (layoutRead s s.pc) s with
      | .stop t => t
      | .more t => parseLoop (127 - s.pc) t := by
  rw [parseFrom, show Config.layoutWords - s.pc = (127 - s.pc) + 1 by simp only [Config.layoutWords]; omega, parseLoop]
  all_goals cases descStep (layoutRead s s.pc) s <;> rfl

theorem parseFrom_more {s t : State} (hp : s.pc < 128) (h : descStep (layoutRead s s.pc) s = .more t)
    (ht : t.pc = s.pc + 1) : parseFrom s = parseFrom t := by
  rw [parseFrom_step hp, h, parseFrom, show Config.layoutWords - t.pc = 127 - s.pc by
    simp only [Config.layoutWords]; omega]

theorem parseFrom_stop {s t : State} (hp : s.pc < 128) (h : descStep (layoutRead s s.pc) s = .stop t) :
    parseFrom s = t := by
  rw [parseFrom_step hp, h]

/-- PARSE over a VAL whose field is readable and has a free slot (R204). -/
theorem parseFrom_val {s : State} {d : Word} (hp : s.pc < 128) (hd : layoutRead s s.pc = d) (hk : (descKind d).toNat = 1)
    (h1 : 1 ≤ (descWid d).toNat) (h8 : (descWid d).toNat ≤ 8) (hr : s.cur + (descWid d).toNat ≤ s.rxlen.toNat - 2)
    (hx : hexAt s s.cur (descWid d).toNat) (hn : s.ns < 1024) :
    parseFrom s = parseFrom
      { s with fval := Memory.insert s.fval s.ns
                 (word32 (fieldAt s s.cur (descWid d).toNat (descSgn d) + addOne (descAdd1 d))),
               ftag := Memory.insert s.ftag s.ns (tagWord (descFid d) s.pc (descSgn d) (descDsel d) 1 0),
               ns := s.ns + 1, cur := s.cur + (descWid d).toNat, pc := s.pc + 1 } := by
  refine parseFrom_more hp ?_ rfl
  rw [hd, descStep, hk]
  show stepVal _ _ _ _ _ s = _
  rw [stepVal, takeField_more _ _ _ h1 h8 hr hx hn]
  rfl

/-- PARSE over an OPQ whose span lies in the frame and that has a free slot (R207). -/
theorem parseFrom_opq {s : State} {d : Word} (hp : s.pc < 128) (hd : layoutRead s s.pc = d) (hk : (descKind d).toNat = 4)
    (hr : s.cur + (descLen d).toNat ≤ s.rxlen.toNat - 2) (hn : s.ns < 1024) :
    parseFrom s = parseFrom
      { s with fval := Memory.insert s.fval s.ns (BitVec.ofNat 32 s.cur),
               ftag := Memory.insert s.ftag s.ns (tagWord (descFid d) s.pc false 0 4 0),
               ns := s.ns + 1, cur := s.cur + (descLen d).toNat, pc := s.pc + 1 } := by
  refine parseFrom_more hp ?_ rfl
  rw [hd, descStep, hk]
  show stepOpq _ _ s = _
  rw [stepOpq, if_neg (by simp only [hxLen]; omega), emit_more _ _ _ hn]
  rfl

/-- PARSE at an END finishes the record (R203). -/
theorem parseFrom_endRec {s : State} (hp : s.pc < 128) (hk : (descKind (layoutRead s s.pc)).toNat = 0) :
    parseFrom s = finish s := by
  refine parseFrom_stop hp ?_
  rw [descStep, hk]
  rfl

/-! ## A whole run of fields -/

/-- The first `k` elements of a REP run, where their fields are readable and have free slots (R206): one slot and one
field's width per element, in order; the run goes on at element `k`. -/
theorem repLoop_prefix (wid : BitVec 4) (sgn : Bool) (dsel : BitVec 2) (add1 : Bool) (fid : Byte) (h1 : 1 ≤ wid.toNat)
    (h8 : wid.toNat ≤ 8) (k : Nat) : ∀ (n e : Nat) (s : State), (k ≠ 0 → s.cur + k * wid.toNat ≤ s.rxlen.toNat - 2) →
      hexAt s s.cur (k * wid.toNat) → s.ns + k ≤ 1024 →
      ∃ t, repLoop wid sgn dsel add1 fid (k + n) e s = repLoop wid sgn dsel add1 fid n (e + k) t ∧
        t = { s with fval := t.fval, ftag := t.ftag, ns := s.ns + k, cur := s.cur + k * wid.toNat } ∧
        (∀ j, j < k → fvalRead t (s.ns + j) = word32 (fieldAt s (s.cur + j * wid.toNat) wid.toNat sgn + addOne add1) ∧
          ftagRead t (s.ns + j) = tagWord fid s.pc sgn dsel 3 (e + j)) ∧
        (∀ i, i < s.ns ∨ s.ns + k ≤ i → fvalRead t i = fvalRead s i ∧ ftagRead t i = ftagRead s i) := by
  induction k with
  | zero =>
    intro n e s _ _ _
    exact ⟨s, by rw [Nat.zero_add, Nat.add_zero], by simp, fun j hj => absurd hj (Nat.not_lt_zero j), fun _ _ => ⟨rfl, rfl⟩⟩
  | succ k ih =>
    intro n e s hr hx hn
    have hm : (k + 1) * wid.toNat = k * wid.toNat + wid.toNat := Nat.succ_mul _ _
    have hr := hr (Nat.succ_ne_zero k)
    rw [show k + 1 + n = (k + n) + 1 by omega, repLoop,
      takeField_more sgn add1 _ h1 h8 (by omega) (fun j hj => hx j (by omega)) (by omega)]
    set u : State :=
      { s with fval := Memory.insert s.fval s.ns (word32 (fieldAt s s.cur wid.toNat sgn + addOne add1)),
               ftag := Memory.insert s.ftag s.ns (tagWord fid s.pc sgn dsel 3 e), ns := s.ns + 1,
               cur := s.cur + wid.toNat } with hu
    obtain ⟨t, h2, h3, h4, h5⟩ := ih n (e + 1) u (fun _ => by show s.cur + wid.toNat + _ ≤ s.rxlen.toNat - 2; omega)
      (fun j hj => by have := hx (wid.toNat + j) (by omega); rwa [← Nat.add_assoc] at this)
      (by show s.ns + 1 + k ≤ 1024; omega)
    have f0 : ∀ i, fvalRead u i = if i = s.ns then _ else fvalRead s i := fun i => fvalRead_insert s s.ns i _
    have g0 : ∀ i, ftagRead u i = if i = s.ns then _ else ftagRead s i := fun i => ftagRead_insert s s.ns i _
    refine ⟨t, ?_, ?_, fun j hj => ?_, fun i hi => ?_⟩
    · rw [show e + (k + 1) = e + 1 + k by omega]
      exact h2
    · rw [h3, hm]
      simp only [hu, State.mk.injEq, true_and, and_true]
      omega
    · cases j with
      | zero =>
        have := h5 s.ns (.inl (Nat.lt_succ_self _))
        rw [f0, g0, if_pos rfl, if_pos rfl] at this
        simpa using this
      | succ j =>
        have := h4 j (by omega)
        rw [show s.ns + (j + 1) = u.ns + j by show _ = s.ns + 1 + j; omega]
        refine ⟨this.1.trans ?_, this.2.trans ?_⟩
        · rw [fieldAt_congr (s := s) (t := u) rfl rfl, show u.cur + j * wid.toNat = s.cur + (j + 1) * wid.toNat by
            show s.cur + wid.toNat + _ = _; rw [Nat.succ_mul]; omega]
        · rw [show e + 1 + j = e + (j + 1) by omega]
    · have := h5 i (by rcases hi with hi | hi; · left; show i < s.ns + 1; omega
                       · right; show s.ns + 1 + k ≤ i; omega)
      rw [f0, g0, if_neg (by omega), if_neg (by omega)] at this
      exact this

/-- A REP run whose fields are all readable and have free slots (R206). -/
theorem repLoop_more (wid : BitVec 4) (sgn : Bool) (dsel : BitVec 2) (add1 : Bool) (fid : Byte) (h1 : 1 ≤ wid.toNat)
    (h8 : wid.toNat ≤ 8) (n e : Nat) (s : State) (hr : n ≠ 0 → s.cur + n * wid.toNat ≤ s.rxlen.toNat - 2)
    (hx : hexAt s s.cur (n * wid.toNat)) (hn : s.ns + n ≤ 1024) :
    ∃ t, repLoop wid sgn dsel add1 fid n e s = .more t ∧
      t = { s with fval := t.fval, ftag := t.ftag, ns := s.ns + n, cur := s.cur + n * wid.toNat } ∧
      (∀ j, j < n → fvalRead t (s.ns + j) = word32 (fieldAt s (s.cur + j * wid.toNat) wid.toNat sgn + addOne add1) ∧
        ftagRead t (s.ns + j) = tagWord fid s.pc sgn dsel 3 (e + j)) ∧
      (∀ i, i < s.ns ∨ s.ns + n ≤ i → fvalRead t i = fvalRead s i ∧ ftagRead t i = ftagRead s i) := by
  obtain ⟨t, h, ht⟩ := repLoop_prefix wid sgn dsel add1 fid h1 h8 n 0 e s hr hx hn
  exact ⟨t, h, ht⟩

/-- PARSE over a CNT whose field is readable and has a free slot (R205). -/
theorem parseFrom_cnt {s : State} {d : Word} (hp : s.pc < 128) (hd : layoutRead s s.pc = d) (hk : (descKind d).toNat = 2)
    (h1 : 1 ≤ (descWid d).toNat) (h8 : (descWid d).toNat ≤ 8) (hr : s.cur + (descWid d).toNat ≤ s.rxlen.toNat - 2)
    (hx : hexAt s s.cur (descWid d).toNat) (hn : s.ns < 1024) :
    parseFrom s = parseFrom
      { s with fval := Memory.insert s.fval s.ns (word32 (fieldAt s s.cur (descWid d).toNat false)),
               ftag := Memory.insert s.ftag s.ns (tagWord (descFid d) s.pc false 0 2 0),
               ns := s.ns + 1, cur := s.cur + (descWid d).toNat, pc := s.pc + 1,
               c0 := if descCsel d then s.c0 else word32 (fieldAt s s.cur (descWid d).toNat false),
               c1 := if descCsel d then word32 (fieldAt s s.cur (descWid d).toNat false) else s.c1 } := by
  refine parseFrom_more hp ?_ rfl
  rw [hd, descStep, hk]
  show stepCnt _ _ _ s = _
  rw [stepCnt, readField_ok false h1 h8 hr hx]
  dsimp only
  cases descCsel d <;> rw [emit_more _ _ _ (by exact hn)] <;> rfl

/-- PARSE over a REP whose whole run is readable and has free slots (R206). -/
theorem parseFrom_rep {s : State} {d : Word} {n : Nat} (hp : s.pc < 128) (hd : layoutRead s s.pc = d)
    (hk : (descKind d).toNat = 3) (h1 : 1 ≤ (descWid d).toNat) (h8 : (descWid d).toNat ≤ 8)
    (hc : (countReg (descCsel d) s).toNat = n) (hr : n ≠ 0 → s.cur + n * (descWid d).toNat ≤ s.rxlen.toNat - 2)
    (hx : hexAt s s.cur (n * (descWid d).toNat)) (hn : s.ns + n ≤ 1024) :
    ∃ t, parseFrom s = parseFrom { t with pc := s.pc + 1 } ∧
      t = { s with fval := t.fval, ftag := t.ftag, ns := s.ns + n, cur := s.cur + n * (descWid d).toNat } ∧
      (∀ k, k < n → fvalRead t (s.ns + k) =
        word32 (fieldAt s (s.cur + k * (descWid d).toNat) (descWid d).toNat (descSgn d) + addOne (descAdd1 d))) ∧
      (∀ i, i < s.ns → fvalRead t i = fvalRead s i) := by
  obtain ⟨t, e, ht, hf, hu⟩ := repLoop_more (descWid d) (descSgn d) (descDsel d) (descAdd1 d) (descFid d) h1 h8 n 0 s
    hr hx hn
  have hpc : t.pc = s.pc := by rw [ht]
  refine ⟨t, parseFrom_more hp ?_ rfl, ht, fun k hk => (hf k hk).1, fun i hi => (hu i (.inl hi)).1⟩
  rw [hd, descStep, hk]
  show stepRep _ _ _ _ _ _ s = _
  rw [stepRep, if_neg (by simp only [Config.maxDigits]; omega), hc, e, advance, hpc]

/-! ## A chain of descriptors -/

/-- PARSE's loop from `s0` has come to `s`, at descriptor `pc`, cursor `cur`, slot `ns` and counts `c0` and `c1`. -/
structure ParsedTo (s0 s : State) (pc cur ns : Nat) (c0 c1 : Word) : Prop where
  run : parseFrom s0 = parseFrom s
  frame : s = { s0 with fval := s.fval, ftag := s.ftag, ns := ns, cur := cur, pc := pc, c0 := c0, c1 := c1 }

theorem ParsedTo.hexAt {s0 s : State} {pc cur ns : Nat} {c0 c1 : Word} (h : ParsedTo s0 s pc cur ns c0 c1) {o n : Nat}
    (hx : Machine.hexAt s0 o n) : Machine.hexAt s o n := by
  intro k hk
  rw [hx_congr (s := s0) (t := s) (by rw [h.frame]) (by rw [h.frame])]
  exact hx k hk

theorem ParsedTo.fieldAt {s0 s : State} {pc cur ns : Nat} {c0 c1 : Word} (h : ParsedTo s0 s pc cur ns c0 c1)
    (o w : Nat) (sgn : Bool) : Machine.fieldAt s o w sgn = Machine.fieldAt s0 o w sgn :=
  fieldAt_congr (by rw [h.frame]) (by rw [h.frame]) o w sgn

theorem ParsedTo.layout {s0 s : State} {pc cur ns : Nat} {c0 c1 : Word} (h : ParsedTo s0 s pc cur ns c0 c1) (i : Nat) :
    layoutRead s i = layoutRead s0 i := by
  rw [h.frame]
  rfl

/-- The chain over one VAL (R204): the next slot holds the field. -/
theorem ParsedTo.val {s0 s : State} {pc cur ns : Nat} {c0 c1 : Word} (h : ParsedTo s0 s pc cur ns c0 c1) (d : Word)
    (w : Nat) (hd : layoutRead s0 pc = d) (hp : pc < 128) (hk : (descKind d).toNat = 1) (hw : (descWid d).toNat = w)
    (h1 : 1 ≤ w) (h8 : w ≤ 8) (hr : cur + w ≤ s0.rxlen.toNat - 2) (hx : Machine.hexAt s0 cur w) (hn : ns < 1024) :
    ∃ t, ParsedTo s0 t (pc + 1) (cur + w) (ns + 1) c0 c1 ∧ (∀ i, i < ns → fvalRead t i = fvalRead s i) ∧
      fvalRead t ns = word32 (Machine.fieldAt s0 cur w (descSgn d) + addOne (descAdd1 d)) := by
  have hpc : s.pc = pc := by rw [h.frame]
  have hcur : s.cur = cur := by rw [h.frame]
  have hns : s.ns = ns := by rw [h.frame]
  have hl : s.rxlen = s0.rxlen := by rw [h.frame]
  subst hw
  have e := parseFrom_val (s := s) (d := d) (by omega) (by rw [hpc, h.layout, hd]) hk h1 h8 (by rw [hcur, hl]; exact hr)
    (by rw [hcur]; exact h.hexAt hx) (by omega)
  refine ⟨_, ⟨h.run.trans e, ?_⟩, fun i hi => (fvalRead_insert s s.ns i _).trans (if_neg (by omega)), ?_⟩
  · rw [hpc, hcur, hns, h.frame]
  · rw [h.fieldAt, hcur, hns]
    exact (fvalRead_insert s ns ns _).trans (if_pos rfl)

/-- The chain over one OPQ (R207): the next slot holds the span's start. -/
theorem ParsedTo.opq {s0 s : State} {pc cur ns : Nat} {c0 c1 : Word} (h : ParsedTo s0 s pc cur ns c0 c1) (d : Word)
    (n : Nat) (hd : layoutRead s0 pc = d) (hp : pc < 128) (hk : (descKind d).toNat = 4) (hw : (descLen d).toNat = n)
    (hr : cur + n ≤ s0.rxlen.toNat - 2) (hn : ns < 1024) :
    ∃ t, ParsedTo s0 t (pc + 1) (cur + n) (ns + 1) c0 c1 ∧ (∀ i, i < ns → fvalRead t i = fvalRead s i) ∧
      fvalRead t ns = BitVec.ofNat 32 cur := by
  have hpc : s.pc = pc := by rw [h.frame]
  have hcur : s.cur = cur := by rw [h.frame]
  have hns : s.ns = ns := by rw [h.frame]
  have hl : s.rxlen = s0.rxlen := by rw [h.frame]
  subst hw
  have e := parseFrom_opq (s := s) (d := d) (by omega) (by rw [hpc, h.layout, hd]) hk (by rw [hcur, hl]; exact hr)
    (by omega)
  refine ⟨_, ⟨h.run.trans e, ?_⟩, fun i hi => (fvalRead_insert s s.ns i _).trans (if_neg (by omega)), ?_⟩
  · rw [hpc, hcur, hns, h.frame]
  · rw [hcur, hns]
    exact (fvalRead_insert s ns ns _).trans (if_pos rfl)

/-- The chain over one CNT (R205): the next slot and the count register it names hold the count. -/
theorem ParsedTo.cnt {s0 s : State} {pc cur ns : Nat} {c0 c1 : Word} (h : ParsedTo s0 s pc cur ns c0 c1) (d : Word)
    (w : Nat) (hd : layoutRead s0 pc = d) (hp : pc < 128) (hk : (descKind d).toNat = 2) (hw : (descWid d).toNat = w)
    (h1 : 1 ≤ w) (h8 : w ≤ 8) (hr : cur + w ≤ s0.rxlen.toNat - 2) (hx : Machine.hexAt s0 cur w) (hn : ns < 1024) :
    let v := word32 (Machine.fieldAt s0 cur w false)
    ∃ t, ParsedTo s0 t (pc + 1) (cur + w) (ns + 1) (if descCsel d then c0 else v) (if descCsel d then v else c1) ∧
      (∀ i, i < ns → fvalRead t i = fvalRead s i) ∧ fvalRead t ns = v := by
  have hpc : s.pc = pc := by rw [h.frame]
  have hcur : s.cur = cur := by rw [h.frame]
  have hns : s.ns = ns := by rw [h.frame]
  have hl : s.rxlen = s0.rxlen := by rw [h.frame]
  have h0 : s.c0 = c0 := by rw [h.frame]
  have h1' : s.c1 = c1 := by rw [h.frame]
  subst hw
  have e := parseFrom_cnt (s := s) (d := d) (by omega) (by rw [hpc, h.layout, hd]) hk h1 h8 (by rw [hcur, hl]; exact hr)
    (by rw [hcur]; exact h.hexAt hx) (by omega)
  rw [h.fieldAt, hcur] at e
  refine ⟨_, ⟨h.run.trans e, ?_⟩, fun i hi => (fvalRead_insert s s.ns i _).trans (if_neg (by omega)), ?_⟩
  · rw [hpc, hns, h0, h1', h.frame]
  · rw [hns]
    exact (fvalRead_insert s ns ns _).trans (if_pos rfl)

/-- The chain over one REP (R206): one slot per element, in the order of the frame. -/
theorem ParsedTo.rep {s0 s : State} {pc cur ns : Nat} {c0 c1 : Word} (h : ParsedTo s0 s pc cur ns c0 c1) (d : Word)
    (w n : Nat) (hd : layoutRead s0 pc = d) (hp : pc < 128) (hk : (descKind d).toNat = 3) (hw : (descWid d).toNat = w)
    (h1 : 1 ≤ w) (h8 : w ≤ 8) (hc : (if descCsel d then c1 else c0).toNat = n)
    (hr : n ≠ 0 → cur + n * w ≤ s0.rxlen.toNat - 2) (hx : Machine.hexAt s0 cur (n * w)) (hn : ns + n ≤ 1024) :
    ∃ t, ParsedTo s0 t (pc + 1) (cur + n * w) (ns + n) c0 c1 ∧ (∀ i, i < ns → fvalRead t i = fvalRead s i) ∧
      (∀ k, k < n → fvalRead t (ns + k) =
        word32 (Machine.fieldAt s0 (cur + k * w) w (descSgn d) + addOne (descAdd1 d))) := by
  have hpc : s.pc = pc := by rw [h.frame]
  have hcur : s.cur = cur := by rw [h.frame]
  have hns : s.ns = ns := by rw [h.frame]
  have hl : s.rxlen = s0.rxlen := by rw [h.frame]
  have hcc : countReg (descCsel d) s = if descCsel d then c1 else c0 := by rw [h.frame]; rfl
  subst hw
  obtain ⟨t, e, ht, hf, hu⟩ := parseFrom_rep (s := s) (d := d) (n := n) (by omega) (by rw [hpc, h.layout, hd]) hk h1 h8
    (by rw [hcc, hc]) (by rw [hcur, hl]; exact hr) (by rw [hcur]; exact h.hexAt hx) (by omega)
  refine ⟨{ t with pc := s.pc + 1 }, ⟨h.run.trans e, ?_⟩, fun i hi => hu i (by omega), fun k hk => ?_⟩
  · rw [hpc, ht, hcur, hns, h.frame]
  · have := hf k hk
    rw [h.fieldAt, hcur, hns] at this
    exact this

end Sys2Proof.Machine
end

