-- ==== Sys2Proof/Laws/Commands.lean ====
section
/-! SUPPORT. What a command does at its Retire, and what the events of a transaction do: one list of cases each, which
the proofs about every step cite instead of unfolding the meanings. -/

namespace Sys2Proof.Machine

/-! ## Commands -/

/-- Everything the command word `w` can do in the state `s`, by its opcode (60_exceptions.md R231). -/
inductive CmdEffect (w : Word) (s : State) : State → Prop where
  | nop (h : cmdOp w = 0) : CmdEffect w s (complete .ok s)
  | send (h : cmdOp w = 1) (adr code : Byte) : CmdEffect w s (sendFrame adr code s)
  | badArg (h : cmdOp w = 1) : CmdEffect w s (badArg s)
  | start (h : cmdOp w = 2) (ht : s.txlen = 20) : CmdEffect w s (xactStart s)
  | noFrame (h : cmdOp w = 2) (ht : s.txlen ≠ 20) (hr : s.phase = .run) : CmdEffect w s (complete .noFrame s)
  | wait (h : cmdOp w = 2) (ht : s.txlen ≠ 20) (hr : s.phase ≠ .run) : CmdEffect w s { s with phase := .run }
  | verify (h : cmdOp w = 3) : CmdEffect w s (verify s)
  | gatechk (h : cmdOp w = 4) : CmdEffect w s (gateCheck s)
  | ext (h : cmdOp w = 5 ∨ cmdOp w = 6) (sgn : Bool) : CmdEffect w s (extract sgn s)
  | parse (h : cmdOp w = 7) (didx : BitVec 7) : CmdEffect w s (parse didx s)
  | badOp (h : 8 ≤ (cmdOp w).toNat) : CmdEffect w s (badOp s)

/-- BUILD ends in a frame or in BAD_ARG (R141). -/
theorem execBuild_cases (code : Byte) (sys : Bool) (pos : BitVec 4) (grp : BitVec 3) (s : State) :
    (∃ adr, execBuild code sys pos grp s = .next (sendFrame adr code s)) ∨
    execBuild code sys pos grp s = .next (badArg s) := by
  unfold execBuild buildRequest
  split
  · split
    · exact .inl ⟨_, rfl⟩
    · exact .inr rfl
  · exact .inr rfl

theorem exec_decodeCmd (w : Word) (s : State) : ∃ t, exec (decodeCmd w) s = .next t ∧ CmdEffect w s t := by
  have op : ∀ n, (cmdOp w).toNat = n → n < 256 → cmdOp w = BitVec.ofNat 8 n := by
    intro n h hn
    apply BitVec.eq_of_toNat_eq
    rw [h, BitVec.toNat_ofNat]
    omega
  rcases h : (cmdOp w).toNat with _ | _ | _ | _ | _ | _ | _ | _ | n <;> unfold decodeCmd <;> rw [h]
  · exact ⟨_, rfl, .nop (op _ h (by decide))⟩
  · rcases execBuild_cases (cmdCode w) (cmdSys w) (cmdPos w) (cmdGrp w) s with ⟨adr, e⟩ | e
    · exact ⟨_, e, .send (op _ h (by decide)) adr (cmdCode w)⟩
    · exact ⟨_, e, .badArg (op _ h (by decide))⟩
  · show ∃ t, execXact s = .next t ∧ _
    unfold execXact
    split_ifs with h1 h2
    · exact ⟨_, rfl, .start (op _ h (by decide)) h1⟩
    · exact ⟨_, rfl, .noFrame (op _ h (by decide)) h1 h2⟩
    · exact ⟨_, rfl, .wait (op _ h (by decide)) h1 h2⟩
  · exact ⟨_, rfl, .verify (op _ h (by decide))⟩
  · exact ⟨_, rfl, .gatechk (op _ h (by decide))⟩
  · exact ⟨_, rfl, .ext (.inl (op _ h (by decide))) false⟩
  · exact ⟨_, rfl, .ext (.inr (op _ h (by decide))) true⟩
  · exact ⟨_, rfl, .parse (op _ h (by decide)) (cmdDidx w)⟩
  · refine ⟨_, ?_, .badOp (by omega)⟩
    show exec (if _ then _ else _) s = _
    split_ifs <;> rfl

theorem retire_cases {s t : State} (h : retire s = .next t) :
    (s.phase = .run ∧ CmdEffect s.latCmd s t) ∨ (s.phase ≠ .run ∧ t = s) := by
  unfold retire at h
  split_ifs at h with hr
  · obtain ⟨u, hu, he⟩ := exec_decodeCmd s.latCmd s
    rw [hu] at h
    cases h
    exact .inl ⟨hr, he⟩
  · cases h
    exact .inr ⟨hr, rfl⟩

/-- Everything an issue can do (60_exceptions.md R230, 42_frame_rx.md R153), from a phase that is not RUN. -/
theorem issue_cases {d : Word} {s t : State} (hr : s.phase ≠ .run) (h : issue d s = .next t) :
    (cmdOp d = 2 ∧ s.txlen = 20 ∧ t = xactStart (issueLatch d s)) ∨
    (cmdOp d = 4 ∧ t = { issueLatch d s with latMinlen := s.minlen, phase := .run }) ∨
    (cmdOp d ≠ 4 ∧ (cmdOp d = 2 → s.txlen ≠ 20) ∧ t = { issueLatch d s with phase := .run }) := by
  unfold issue at h
  dsimp only at h
  split_ifs at h with h2 h4
  · have : decodeCmd d = .xact := by unfold decodeCmd; rw [h2]; rfl
    rw [this] at h
    change execXact (issueLatch d s) = .next t at h
    unfold execXact at h
    rw [show (issueLatch d s).phase = s.phase from rfl, show (issueLatch d s).txlen = s.txlen from rfl, if_neg hr] at h
    split_ifs at h with ht
    · cases h; exact .inl ⟨h2, ht, rfl⟩
    · cases h; exact .inr (.inr ⟨by rw [h2]; decide, fun _ => ht, rfl⟩)
  · cases h; exact .inr (.inl ⟨h4, rfl⟩)
  · cases h; exact .inr (.inr ⟨h4, fun e => absurd e h2, rfl⟩)

/-- Everything a HostWrite can do (R20, R22, R52). -/
theorem hostWriteEvent_cases {a : Half} {d : Word} {s t : State} (hp : s.params.valid = true)
    (h : hostWriteEvent a d s = .next t) :
    (∃ x, t = { s with csacc := x }) ∨
    (a.toNat / 4 = 3 ∧ ((s.busy = true ∧ t = setBusyErr s) ∨ (s.busy = false ∧ issue d s = .next t))) ∨
    (a.toNat / 4 ≠ 3 ∧ t = hostWrite (target s.params a) d s) := by
  rw [hostWriteEvent_eq a d s hp] at h
  split_ifs at h with h1 h2 h3 h4
  · cases h; exact .inl ⟨_, rfl⟩
  · cases h; exact .inl ⟨_, rfl⟩
  · cases h; exact .inr (.inl ⟨h3, .inl ⟨h4, rfl⟩⟩)
  · exact .inr (.inl ⟨h3, .inr ⟨by simpa using h4, h⟩⟩)
  · cases h; exact .inr (.inr ⟨h3, rfl⟩)

/-- A HostRead changes only the read data and, while busy, the draw counter (R20, R51). -/
theorem hostReadEvent_cases {a : Half} {s t : State} (h : hostReadEvent a s = .next t) :
    ∃ r n, t = { s with rdata := r, draws := n } := by
  rw [hostReadEvent_eq] at h
  split_ifs at h
  · cases h; exact ⟨_, s.draws, rfl⟩
  · cases h
    unfold hostRead
    split_ifs
    · exact ⟨_, _, rfl⟩
    · exact ⟨_, s.draws, rfl⟩

/-! ## A HostWrite to a target -/

/-- Everything a write to a register or a window can do. -/
inductive WriteEffect (s : State) : State → Prop where
  | none : WriteEffect s s
  | ctrl (b : Bool) : WriteEffect s { s with irqen := b }
  | clearCounts (b : Bool) : WriteEffect s
      { s with irqen := b, rejcntA := 0, rejcntB := 0, rejcntC := 0, rejcntD := 0, rejcntE := 0, rejCause := .clear,
               rejHi := 0, rejLo := 0 }
  | ack (d : Word) : WriteEffect s (ackStatus d s)
  | operands (a0 a1 g m : Word) (l : Half) : WriteEffect s { s with arg0 := a0, arg1 := a1, gap := g, tmo := m, minlen := l }
  | busyErr (hb : s.busy = true) : WriteEffect s (setBusyErr s)
  | rxlen (hb : s.busy = false) (n : Nat) : WriteEffect s
      { s with rxlen := BitVec.ofNat 16 (min n s.params.rxbufBytes), rxVerified := false }
  | rxbuf (hb : s.busy = false) (i : Nat) (b : Byte) (hi : i < s.params.rxbufBytes) : WriteEffect s
      { rxWrite i b s with rxVerified := false }

theorem writeReg_effect (r : HostReg) (d : Word) (s : State) : WriteEffect s (writeReg r d s) := by
  cases r
  case ctrl =>
    show WriteEffect s (writeCtrl d s)
    unfold writeCtrl
    dsimp only
    split_ifs
    · exact .clearCounts _
    · exact .ctrl _
  case status => exact .ack d
  case arg0 => exact .operands d s.arg1 s.gap s.tmo s.minlen
  case arg1 => exact .operands s.arg0 d s.gap s.tmo s.minlen
  case gap => exact .operands s.arg0 s.arg1 d s.tmo s.minlen
  case tmo => exact .operands s.arg0 s.arg1 s.gap d s.minlen
  case minlen => exact .operands s.arg0 s.arg1 s.gap s.tmo (d.extractLsb' 0 16)
  case rxlen =>
    show WriteEffect s (writeRxlen d s)
    unfold writeRxlen
    split_ifs with hb
    · exact .busyErr hb
    · exact .rxlen (by simpa using hb) _
  all_goals exact .none

/-- A write changes no LAYOUT entry but one that it selects while BUSY = 0 (R48, R52). -/
theorem hostWrite_effect {a : Half} (d : Word) (s : State) (hp : s.params.valid = true) :
    WriteEffect s (hostWrite (target s.params a) d s) ∨
    (∃ i, i < 128 ∧ a.toNat / 4 = 0x2000 + i ∧ s.busy = false ∧
      hostWrite (target s.params a) d s = layoutWrite i d s) := by
  rcases target_cases hp a with ⟨_, e⟩ | ⟨i, _, _, e⟩ | ⟨i, hi, _, e⟩ | ⟨i, hi, hk, e⟩ | ⟨i, _, _, e⟩ | ⟨i, _, _, e⟩ |
    ⟨e, _⟩ <;> rw [e]
  · left
    generalize a.toNat / 4 = k
    rcases hr : regAt k with r | _ | _ | _ | _ | _ | _
    · exact writeReg_effect r d s
    · exact .none
    · exact absurd hr (by unfold regAt; split <;> simp)
    · exact absurd hr (by unfold regAt; split <;> simp)
    · exact .none
    · exact .none
    · exact .none
  · exact .inl .none
  · left
    show WriteEffect s (if _ then _ else _)
    split_ifs with hb
    · exact .busyErr hb
    · exact .rxbuf (by simpa using hb) i _ hi
  · show WriteEffect s (if _ then _ else _) ∨ _
    by_cases hb : s.busy = true
    · left
      rw [if_pos hb]
      exact .busyErr hb
    · right
      have hb : s.busy = false := by simpa using hb
      exact ⟨i, hi, hk, hb, by simp [hostWrite, hb]⟩
  · exact .inl .none
  · exact .inl .none
  · exact .inl .none

/-! ## The transaction -/

theorem satInc_eq_countedUp (c : Half) : satInc c = countedUp c := by
  have := c.isLt
  unfold satInc countedUp
  apply BitVec.eq_of_toNat_eq
  rw [BitVec.toNat_ofNat]
  split_ifs with h
  · rw [h]; decide
  · have : c.toNat ≠ 65535 := fun e => h (BitVec.eq_of_toNat_eq (by rw [e]; rfl))
    rw [BitVec.toNat_add]
    change (c.toNat + 1) % 65536 = _
    omega

theorem xactTimeout_eq_timedOut (s : State) : xactTimeout s = timedOut s := by
  simp [xactTimeout, complete, timedOut, redrawRx, faulted, rxFrame, cellsFrom]

theorem xactOk_completed (s : State) : xactCompleted s (xactOk s) :=
  ⟨by simp [xactOk, complete, finished, redrawRx], fun _ hi => rxRead_redrawRx hi⟩

/-- Everything the end of a gap can do (R156). -/
theorem gapEnd_cases (s : State) :
    (s.accepted = true ∧ gapEnd s = xactOk s) ∨
    (s.accepted = false ∧ s.latTmo = 0 ∧ gapEnd s = xactTimeout { s with phase := .rx, tcnt := 0 }) ∨
    (s.accepted = false ∧ s.latTmo ≠ 0 ∧ gapEnd s = { s with phase := .rx, tcnt := 0 }) := by
  unfold gapEnd
  cases s.accepted
  · by_cases h : s.latTmo = 0
    · exact .inr (.inl ⟨rfl, h, if_pos h⟩)
    · exact .inr (.inr ⟨rfl, h, if_neg h⟩)
  · exact .inl ⟨rfl, rfl⟩

/-- A TxAccept does nothing while `tx_valid` is 0 (R20; log 5). -/
theorem txAccept_else {s : State} (h : txValid s = false) : txAccept s = s := by
  unfold txAccept
  rw [h]
  rfl

/-- A TxAccept before the 20th moves on in TXBUF (R154). -/
theorem txAccept_next {s : State} (h : txValid s = true) (hp : s.txpos + 1 ≠ 20) :
    txAccept s = { s with txpos := s.txpos + 1 } := by
  unfold txAccept
  rw [if_pos h]
  exact if_neg hp

/-- The 20th TxAccept enters GAP, or ends the gap in the same step where the latched gap is 0 (R154). -/
theorem txAccept_last {s : State} (h : txValid s = true) (hp : s.txpos + 1 = 20) :
    txAccept s = if s.latGap = 0 then gapEnd { s with txpos := s.txpos + 1, phase := .gap, tcnt := 0 }
      else { s with txpos := s.txpos + 1, phase := .gap, tcnt := 0 } := by
  unfold txAccept
  rw [if_pos h]
  exact if_pos hp

/-- Everything a Tick can do in GAP (R156). -/
theorem tick_gap {s : State} (h : s.phase = .gap) :
    tick s = if s.tcnt + 1 = s.latGap then gapEnd { s with tcnt := s.tcnt + 1 } else { s with tcnt := s.tcnt + 1 } := by
  unfold tick
  rw [h]

/-- Everything a Tick can do in RX (R157). -/
theorem tick_rx {s : State} (h : s.phase = .rx) :
    tick s = if s.tcnt + 1 = s.latTmo then xactTimeout { s with tcnt := s.tcnt + 1 }
      else { s with tcnt := s.tcnt + 1 } := by
  unfold tick
  rw [h]

/-- A Tick does nothing elsewhere (R152). -/
theorem tick_else {s : State} (h : s.phase ≠ .gap) (h' : s.phase ≠ .rx) : tick s = s := by
  unfold tick
  split <;> first | rfl | contradiction

/-- No candidate that was stored fails gate e in the gate function: it rejects with the causes a to d (R162). -/
theorem gate_ne_overlong (f : List Byte) (m : Nat) (v : Bool) : gate f m v ≠ .overlong := by
  unfold gate
  dsimp only
  split_ifs <;> decide

/-- The gates pass only a candidate whose checksum is good (R162). -/
theorem gate_clear {f : List Byte} {m : Nat} {v : Bool} (h : gate f m v = .clear) : v = true := by
  unfold gate at h
  dsimp only at h
  split_ifs at h with h1 h2
  simpa using h2

/-- A rejection changes REJLAST and the counters, and nothing else (R168). -/
theorem reject_eq (c : Cause) (f : List Byte) (s : State) : ∃ a b c' d e, reject c f s =
    { s with rejCause := c, rejHi := if c = .rtn then f.getD 7 0 else 0, rejLo := if c = .rtn then f.getD 8 0 else 0,
             rejcntA := a, rejcntB := b, rejcntC := c', rejcntD := d, rejcntE := e } := by
  cases c <;> exact ⟨_, _, _, _, _, rfl⟩

/-- Everything a byte that reaches the assembler can do (R160): it is stored or dropped, with a rejection or none, or it
ends a candidate that is accepted. -/
inductive AsmEffect (s : State) : State → Prop where
  | move (a : Asm) : AsmEffect s { s with asm := a }
  | reject (c : Cause) (f : List Byte) (a : Asm) : AsmEffect s { reject c f s with asm := a }
  | store (i n : Nat) (b : Byte) (a : Asm) (hi : i < s.params.rxbufBytes) (hn : n ≤ s.params.rxbufBytes) :
      AsmEffect s { rxWrite i b s with clen := n, asm := a }
  | storeReject (u : State) (hu : u = { rxWrite s.clen eoi s with clen := s.clen + 1, asm := .waitFirst })
      (hn : s.clen < s.params.rxbufBytes) (c : Cause) (f : List Byte) : AsmEffect s (Machine.reject c f u)
  | accept (u : State) (hu : u = { rxWrite s.clen eoi s with clen := s.clen + 1, asm := .waitFirst })
      (hn : s.clen < s.params.rxbufBytes) (hg : (verifyFrame (rxFrame u u.clen)).good = true) :
      AsmEffect s (Machine.accept u)

theorem assemble_effect (b : Byte) (s : State) (hp : s.params.valid = true) (hc : s.clen ≤ s.params.rxbufBytes) :
    AsmEffect s (assemble b s) := by
  simp only [Config.Params.valid, decide_eq_true_eq] at hp
  have stay : ∀ a, s.asm = a → AsmEffect s s := fun a h => by
    have := AsmEffect.move (s := s) a
    rwa [← h] at this
  unfold assemble
  split
  · rename_i ha
    split_ifs
    · have := AsmEffect.reject (s := s) .delimiter [eoi] .waitFirst
      rwa [← ha] at this
    · exact .store 0 1 b .inFrame (by omega) (by omega)
    · exact .move .skip
  · rename_i ha
    split_ifs
    · exact .reject .delimiter [] .waitFirst
    · exact stay _ ha
  · rename_i ha
    split_ifs with h1 h2 h2
    · exact .reject .overlong [] .waitFirst
    · exact .move .over
    · subst h2
      show AsmEffect s (endCandidate _)
      unfold endCandidate
      dsimp only
      split_ifs with hg
      · exact .accept _ rfl (by omega) (gate_clear hg)
      · exact .storeReject _ rfl (by omega) _ _
    · have := AsmEffect.store (s := s) s.clen (s.clen + 1) b .inFrame (by omega) (by omega)
      rwa [← ha] at this
  · rename_i ha
    split_ifs
    · exact .reject .overlong [] .waitFirst
    · exact stay _ ha

end Sys2Proof.Machine
end

