-- ==== Sys2Proof/Laws/Decode.lean ====
section
/-! SUPPORT. Laws of the decoder and the encoder: words and their bytes, fields of assembled words. -/

namespace Sys2Proof

theorem wordOfBytes_wordBytes (w : Word) :
    wordOfBytes (w.extractLsb' 0 8) (w.extractLsb' 8 8) (w.extractLsb' 16 8) (w.extractLsb' 24 8) = w := by
  apply BitVec.eq_of_getLsbD_eq
  intro i hi
  simp only [wordOfBytes, BitVec.getLsbD_append, BitVec.getLsbD_extractLsb']
  by_cases h1 : i < 8
  · simp [h1]
  · by_cases h2 : i < 16
    · simp [h1, show i - 8 < 8 by omega, show 8 + (i - 8) = i by omega]
    · by_cases h3 : i < 24
      · simp [h1, show ¬i - 8 < 8 by omega, show i - 8 - 8 < 8 by omega, show 16 + (i - 8 - 8) = i by omega]
      · simp [h1, show ¬i - 8 < 8 by omega, show ¬i - 8 - 8 < 8 by omega, show i - 8 - 8 - 8 < 8 by omega,
          show 24 + (i - 8 - 8 - 8) = i by omega]

theorem halfBytes_append (a : Half) : a.extractLsb' 8 8 ++ a.extractLsb' 0 8 = a := by
  apply BitVec.eq_of_getLsbD_eq
  intro i hi
  simp only [BitVec.getLsbD_append, BitVec.getLsbD_extractLsb']
  by_cases h1 : i < 8
  · simp [h1]
  · simp [h1, show i - 8 < 8 by omega, show 8 + (i - 8) = i by omega]

/-- The four bytes of a word decode as that word, in both 32-bit formats. -/
theorem decode_cmd_wordBytes (w : Word) : decode .cmd (wordBytes w) = .ok (decodeCmd w) := by
  simp [decode, wordBytes, wordOfBytes_wordBytes]

theorem decode_desc_wordBytes (w : Word) : decode .desc (wordBytes w) = .ok (decodeDesc w) := by
  simp [decode, wordBytes, wordOfBytes_wordBytes]

/-! ## The fields of assembled words -/

@[simp] theorem cmdOp_cmdWord (op : Byte) : cmdOp (cmdWord op) = op := by
  apply BitVec.eq_of_getLsbD_eq; intro i hi
  simp only [cmdOp, cmdWord, BitVec.getLsbD_extractLsb', BitVec.getLsbD_append]
  simp [hi]

@[simp] theorem cmdOp_buildWord (code : Byte) (sys : Bool) (pos : BitVec 4) (grp : BitVec 3) :
    cmdOp (buildWord code sys pos grp) = 1 := by
  apply BitVec.eq_of_getLsbD_eq; intro i hi
  simp only [cmdOp, buildWord, BitVec.getLsbD_extractLsb', BitVec.getLsbD_append]
  interval_cases i <;> simp

@[simp] theorem cmdCode_buildWord (code : Byte) (sys : Bool) (pos : BitVec 4) (grp : BitVec 3) :
    cmdCode (buildWord code sys pos grp) = code := by
  apply BitVec.eq_of_getLsbD_eq; intro i hi
  simp only [cmdCode, buildWord, BitVec.getLsbD_extractLsb', BitVec.getLsbD_append]
  interval_cases i <;> simp

@[simp] theorem cmdSys_buildWord (code : Byte) (sys : Bool) (pos : BitVec 4) (grp : BitVec 3) :
    cmdSys (buildWord code sys pos grp) = sys := by
  simp only [cmdSys, buildWord, BitVec.getLsbD_append]
  simp

@[simp] theorem cmdPos_buildWord (code : Byte) (sys : Bool) (pos : BitVec 4) (grp : BitVec 3) :
    cmdPos (buildWord code sys pos grp) = pos := by
  apply BitVec.eq_of_getLsbD_eq; intro i hi
  simp only [cmdPos, buildWord, BitVec.getLsbD_extractLsb', BitVec.getLsbD_append]
  interval_cases i <;> simp

@[simp] theorem cmdGrp_buildWord (code : Byte) (sys : Bool) (pos : BitVec 4) (grp : BitVec 3) :
    cmdGrp (buildWord code sys pos grp) = grp := by
  apply BitVec.eq_of_getLsbD_eq; intro i hi
  simp only [cmdGrp, buildWord, BitVec.getLsbD_extractLsb', BitVec.getLsbD_append]
  interval_cases i <;> simp

@[simp] theorem cmdOp_parseWord (didx : BitVec 7) :
    cmdOp (parseWord didx) = 7 := by
  apply BitVec.eq_of_getLsbD_eq; intro i hi
  simp only [cmdOp, parseWord, BitVec.getLsbD_extractLsb', BitVec.getLsbD_append]
  interval_cases i <;> simp

@[simp] theorem cmdDidx_parseWord (didx : BitVec 7) :
    cmdDidx (parseWord didx) = didx := by
  apply BitVec.eq_of_getLsbD_eq; intro i hi
  simp only [cmdDidx, parseWord, BitVec.getLsbD_extractLsb', BitVec.getLsbD_append]
  interval_cases i <;> simp

@[simp] theorem descWid_descWord (wid : BitVec 4) (sgn : Bool) (dsel : BitVec 2) (add1 : Bool) (kind : BitVec 3) (csel : Bool)
    (len : BitVec 12) (fid : Byte) :
    descWid (descWord wid sgn dsel add1 kind csel len fid) = wid := by
  apply BitVec.eq_of_getLsbD_eq; intro i hi
  simp only [descWid, descWord, BitVec.getLsbD_extractLsb', BitVec.getLsbD_append]
  interval_cases i <;> simp

@[simp] theorem descSgn_descWord (wid : BitVec 4) (sgn : Bool) (dsel : BitVec 2) (add1 : Bool) (kind : BitVec 3) (csel : Bool)
    (len : BitVec 12) (fid : Byte) :
    descSgn (descWord wid sgn dsel add1 kind csel len fid) = sgn := by
  simp only [descSgn, descWord, BitVec.getLsbD_append]
  simp

@[simp] theorem descDsel_descWord (wid : BitVec 4) (sgn : Bool) (dsel : BitVec 2) (add1 : Bool) (kind : BitVec 3) (csel : Bool)
    (len : BitVec 12) (fid : Byte) :
    descDsel (descWord wid sgn dsel add1 kind csel len fid) = dsel := by
  apply BitVec.eq_of_getLsbD_eq; intro i hi
  simp only [descDsel, descWord, BitVec.getLsbD_extractLsb', BitVec.getLsbD_append]
  interval_cases i <;> simp

@[simp] theorem descAdd1_descWord (wid : BitVec 4) (sgn : Bool) (dsel : BitVec 2) (add1 : Bool) (kind : BitVec 3) (csel : Bool)
    (len : BitVec 12) (fid : Byte) :
    descAdd1 (descWord wid sgn dsel add1 kind csel len fid) = add1 := by
  simp only [descAdd1, descWord, BitVec.getLsbD_append]
  simp

@[simp] theorem descKind_descWord (wid : BitVec 4) (sgn : Bool) (dsel : BitVec 2) (add1 : Bool) (kind : BitVec 3) (csel : Bool)
    (len : BitVec 12) (fid : Byte) :
    descKind (descWord wid sgn dsel add1 kind csel len fid) = kind := by
  apply BitVec.eq_of_getLsbD_eq; intro i hi
  simp only [descKind, descWord, BitVec.getLsbD_extractLsb', BitVec.getLsbD_append]
  interval_cases i <;> simp

@[simp] theorem descCsel_descWord (wid : BitVec 4) (sgn : Bool) (dsel : BitVec 2) (add1 : Bool) (kind : BitVec 3) (csel : Bool)
    (len : BitVec 12) (fid : Byte) :
    descCsel (descWord wid sgn dsel add1 kind csel len fid) = csel := by
  simp only [descCsel, descWord, BitVec.getLsbD_append]
  simp

@[simp] theorem descLen_descWord (wid : BitVec 4) (sgn : Bool) (dsel : BitVec 2) (add1 : Bool) (kind : BitVec 3) (csel : Bool)
    (len : BitVec 12) (fid : Byte) :
    descLen (descWord wid sgn dsel add1 kind csel len fid) = len := by
  apply BitVec.eq_of_getLsbD_eq; intro i hi
  simp only [descLen, descWord, BitVec.getLsbD_extractLsb', BitVec.getLsbD_append]
  interval_cases i <;> simp

@[simp] theorem descFid_descWord (wid : BitVec 4) (sgn : Bool) (dsel : BitVec 2) (add1 : Bool) (kind : BitVec 3) (csel : Bool)
    (len : BitVec 12) (fid : Byte) :
    descFid (descWord wid sgn dsel add1 kind csel len fid) = fid := by
  apply BitVec.eq_of_getLsbD_eq; intro i hi
  simp only [descFid, descWord, BitVec.getLsbD_extractLsb', BitVec.getLsbD_append]
  interval_cases i <;> simp

/-- A field that a mask covers is read from the masked bits. -/
theorem extract_congr_of_mask {w v m : Word} {start n : Nat} (hm : ∀ i, i < n → m.getLsbD (start + i) = true)
    (h : w &&& m = v &&& m) : w.extractLsb' start n = v.extractLsb' start n := by
  apply BitVec.eq_of_getLsbD_eq
  intro i hi
  have := congrArg (fun x => x.getLsbD (start + i)) h
  simp only [BitVec.getLsbD_and, hm i hi, Bool.and_true] at this
  simp [hi, this]

theorem bit_congr_of_mask {w v m : Word} {i : Nat} (hm : m.getLsbD i = true) (h : w &&& m = v &&& m) :
    w.getLsbD i = v.getLsbD i := by
  have := congrArg (fun x => x.getLsbD i) h
  simpa only [BitVec.getLsbD_and, hm, Bool.and_true] using this

end Sys2Proof
end

