-- ==== Sys2Proof/Laws/PerInstr.lean ====
section
/-! SUPPORT. The per-instruction family: the encoding of every well-formed instruction has its format's length and
carries the fixed bits of its row of the opcode table, at the table's bit numbers. -/

namespace Sys2Proof.Laws

/-- The number of a list of bytes, numbered as the opcode table numbers bits: the first byte is the lowest. -/
def numberOf : List Byte → Nat
  | [] => 0
  | b :: rest => b.toNat + 256 * numberOf rest

/-- The columns "mask" and "match" of an instruction's row. -/
def tableRow : Instr → Nat × Nat
  | .nop => (0xFF, 0x00)
  | .build _ _ _ _ => (0xFF, 0x01)
  | .xact => (0xFF, 0x02)
  | .verify => (0xFF, 0x03)
  | .gatechk => (0xFF, 0x04)
  | .extu => (0xFF, 0x05)
  | .exts => (0xFF, 0x06)
  | .parse _ => (0xFF, 0x07)
  | .reserved08 _ => (0xF8, 0x08)
  | .reserved10 _ => (0xF0, 0x10)
  | .reserved20 _ => (0xE0, 0x20)
  | .reserved40 _ => (0xC0, 0x40)
  | .reserved80 _ => (0x80, 0x80)
  | .endRec => (0x700, 0x000)
  | .val _ _ _ _ _ => (0x700, 0x100)
  | .cnt _ _ _ => (0x700, 0x200)
  | .rep _ _ _ _ _ _ => (0x700, 0x300)
  | .opq _ _ => (0x700, 0x400)
  | .badDesc5 => (0x700, 0x500)
  | .badDesc67 _ => (0x600, 0x600)
  | .queryAnalog => (0xFF, 0x42)
  | .queryVersion => (0xFF, 0x4F)
  | .csaccWrite _ => (0xFFFC, 0x0060)
  | .csfeedWrite _ => (0xFFFC, 0x0064)
  | .csresRead => (0xFFFC, 0x0068)

/-- The encoding has the format's length and the row's fixed bits. -/
def EncodeFixed.Statement (i : Instr) : Prop :=
  i.wf = true → (encode i).length = formatBytes (formatOf i) ∧ numberOf (encode i) &&& (tableRow i).1 = (tableRow i).2

theorem numberOf_wordBytes (w : Word) : numberOf (wordBytes w) = w.toNat := by
  have := w.isLt
  simp only [numberOf, wordBytes, BitVec.extractLsb'_toNat, Nat.shiftRight_eq_div_pow]
  omega

/-- The low byte of a CMD word is its opcode (R100). -/
theorem cmd_fixed (w : Word) : numberOf (wordBytes w) &&& 0xFF = (cmdOp w).toNat := by
  rw [numberOf_wordBytes, show (0xFF : Nat) = 2 ^ 8 - 1 by decide, Nat.and_two_pow_sub_one_eq_mod]
  simp [cmdOp]

/-- Bits 8 to 10 of a descriptor word are its kind (R104). -/
theorem desc_fixed (w : Word) : numberOf (wordBytes w) &&& 0x700 = (descKind w).toNat * 256 := by
  rw [numberOf_wordBytes]
  have h : w &&& 0x700#32 = (descKind w).setWidth 32 <<< 8 := by
    apply BitVec.eq_of_getLsbD_eq
    intro i hi
    simp only [descKind, BitVec.getLsbD_and, BitVec.getLsbD_shiftLeft, BitVec.getLsbD_setWidth,
      BitVec.getLsbD_extractLsb']
    interval_cases i <;> simp
  have := congrArg BitVec.toNat h
  rw [BitVec.toNat_and, BitVec.toNat_shiftLeft, BitVec.toNat_setWidth] at this
  have hk := (descKind w).isLt
  rw [show BitVec.toNat 0x700#32 = 0x700 by decide] at this
  rw [this, Nat.shiftLeft_eq]
  omega

/-- A narrower mask. -/
theorem narrow {x m n v : Nat} (h : x &&& m = v) (hm : m &&& n = n) : x &&& n = v &&& n := by
  rw [← h, Nat.and_assoc, hm]

theorem port_fixed (a : Half) (rest : List Byte) : numberOf (halfBytes a ++ rest) &&& 0xFFFF = a.toNat := by
  have := a.isLt
  rw [show (0xFFFF : Nat) = 2 ^ 16 - 1 by decide, Nat.and_two_pow_sub_one_eq_mod]
  simp only [halfBytes, numberOf, List.cons_append, List.nil_append, BitVec.extractLsb'_toNat,
    Nat.shiftRight_eq_div_pow]
  omega

theorem EncodeFixed.nop : EncodeFixed.Statement .nop := fun _ => by decide

theorem EncodeFixed.build (code : Byte) (sys : Bool) (pos : BitVec 4) (grp : BitVec 3) :
    EncodeFixed.Statement (.build code sys pos grp) := fun _ =>
  ⟨rfl, (cmd_fixed _).trans (by rw [cmdOp_buildWord]; rfl)⟩

theorem EncodeFixed.xact : EncodeFixed.Statement .xact := fun _ => by decide

theorem EncodeFixed.verify : EncodeFixed.Statement .verify := fun _ => by decide

theorem EncodeFixed.gatechk : EncodeFixed.Statement .gatechk := fun _ => by decide

theorem EncodeFixed.extu : EncodeFixed.Statement .extu := fun _ => by decide

theorem EncodeFixed.exts : EncodeFixed.Statement .exts := fun _ => by decide

theorem EncodeFixed.parse (didx : BitVec 7) : EncodeFixed.Statement (.parse didx) := fun _ =>
  ⟨rfl, (cmd_fixed _).trans (by rw [cmdOp_parseWord]; rfl)⟩

/-- A reserved row: the opcode's bits under the row's mask. -/
theorem reserved_fixed (op : Byte) (m v : Nat) (hm : 0xFF &&& m = m) (hv : op.toNat &&& m = v) :
    numberOf (wordBytes (cmdWord op)) &&& m = v := by
  rw [narrow (cmd_fixed _) hm, cmdOp_cmdWord, hv]

theorem EncodeFixed.reserved08 (op : Byte) : EncodeFixed.Statement (.reserved08 op) := fun h =>
  ⟨rfl, reserved_fixed op 0xF8 0x08 (by decide) (by
    have : ∀ o : Byte, decide (8 ≤ o.toNat ∧ o.toNat < 16) = true → o.toNat &&& 0xF8 = 0x08 := by decide
    exact this op h)⟩

theorem EncodeFixed.reserved10 (op : Byte) : EncodeFixed.Statement (.reserved10 op) := fun h =>
  ⟨rfl, reserved_fixed op 0xF0 0x10 (by decide) (by
    have : ∀ o : Byte, decide (16 ≤ o.toNat ∧ o.toNat < 32) = true → o.toNat &&& 0xF0 = 0x10 := by decide
    exact this op h)⟩

theorem EncodeFixed.reserved20 (op : Byte) : EncodeFixed.Statement (.reserved20 op) := fun h =>
  ⟨rfl, reserved_fixed op 0xE0 0x20 (by decide) (by
    have : ∀ o : Byte, decide (32 ≤ o.toNat ∧ o.toNat < 64) = true → o.toNat &&& 0xE0 = 0x20 := by decide
    exact this op h)⟩

theorem EncodeFixed.reserved40 (op : Byte) : EncodeFixed.Statement (.reserved40 op) := fun h =>
  ⟨rfl, reserved_fixed op 0xC0 0x40 (by decide) (by
    have : ∀ o : Byte, decide (64 ≤ o.toNat ∧ o.toNat < 128) = true → o.toNat &&& 0xC0 = 0x40 := by decide
    exact this op h)⟩

theorem EncodeFixed.reserved80 (op : Byte) : EncodeFixed.Statement (.reserved80 op) := fun h =>
  ⟨rfl, reserved_fixed op 0x80 0x80 (by decide) (by
    have : ∀ o : Byte, decide (128 ≤ o.toNat) = true → o.toNat &&& 0x80 = 0x80 := by decide
    exact this op h)⟩

theorem EncodeFixed.endRec : EncodeFixed.Statement .endRec := fun _ => by decide

theorem EncodeFixed.val (wid : BitVec 4) (sgn : Bool) (dsel : BitVec 2) (add1 : Bool) (fid : Byte) :
    EncodeFixed.Statement (.val wid sgn dsel add1 fid) := fun _ =>
  ⟨rfl, (desc_fixed _).trans (by rw [descKind_descWord]; rfl)⟩

theorem EncodeFixed.cnt (wid : BitVec 4) (csel : Bool) (fid : Byte) : EncodeFixed.Statement (.cnt wid csel fid) :=
  fun _ => ⟨rfl, (desc_fixed _).trans (by rw [descKind_descWord]; rfl)⟩

theorem EncodeFixed.rep (wid : BitVec 4) (sgn : Bool) (dsel : BitVec 2) (add1 csel : Bool) (fid : Byte) :
    EncodeFixed.Statement (.rep wid sgn dsel add1 csel fid) := fun _ =>
  ⟨rfl, (desc_fixed _).trans (by rw [descKind_descWord]; rfl)⟩

theorem EncodeFixed.opq (len : BitVec 12) (fid : Byte) : EncodeFixed.Statement (.opq len fid) := fun _ =>
  ⟨rfl, (desc_fixed _).trans (by rw [descKind_descWord]; rfl)⟩

theorem EncodeFixed.badDesc5 : EncodeFixed.Statement .badDesc5 := fun _ => by decide

theorem EncodeFixed.badDesc67 (kind : BitVec 3) : EncodeFixed.Statement (.badDesc67 kind) := fun h =>
  ⟨rfl, (narrow (n := 0x600) (desc_fixed _) (by decide)).trans (by
    rw [descKind_descWord]
    have : ∀ k : BitVec 3, decide (6 ≤ k.toNat) = true → k.toNat * 256 &&& 0x600 = 0x600 := by decide
    exact this kind h)⟩

theorem EncodeFixed.queryAnalog : EncodeFixed.Statement .queryAnalog := fun _ => by decide

theorem EncodeFixed.queryVersion : EncodeFixed.Statement .queryVersion := fun _ => by decide

theorem EncodeFixed.csaccWrite (data : Word) : EncodeFixed.Statement (.csaccWrite data) := fun _ =>
  ⟨rfl, narrow (n := 0xFFFC) (port_fixed 0x060 (wordBytes data)) (by decide)⟩

theorem EncodeFixed.csfeedWrite (data : Word) : EncodeFixed.Statement (.csfeedWrite data) := fun _ =>
  ⟨rfl, narrow (n := 0xFFFC) (port_fixed 0x064 (wordBytes data)) (by decide)⟩

theorem EncodeFixed.csresRead : EncodeFixed.Statement .csresRead := fun _ => by decide

end Sys2Proof.Laws
end

