-- ==== Sys2Proof/Tests/Slice0.lean ====
section
/-! SUPPORT. Small tests, each on one step, with expected values from spec 95_test_vectors.md and the examples of the
rules; the smoke test of WellFormed; the decoding of written-out words; and, for each obligation with hypotheses, a
concrete state that meets them. -/

namespace Sys2Proof.Tests

set_option Elab.async false

open Sys2Proof Sys2Proof.Machine

/-! ## Small states -/

/-- The reset block with events to come. -/
def awaits (es : List Event) : State := { State.reset with input := es }

/-- `s` with the command `w` waiting in RUN for the Retire to come. -/
def running (w : Word) (s : State) : State := { s with latCmd := w, busy := true, phase := .run, input := [.retire] }

/-- `s` with `f` in RXBUF and RXLEN its length. -/
def loaded (f : List Byte) (s : State) : State := { s with rxbuf := cellsFrom 0 f, rxlen := BitVec.ofNat 16 f.length }

/-- `s` with `f` in RXBUF, verified, and the operands `a0` and `a1` latched. -/
def verified (f : List Byte) (a0 a1 : Word) (s : State) : State :=
  { loaded f s with rxVerified := true, latArg0 := a0, latArg1 := a1 }

/-- The state after one step. -/
def after (s : State) : State :=
  match step s with
  | .next t => t
  | .fault _ => s
  | .refused _ => s

/-- The state after one instruction. -/
def ran (i : Instr) (s : State) : State :=
  match exec i s with
  | .next t => t
  | .fault _ => s
  | .refused _ => s

/-- In phase `p` of a transaction, with 20 bytes built. -/
def transacting (p : Phase) (es : List Event) : State :=
  { State.reset with busy := true, phase := p, txlen := 20, latCmd := 2, latGap := 3, latTmo := 5, latMinlen := 18,
                     txbuf := cellsFrom 0 (List.replicate 20 0x30), input := es }

/-- The frame ~22024A000000FDA5 with its EOI (95_test_vectors.md 3.2). -/
def frameOk : List Byte :=
  [0x7E, 0x32, 0x32, 0x30, 0x32, 0x34, 0x41, 0x30, 0x30, 0x30, 0x30, 0x30, 0x30, 0x46, 0x44, 0x41, 0x35, 0x0D]

/-- The frame ~22024A000000FDA0 with its EOI (95_test_vectors.md 3.2). -/
def frameBad : List Byte :=
  [0x7E, 0x32, 0x32, 0x30, 0x32, 0x34, 0x41, 0x30, 0x30, 0x30, 0x30, 0x30, 0x30, 0x46, 0x44, 0x41, 0x30, 0x0D]

/-- The frame ~22024A020000FDA3 with its EOI (95_test_vectors.md 3.2). -/
def frameRtn : List Byte :=
  [0x7E, 0x32, 0x32, 0x30, 0x32, 0x34, 0x41, 0x30, 0x32, 0x30, 0x30, 0x30, 0x30, 0x46, 0x44, 0x41, 0x33, 0x0D]

/-- The frame ~0000 with its EOI (95_test_vectors.md 3.2). -/
def frameEmpty : List Byte :=
  [0x7E, 0x30, 0x30, 0x30, 0x30, 0x0D]

/-- Digits of the vectors of 95_test_vectors.md 3.5: FFFF at 0, 7FFF at 4, 8000 at 8, 80 at 12, F7 at 14, 12345678 at 16,
ab at 24, G0 at 26; HXLEN = 28. -/
def digitsFrame : List Byte :=
  [0x7E, 0x46, 0x46, 0x46, 0x46, 0x37, 0x46, 0x46, 0x46, 0x38, 0x30, 0x30, 0x30, 0x38, 0x30, 0x46, 0x37, 0x31,
   0x32, 0x33, 0x34, 0x35, 0x36, 0x37, 0x38, 0x61, 0x62, 0x47, 0x30, 0x0D]

/-! ## WellFormed: one ill-formed term for each check -/

theorem test_wf_refuses_reserved08 : (Instr.reserved08 0x07).wf = false ∧ (Instr.reserved08 0x10).wf = false := by decide

theorem test_wf_refuses_reserved10 : (Instr.reserved10 0x0F).wf = false ∧ (Instr.reserved10 0x20).wf = false := by decide

theorem test_wf_refuses_reserved20 : (Instr.reserved20 0x1F).wf = false ∧ (Instr.reserved20 0x40).wf = false := by decide

theorem test_wf_refuses_reserved40 : (Instr.reserved40 0x3F).wf = false ∧ (Instr.reserved40 0x80).wf = false := by decide

theorem test_wf_refuses_reserved80 : (Instr.reserved80 0x7F).wf = false := by decide

theorem test_wf_refuses_badDesc67 : (Instr.badDesc67 5).wf = false ∧ (Instr.badDesc67 0).wf = false := by decide

/-! ## Decoding of words written out from 30_encoding.md R100 to R108, R114 and 10_state.md R22 -/

theorem test_decode_nop : decodeCmd 0b00000000000000000000000000000000 = .nop := by decide

/-- GRP 000, POS 0010, SYS 0, CODE 01000010, OP 00000001. -/
theorem test_decode_build : decodeCmd 0b00000000001000000100001000000001 = .build 0x42 false 2 0 := by decide

/-- GRP 011, POS 1101, SYS 1, CODE 01001111, OP 00000001, every reserved bit set. -/
theorem test_decode_build_reserved_bits : decodeCmd 0b11111011110111110100111100000001 = .build 0x4F true 13 3 := by
  decide

theorem test_decode_xact : decodeCmd 0b00000000000000000000000000000010 = .xact := by decide

theorem test_decode_verify : decodeCmd 0b00000000000000000000000000000011 = .verify := by decide

theorem test_decode_gatechk : decodeCmd 0b00000000000000000000000000000100 = .gatechk := by decide

theorem test_decode_extu : decodeCmd 0b00000000000000000000000000000101 = .extu := by decide

theorem test_decode_exts : decodeCmd 0b00000000000000000000000000000110 = .exts := by decide

/-- CMD[15] is above DIDX and ignored (V-P15). -/
theorem test_decode_parse : decodeCmd 0b00000000000000001010000000000111 = .parse 32 := by decide

theorem test_decode_reserved :
    decodeCmd 0b00001000 = .reserved08 0x08 ∧ decodeCmd 0b00001111 = .reserved08 0x0F ∧
    decodeCmd 0b00010000 = .reserved10 0x10 ∧ decodeCmd 0b00111111 = .reserved20 0x3F ∧
    decodeCmd 0b01000010 = .reserved40 0x42 ∧ decodeCmd 0b11111111 = .reserved80 0xFF := by decide

theorem test_decode_end : decodeDesc 0b00000000000000000000000000000000 = .endRec := by decide

/-- FID 00100000, KIND 001, ADD1 1, DSEL 00, SGN 0, WID 0010. -/
theorem test_decode_val : decodeDesc 0b00100000000000000000000110000010 = .val 2 false 0 true 0x20 := by decide

/-- FID 00101010, KIND 001, ADD1 0, DSEL 10, SGN 1, WID 0100. -/
theorem test_decode_val_signed : decodeDesc 0b00101010000000000000000101010100 = .val 4 true 2 false 0x2A := by decide

/-- FID 00101000, CSEL 1, KIND 010, WID 0010. -/
theorem test_decode_cnt : decodeDesc 0b00101000000000000000101000000010 = .cnt 2 true 0x28 := by decide

/-- FID 00101001, CSEL 1, KIND 011, ADD1 0, DSEL 01, SGN 1, WID 0100. -/
theorem test_decode_rep : decodeDesc 0b00101001000000000000101100110100 = .rep 4 true 1 false true 0x29 := by decide

/-- FID 01000011, LEN 000000001000, KIND 100. -/
theorem test_decode_opq : decodeDesc 0b01000011000000001000010000000000 = .opq 8 0x43 := by decide

theorem test_decode_badDesc5 : decodeDesc 0b00000000000000000000010100000000 = .badDesc5 := by decide

theorem test_decode_badDesc67 : decodeDesc 0b00000000000000000000011000000000 = .badDesc67 6 ∧
    decodeDesc 0b11111111111111111111111111111111 = .badDesc67 7 := by decide

theorem test_decode_request_codes : decode .wire [0b01000010] = .ok .queryAnalog ∧
    decode .wire [0b01001111] = .ok .queryVersion ∧ decode .wire [0b01000011] = .error (.notARequestCode 0x43) := by
  exact ⟨rfl, rfl, rfl⟩

/-- Offset bits [1:0] are not decoded (R68). -/
theorem test_decode_ports :
    decode .hostWrite [0b01100000, 0, 0x34, 0x12, 0, 0] = .ok (.csaccWrite 0x1234) ∧
    decode .hostWrite [0b01100111, 0, 0x41, 0, 0, 0] = .ok (.csfeedWrite 0x41) ∧
    decode .hostRead [0b01101000, 0] = .ok .csresRead ∧
    decode .hostWrite [0b01101000, 0, 0, 0, 0, 0] = .error (.notAChecksumPort 0x68) ∧
    decode .cmd [1, 2, 3] = .error .truncated := by
  exact ⟨rfl, rfl, rfl, rfl, rfl⟩

/-- The rows of the opcode table, by their own widths (log 11). -/
theorem test_decodeTableWord :
    decodeTableWord 8 0x00 = some .nop ∧ decodeTableWord 8 0x03 = some .verify ∧
    decodeTableWord 8 0x42 = some .queryAnalog ∧ decodeTableWord 8 0x40 = some (.reserved40 0x40) ∧
    decodeTableWord 16 0x0000 = some .endRec ∧ decodeTableWord 16 0x0600 = some (.badDesc67 6) ∧
    decodeTableWord 16 0x0060 = some (.csaccWrite 0) ∧ decodeTableWord 16 0x0064 = some (.csfeedWrite 0) ∧
    decodeTableWord 16 0x0068 = some .csresRead ∧ decodeTableWord 32 0x00000100 = some (.val 0 false 0 false 0) ∧
    decodeTableWord 32 0x00000007 = some (.parse 0) := by decide

/-- A placed command, a placed descriptor and a placed host access run in the next step. -/
theorem test_withFetchWord :
    (after (State.reset.withFetchWord 8 0x03)).res1 = 0xFFFFFFFF ∧
    (after (State.reset.withFetchWord 16 0x0500)).code = .badDesc ∧
    (after (({ State.reset with csacc := 5 } : State).withFetchWord 16 0x0060)).csacc = 0 ∧
    (after (({ State.reset with csacc := 0x0302 } : State).withFetchWord 16 0x0068)).rdata = 0xFCFE := by decide +kernel

/-! ## One step of each instruction -/

/-- G3: the reserved operand bits are ignored too. -/
theorem test_nop : let t := after (running 0xABCDEF00 State.reset)
    t.code = .ok ∧ t.done = true ∧ t.busy = false ∧ t.err = false ∧ statusWord t = 0x00000002 := by decide +kernel

/-- The table of R144, BUILD 0x42,2,0. -/
theorem test_build_frame : (List.range 20).map (txRead (after (running 0x00204201 State.reset))) =
    [0x7E, 0x32, 0x32, 0x30, 0x32, 0x34, 0x41, 0x34, 0x32, 0x45, 0x30, 0x30, 0x32, 0x46, 0x46, 0x46, 0x43, 0x46, 0x43,
     0x0D] := by decide +kernel

/-- 3.3: position 14. -/
theorem test_build_badArg : let t := after (running 0x00E04201 { State.reset with txlen := 20 })
    t.code = .badArg ∧ t.err = true ∧ t.txlen = 0 := by decide +kernel

/-- X4. -/
theorem test_xact_noFrame : let t := after (running 0x00000002 { State.reset with rxlen := 7 })
    t.code = .noFrame ∧ t.err = true ∧ t.rxlen = 7 := by decide +kernel

/-- P1, step 5. -/
theorem test_xact_starts : let t := after { State.reset with txlen := 20, gap := 3, input := [.hostWrite 0x00C 2] }
    t.phase = .tx ∧ t.latGap = 3 ∧ t.rxlen = 0 ∧ t.busy = true := by decide +kernel

/-- 3.2, the third row. -/
theorem test_verify_good : let t := after (running 3 (loaded frameOk State.reset))
    t.res0 = 1 ∧ t.res1 = 0xFDA5 ∧ t.res2 = 0xFDA5 ∧ t.rxVerified = true := by decide +kernel

/-- 3.2, the fourth row. -/
theorem test_verify_bad : let t := after (running 3 (loaded frameBad State.reset))
    t.res0 = 0 ∧ t.res1 = 0xFDA0 ∧ t.res2 = 0xFDA5 ∧ t.rxVerified = false := by decide +kernel

/-- 3.2, the second row. -/
theorem test_gatechk_rtn : let t := after (running 4 (loaded frameRtn { State.reset with latMinlen := 18 }))
    t.res0 = 4 ∧ t.res1 = 0xFDA3 ∧ t.rxVerified = true := by decide +kernel

/-- 3.2, the fifth row. -/
theorem test_gatechk_short : let t := after (running 4 (loaded frameEmpty { State.reset with latMinlen := 18 }))
    t.res0 = 3 ∧ t.res1 = 0 ∧ t.res2 = 0 := by decide +kernel

/-- 3.5, EXTU 28,8,1000 of the test frame. -/
theorem test_extu : let t := after (running 5 (verified digitsFrame 16 0x03E80008 State.reset))
    t.res0 = 0x12345678 ∧ t.res1 = 0x0004A90B ∧ t.res2 = 0x00000380 ∧ t.code = .ok := by decide +kernel

/-- 3.5, EXTU 54,2,1 of the test frame: "G0". -/
theorem test_extu_notHex : let t := after (running 5 (verified digitsFrame 26 0x00010002 State.reset))
    t.code = .notHex ∧ t.faultOff = 26 ∧ t.res0 = 0 ∧ t.err = true := by decide +kernel

/-- 3.5, EXTS 20,4,100 of the test frame. -/
theorem test_exts : let t := after (running 6 (verified digitsFrame 8 0x00640004 State.reset))
    t.res0 = 0xFFFF8000 ∧ t.res1 = 0xFFFFFEB9 ∧ t.res2 = 0xFFFFFFBC := by decide +kernel

/-- 3.5, EXTU 12,9,0: the width is checked before the divisor. -/
theorem test_exts_badWidth : (after (running 6 (verified digitsFrame 8 0x00000009 State.reset))).code = .badWidth := by
  decide +kernel

/-- V-P9: a zero entry of LAYOUT is END. -/
theorem test_parse_end : let t := after (running 0x00001407 (verified frameOk 12 0 State.reset))
    t.code = .ok ∧ t.nslot = 0 ∧ t.nextOff = 12 ∧ t.pc = 0 := by decide +kernel

/-- V-P11: the last descriptor runs, then PC = 128. -/
theorem test_parse_descOvf :
    let t := after (running 0x00007F07 (verified digitsFrame 16 0 (layoutWrite 127 0x00000102 State.reset)))
    t.code = .descOvf ∧ t.faultOff = 18 ∧ t.faultPc = 128 ∧ t.nslot = 1 ∧ fvalRead t 0 = 0x12 ∧
      ftagRead t 0 = 0x00047F00 := by decide +kernel

/-- G4. -/
theorem test_reserved80 : let t := after (running 0x000000FF State.reset)
    t.code = .badOp ∧ statusWord t = 0x00000C06 := by decide +kernel

theorem test_reserved_others : (after (running 0x08 State.reset)).code = .badOp ∧
    (after (running 0x1F State.reset)).code = .badOp ∧ (after (running 0x20 State.reset)).code = .badOp ∧
    (after (running 0x7F State.reset)).code = .badOp := by decide +kernel

/-- R203, R211: 4 digits consumed against a nominal 6. -/
theorem test_endRec : let t := ran .endRec { verified digitsFrame 8 6 State.reset with cur := 12, ns := 1 }
    t.code = .ok ∧ t.nextOff = 12 ∧ t.nslot = 1 ∧ t.lenWarn = true := by decide +kernel

/-- R204 on "80": VAL 2,s,1000,0x20,+1 reads -128. -/
theorem test_val : let t := ran (.val 2 true 3 true 0x20) { verified digitsFrame 0 0 State.reset with cur := 12, pc := 5 }
    fvalRead t 0 = 0xFFFFFF81 ∧ ftagRead t 0 = 0x00078520 ∧ t.cur = 14 ∧ t.pc = 6 ∧ t.ns = 1 := by decide +kernel

/-- R205 on "F7": CNT 2,C1,0x28. -/
theorem test_cnt : let t := ran (.cnt 2 true 0x28) { verified digitsFrame 0 0 State.reset with cur := 14, pc := 40 }
    t.c1 = 0xF7 ∧ t.c0 = 0 ∧ fvalRead t 0 = 0xF7 ∧ ftagRead t 0 = 0x00082828 := by decide +kernel

/-- R206 on "7F" "FF" with C0 = 2, tagged as in V-P2. -/
theorem test_rep :
    let t := ran (.rep 2 false 3 false false 0x24) { verified digitsFrame 0 0 State.reset with cur := 4, pc := 36, c0 := 2 }
    fvalRead t 0 = 0x7F ∧ fvalRead t 1 = 0xFF ∧ ftagRead t 0 = 0x000F2424 ∧ ftagRead t 1 = 0x002F2424 ∧ t.cur = 8 := by
  decide +kernel

/-- V-P12: the width of a REP is checked even where the count is 0. -/
theorem test_rep_badWidth : let t := ran (.rep 0 false 0 false false 0) { verified digitsFrame 12 0 State.reset with cur := 12 }
    t.code = .badWidth ∧ t.faultOff = 12 := by decide +kernel

/-- R207: the span over "G0" is not read. -/
theorem test_opq : let t := ran (.opq 4 0x43) { verified digitsFrame 0 0 State.reset with cur := 24, pc := 67 }
    fvalRead t 0 = 24 ∧ ftagRead t 0 = 0x00104343 ∧ t.cur = 28 := by decide +kernel

/-- V-P10. -/
theorem test_badDesc5 : let t := ran .badDesc5 { verified digitsFrame 12 0 State.reset with cur := 12, pc := 100 }
    t.code = .badDesc ∧ faultoffWord t = 0x0064000C ∧ t.nextOff = 12 ∧ t.nslot = 0 := by decide +kernel

theorem test_badDesc67 : let t := ran (.badDesc67 7) { verified digitsFrame 12 6 State.reset with cur := 14, pc := 3, ns := 2 }
    t.code = .badDesc ∧ t.nextOff = 18 ∧ t.nslot = 2 ∧ t.resync = true := by decide +kernel

/-- The table of R144 and 3.3: BUILD 0x42 and 0x4F, SYS = 1, group 0. -/
theorem test_queryAnalog : let t := ran .queryAnalog { State.reset with latCmd := 0x00010001 }
    t.txlen = 20 ∧ (List.range 4).map (fun k => txRead t (15 + k)) = [0x46, 0x43, 0x46, 0x45] := by decide +kernel

/-- 40_checksum.md R130 by hand: the sum with "4F" for "42" is 0x0302 - 0x32 + 0x46, so the checksum is FCEA. -/
theorem test_queryVersion : let t := ran .queryVersion { State.reset with latCmd := 0x00010001 }
    t.txlen = 20 ∧ (List.range 4).map (fun k => txRead t (15 + k)) = [0x46, 0x43, 0x45, 0x41] := by decide +kernel

/-- 3.1, the last row: only data[15:0] is stored. -/
theorem test_csaccWrite : (after (awaits [.hostWrite 0x060 0x00018000])).csacc = 0x8000 := by decide +kernel

/-- 3.1, the fourth row: only data[7:0] is added. -/
theorem test_csfeedWrite :
    (after { awaits [.hostWrite 0x064 0x00000102] with csacc := 0xFFFF }).csacc = 0x0001 := by decide +kernel

/-- 3.1, the third row. -/
theorem test_csresRead : (after { awaits [.hostRead 0x068] with csacc := 0x0302 }).rdata = 0x0000FCFE := by decide +kernel

/-! ## The transaction and the host map -/

/-- X8: the last byte of the candidate. -/
theorem test_reject_rtn :
    let t := after { transacting .rx [.rxByte 0x0D] with rxbuf := cellsFrom 0 (frameRtn.take 17), clen := 17, asm := .inFrame }
    rejlastWord t = 0x00323004 ∧ t.rejcntD = 1 ∧ t.phase = .rx ∧ t.asm = .waitFirst := by decide +kernel

/-- R165: a good candidate in RX completes the transaction. -/
theorem test_accept :
    let t := after { transacting .rx [.rxByte 0x0D] with rxbuf := cellsFrom 0 (frameOk.take 17), clen := 17, asm := .inFrame }
    t.code = .ok ∧ t.rxlen = 18 ∧ t.rxVerified = true ∧ xstateWord t = 0x00000008 := by decide +kernel

/-- X1: the last TxAccept with both limits 0. -/
theorem test_timeout_at_once :
    let t := after { transacting .tx [.txAccept] with txpos := 19, latGap := 0, latTmo := 0, rxlen := 9 }
    t.code = .timeout ∧ t.err = true ∧ t.rxlen = 0 ∧ t.tcnt = 0 ∧ t.phase = .idle := by decide +kernel

/-- G1, G7, G8, G12. -/
theorem test_host_map : (after (awaits [.hostRead 0x003])).rdata = 0x41464301 ∧
    (after (awaits [.hostWrite 0x024 0x00012345])).rxlen = 0x1000 ∧
    (after { awaits [.hostRead 0x1050] with rdata := 5 }).rdata = 0 ∧
    (after { running 3 State.reset with input := [.hostWrite 0x00C 3] }).busyErr = true := by decide +kernel

/-! ## A state that meets the hypotheses of each obligation -/

/-- The block at work on a command, in RUN. -/
def busyWith (es : List Event) : State := { running 3 State.reset with input := es }

/-- The block with a receive buffer of 20 entries. -/
def small (es : List Event) : State :=
  { awaits es with params := { Config.defaults with rxbufBytes := 20 } }

/-- The smallest receive buffer and other reset values, after a draw. -/
theorem witness_InvAtReset : ({ Config.defaults with rxbufBytes := 20, gapReset := 0, tmoReset := 0, minlenReset := 0 } :
    Config.Params).valid = true := by decide

theorem witness_DecodeOfEncode : Instr.nop.wf = true ∧ (Instr.reserved08 0x08).wf = true ∧
    (Instr.reserved08 0x0F).wf = true ∧ (Instr.reserved80 0xFF).wf = true ∧ (Instr.badDesc67 6).wf = true := by decide

theorem witness_ReservedBitsIgnored :
    (cmdOp 0x00204201 = cmdOp 0xF82E4201 ∧ (0x00204201 : Word) &&& 0x07F1FF00 = 0xF82E4201 &&& 0x07F1FF00) ∧
    (cmdOp 0x00002007 = cmdOp 0xFFFFA007 ∧ (0x00002007 : Word) &&& 0x00007F00 = 0xFFFFA007 &&& 0x00007F00) ∧
    cmdOp 0x00000000 = cmdOp 0xFFFFFF00 ∧ cmdOp 0xFFFFFF00 ≠ 1 ∧ cmdOp 0xFFFFFF00 ≠ 7 ∧
    (descKind 0x01000144 = descKind 0x01FFF944 ∧ (0x01000144 : Word) &&& 0xFF0000FF = 0x01FFF944 &&& 0xFF0000FF) ∧
    (descKind 0x28000A02 = descKind 0x28FFFAF2 ∧ (0x28000A02 : Word) &&& 0xFF00080F = 0x28FFFAF2 &&& 0xFF00080F) ∧
    (descKind 0x24000364 = descKind 0x24FFF364 ∧ (0x24000364 : Word) &&& 0xFF0008FF = 0x24FFF364 &&& 0xFF0008FF) ∧
    (descKind 0x0C012400 = descKind 0x0C012CFF ∧ (0x0C012400 : Word) &&& 0xFFFFF000 = 0x0C012CFF &&& 0xFFFFF000) ∧
    descKind 0x00000000 = descKind 0xFFFFF8FF := by decide

theorem witness_StepRunsRetiredCommand :
    (busyWith []).params.valid = true ∧ (busyWith []).phase = .run ∧ (busyWith []).input = [] ∧
    (busyWith [.retire]).phase = .run ∧ (busyWith [.retire]).input = [.retire] := by decide

theorem witness_StepRunsChecksumPorts : State.reset.params.valid = true ∧
    (0x063 : Half) &&& 0xFFFC = 0x060 ∧ (awaits [.hostWrite 0x063 5]).input = [.hostWrite 0x063 5] ∧
    (0x064 : Half) &&& 0xFFFC = 0x064 ∧ (awaits [.hostWrite 0x064 5]).input = [.hostWrite 0x064 5] ∧
    (0x06B : Half) &&& 0xFFFC = 0x068 ∧ (awaits [.hostRead 0x06B]).input = [.hostRead 0x06B] := by decide

theorem witness_ParseRunsEachDescriptor : (verified digitsFrame 0 0 State.reset).rxVerified = true ∧
    (∃ t, ({ State.reset with pc := 0 } : State).pc < 128 ∧
      exec (decodeDesc (layoutRead State.reset 0)) State.reset = .next t) ∧
    (∃ t, ({ State.reset with pc := 127 } : State).pc < 128 ∧
      exec (decodeDesc (layoutRead State.reset 127)) { State.reset with pc := 127 } = .next t) ∧
    128 ≤ ({ State.reset with pc := 128 } : State).pc :=
  ⟨rfl, ⟨_, by decide, rfl⟩, ⟨_, by decide, rfl⟩, by decide⟩

theorem witness_CmdWriteIssues :
    (∀ (d : Word) (n : BitVec 5), let s : State := { awaits [.hostWrite 0x00E d] with txlen := n }
      s.params.valid = true ∧ s.busy = false ∧ s.phase = .idle ∧ s.input = [.hostWrite 0x00E d] ∧ s.txlen = n) ∧
    (0x00E : Half) &&& 0xFFFC = 0x00C ∧ (4 : Word).toNat % 256 = 4 ∧ (0xFFFFFF02 : Word).toNat % 256 = 2 ∧
    (0 : BitVec 5) ≠ 20 ∧ (0xFF : Word).toNat % 256 ≠ 2 ∧ (0xFF : Word).toNat % 256 ≠ 4 :=
  ⟨fun _ _ => ⟨rfl, rfl, rfl, rfl, rfl⟩, by decide⟩

/-- Offsets at both ends of each range and at each single register. -/
theorem witness_WritesWhileBusy :
    (∀ (a : Half) (d : Word), (busyWith [.hostWrite a d]).params.valid = true ∧ (busyWith [.hostWrite a d]).busy = true ∧
      (busyWith [.hostWrite a d]).input = [.hostWrite a d] ∧ (awaits [.hostWrite a d]).params.valid = true ∧
      (awaits [.hostWrite a d]).busy = false ∧ (awaits [.hostWrite a d]).input = [.hostWrite a d]) ∧
    (([0x00C, 0x024, 0x4000, 0x7FFC, 0x8000, 0x81FC, 0x004, 0x008, 0x010, 0x014, 0x018, 0x01C, 0x020, 0x060, 0x064] :
      List Half).all fun a => decide (a &&& 0xFFFC = a)) ∧ (busyWith []).params.rxbufBytes = 4096 :=
  ⟨fun _ _ => ⟨rfl, rfl, rfl, rfl, rfl, rfl⟩, by decide +kernel, rfl⟩

theorem witness_StatusWriteOneToClear : (awaits [.hostWrite 0x008 0xE]).params.valid = true ∧
    (awaits [.hostWrite 0x008 0xE]).input = [.hostWrite 0x008 0xE] ∧ (0x008 : Half) &&& 0xFFFC = 0x008 := by decide

/-- The first and the last entry of each window, for the smallest receive buffer. -/
theorem witness_BufferWritesWhileIdle :
    (∀ (a : Half) (d : Word), (small [.hostWrite a d]).params.valid = true ∧ (small [.hostWrite a d]).busy = false ∧
      (small [.hostWrite a d]).input = [.hostWrite a d]) ∧
    (small []).params.rxbufBytes = 20 ∧ ((0x4003 : Half) &&& 0xFFFC).toNat = 0x4000 + 4 * 0 ∧
    ((0x404C : Half) &&& 0xFFFC).toNat = 0x4000 + 4 * 19 ∧ ((0x8000 : Half) &&& 0xFFFC).toNat = 0x8000 + 4 * 0 ∧
    ((0x81FC : Half) &&& 0xFFFC).toNat = 0x8000 + 4 * 127 ∧ ((0x024 : Half) &&& 0xFFFC).toNat = 0x024 :=
  ⟨fun _ _ => ⟨rfl, rfl, rfl⟩, by decide⟩

/-- Both ends of each unlisted range (with 20 entries of RXBUF) and of each read-only range. -/
theorem witness_UnmappedOffsets :
    (∀ (a : Half) (d : Word), (small [.hostRead a]).params.valid = true ∧ (small [.hostWrite a d]).params.valid = true ∧
      (small [.hostRead a]).input = [.hostRead a] ∧ (small [.hostWrite a d]).input = [.hostWrite a d]) ∧
    (([0x07C, 0xFFC, 0x1050, 0x3FFC, 0x4050, 0x7FFC, 0x8200, 0x9FFC, 0xC000, 0xFFFF] : List Half).all fun a => decide (
      (0x07C ≤ (a &&& 0xFFFC).toNat ∧ (a &&& 0xFFFC).toNat < 0x1000) ∨
      (0x1050 ≤ (a &&& 0xFFFC).toNat ∧ (a &&& 0xFFFC).toNat < 0x4000) ∨
      (0x4000 + 4 * 20 ≤ (a &&& 0xFFFC).toNat ∧ (a &&& 0xFFFC).toNat < 0x8000) ∨
      (0x8200 ≤ (a &&& 0xFFFC).toNat ∧ (a &&& 0xFFFC).toNat < 0xA000) ∨ 0xC000 ≤ (a &&& 0xFFFC).toNat)) ∧
    (([0x000, 0x028, 0x05C, 0x068, 0x078, 0x1000, 0x104C, 0xA000, 0xBFFC] : List Half).all fun a => decide (
      (a &&& 0xFFFC).toNat = 0 ∨ (0x028 ≤ (a &&& 0xFFFC).toNat ∧ (a &&& 0xFFFC).toNat < 0x060) ∨
      (0x068 ≤ (a &&& 0xFFFC).toNat ∧ (a &&& 0xFFFC).toNat < 0x07C) ∨
      (0x1000 ≤ (a &&& 0xFFFC).toNat ∧ (a &&& 0xFFFC).toNat < 0x1050) ∨
      (0xA000 ≤ (a &&& 0xFFFC).toNat ∧ (a &&& 0xFFFC).toNat < 0xC000))) :=
  ⟨fun _ _ => ⟨rfl, rfl, rfl, rfl⟩, by decide +kernel, by decide +kernel⟩

theorem witness_OffsetLowBitsIgnored : State.reset.params.valid = true ∧
    (0x00C : Half) &&& 0xFFFC = (0x00F : Half) &&& 0xFFFC := by decide

/-- Every register, and both ends of every window. -/
theorem witness_HostReadsWhileIdle :
    (∀ a : Half, (awaits [.hostRead a]).params.valid = true ∧ (awaits [.hostRead a]).busy = false ∧
      (awaits [.hostRead a]).input = [.hostRead a]) ∧
    (∀ k, k < 31 → (BitVec.ofNat 16 (4 * k) &&& 0xFFFC).toNat = 4 * k) ∧
    (([0x1000, 0x104C, 0x4000, 0x7FFC, 0x8000, 0x81FC, 0xA000, 0xAFFC, 0xB000, 0xBFFC] : List Half).all fun a =>
      decide (a &&& 0xFFFC = a)) ∧ (awaits []).params.rxbufBytes = 4096 :=
  ⟨fun _ => ⟨rfl, rfl, rfl⟩, by decide +kernel, by decide +kernel, rfl⟩

/-- Both ends of each unspecified range, and offsets outside them. -/
theorem witness_HostReadsWhileBusy :
    (∀ a : Half, (busyWith [.hostRead a]).params.valid = true ∧ (busyWith [.hostRead a]).busy = true ∧
      (busyWith [.hostRead a]).input = [.hostRead a]) ∧
    (([0x024, 0x044, 0x1000, 0x104C, 0x4000, 0x7FFC, 0xA000, 0xBFFC, 0x008, 0x020, 0x048, 0x8000] : List Half).all fun a =>
      decide (a &&& 0xFFFC = a)) :=
  ⟨fun _ => ⟨rfl, rfl, rfl⟩, by decide +kernel⟩

theorem witness_StepNeverStops : State.reset.params.valid = true ∧ (small []).params.valid = true := by decide

theorem witness_WaitingBlockStays : (transacting .rx []).params.valid = true ∧ (transacting .rx []).input = [] ∧
    (transacting .rx []).phase ≠ .run := by decide

theorem witness_ResetLeavesTheTable : (transacting .rx [.reset]).params.valid = true ∧
    (transacting .rx [.reset]).input = [.reset] := by decide

/-- ERR and BUSYERR fall by a STATUS write, and by Reset; an entry of LAYOUT is written. -/
theorem witness_StickyFlagsAndLayout :
    let s : State := { awaits [.hostWrite 0x008 0xC] with err := true, busyErr := true }
    let r : State := { awaits [.reset] with err := true, busyErr := true }
    let l : State := awaits [.hostWrite 0x81FC 0x100]
    step s = .next (after s) ∧ s.err = true ∧ (after s).err = false ∧ s.busyErr = true ∧ (after s).busyErr = false ∧
    step r = .next (after r) ∧ (after r).err = false ∧ (after r).busyErr = false ∧
    step l = .next (after l) ∧ (after l).layout ≠ l.layout := by
  exact ⟨rfl, rfl, by decide +kernel, rfl, by decide +kernel, rfl, by decide +kernel, by decide +kernel, rfl,
    by decide +kernel⟩

theorem witness_ReservedOpcodesCompleteBadOp : 8 ≤ (0x08 : Word).toNat % 256 ∧ 8 ≤ (0xFFFFFFFF : Word).toNat % 256 ∧
    Instr.reserved40 0x7F ∈ [Instr.reserved08 0x7F, .reserved10 0x7F, .reserved20 0x7F, .reserved40 0x7F, .reserved80 0x7F] :=
  by decide

/-- n = 5, n = 6 with digits, and n = 6 with an invalid one. -/
theorem witness_VerifyResult :
    (loaded (frameEmpty.take 5) State.reset).rxlen.toNat < 6 ∧
    (let s := loaded frameEmpty State.reset
     6 ≤ s.rxlen.toNat ∧ digit (rxRead s 1) = some 0 ∧ digit (rxRead s 2) = some 0 ∧ digit (rxRead s 3) = some 0 ∧
      digit (rxRead s 4) = some 0) ∧
    (let s := loaded [0x7E, 0x30, 0x30, 0x30, 0x47, 0x0D] State.reset
     6 ≤ s.rxlen.toNat ∧ ∃ k, k < 4 ∧ digit (rxRead s (s.rxlen.toNat - 5 + k)) = none) := by
  refine ⟨by decide +kernel, by decide +kernel, by decide +kernel, 3, by decide, by decide +kernel⟩

theorem witness_BuildResult : ((0x42 : Byte) = 0x42 ∨ (0x42 : Byte) = 0x4F) ∧ ((0x4F : Byte) = 0x42 ∨ (0x4F : Byte) = 0x4F) ∧
    (2 ≤ (2 : BitVec 4).toNat ∧ (13 : BitVec 4).toNat ≤ 13) ∧ ¬((0x43 : Byte) = 0x42 ∨ (0x43 : Byte) = 0x4F) ∧
    ¬(false = true ∨ (2 ≤ (1 : BitVec 4).toNat ∧ (1 : BitVec 4).toNat ≤ 13)) ∧
    ¬(false = true ∨ (2 ≤ (14 : BitVec 4).toNat ∧ (14 : BitVec 4).toNat ≤ 13)) := by decide

theorem witness_RequestCodesBuild : cmdSys (0x00010001 : Word) = true ∧ 2 ≤ (cmdPos 0x00200001).toNat ∧
    (cmdPos 0x00D00001).toNat ≤ 13 ∧ (0x43 : Byte) ≠ 0x42 ∧ (0x43 : Byte) ≠ 0x4F := by decide

theorem witness_BuiltFrameVerifies :
    let t := ran (.build 0x42 false 2 0) State.reset
    let u := loaded (requestFrame 0x02 0x42) State.reset
    exec (.build 0x42 false 2 0) State.reset = .next t ∧ t.code = .ok ∧ u.rxlen = 20 ∧
      ∀ i, i < 20 → rxRead u i = txRead t i := by
  exact ⟨rfl, rfl, by decide +kernel, by decide +kernel⟩

theorem witness_OnlyBuildWritesTxbuf :
    step (running 0x00204201 State.reset) = .next (after (running 0x00204201 State.reset)) ∧
    (after (running 0x00204201 State.reset)).txlen ≠ (running 0x00204201 State.reset).txlen :=
  ⟨rfl, by decide +kernel⟩

theorem witness_XactStartsOrHasNoFrame : ({ State.reset with txlen := 20 } : State).txlen = 20 ∧ State.reset.txlen ≠ 20 ∧
    State.reset.phase ≠ .run ∧ (busyWith []).txlen ≠ 20 ∧ (busyWith []).phase = .run := by decide

/-- TXPOS at 0, 18 and 19, each way a gap of 0 can end, and another phase. -/
theorem witness_TxAcceptMovesOn :
    let s (n : BitVec 5) (g m : Word) (a : Bool) : State :=
      { transacting .tx [.txAccept] with txpos := n, latGap := g, latTmo := m, accepted := a }
    (s 0 3 5 false).params.valid = true ∧ (s 0 3 5 false).input = [.txAccept] ∧ (s 0 3 5 false).phase = .tx ∧
    (s 18 3 5 false).txpos.toNat < 19 ∧ (s 19 3 5 false).txpos = 19 ∧ (s 19 3 5 false).latGap ≠ 0 ∧
    (s 19 0 5 true).latGap = 0 ∧ (s 19 0 5 true).accepted = true ∧ (s 19 0 5 false).accepted = false ∧
    (s 19 0 5 false).latTmo ≠ 0 ∧ (s 19 0 0 false).latTmo = 0 ∧ (transacting .gap [.txAccept]).phase ≠ .tx := by decide

/-- TCNT one and two below the latched limit, each way a gap can end, and another phase. -/
theorem witness_TickCounts :
    let s (p : Phase) (c m : Word) (a : Bool) : State :=
      { transacting p [.tick] with tcnt := c, latTmo := m, accepted := a }
    (s .gap 1 5 false).params.valid = true ∧ (s .gap 1 5 false).input = [.tick] ∧
    (s .gap 1 5 false).tcnt + 1 ≠ (s .gap 1 5 false).latGap ∧ (s .gap 2 5 true).tcnt + 1 = (s .gap 2 5 true).latGap ∧
    (s .gap 2 5 true).accepted = true ∧ (s .gap 2 5 false).latTmo ≠ 0 ∧ (s .gap 2 0 false).latTmo = 0 ∧
    (s .rx 3 5 false).tcnt + 1 ≠ (s .rx 3 5 false).latTmo ∧ (s .rx 4 5 false).tcnt + 1 = (s .rx 4 5 false).latTmo ∧
    (awaits [.tick]).phase ≠ .gap ∧ (awaits [.tick]).phase ≠ .rx := by decide

theorem witness_StrayBytesLeaveNoTrace : ¬inTransaction (awaits [.rxByte 0x7E]) ∧
    (awaits [.rxByte 0x7E]).input = [.rxByte 0x7E] ∧ (awaits [.rxByte 0x7E]).params.valid = true ∧
    ({ transacting .gap [.rxByte 0x7E] with accepted := true } : State).accepted = true := by decide

/-- Each state of the assembler, each byte (EOI is 0x0D, SOI 0x7E), and CLEN at 0, at the last free entry and at the
limit. -/
theorem witness_AssemblerStates (a : Asm) (b : Byte) (n : Nat) :
    let s : State := { transacting .rx [.rxByte b] with params := { Config.defaults with rxbufBytes := 20 }, asm := a,
                                                        clen := n }
    s.params.valid = true ∧ s.input = [.rxByte b] ∧ inTransaction s ∧ s.accepted = false ∧ s.asm = a ∧ s.clen = n ∧
      s.params.rxbufBytes = 20 :=
  ⟨rfl, rfl, .inr (.inr rfl), rfl, rfl, rfl, rfl⟩

/-- A candidate that passes, in GAP and in RX, and one that fails gate d. -/
theorem witness_CandidateEnds :
    let s (p : Phase) (f : List Byte) : State :=
      { transacting p [.rxByte 0x0D] with rxbuf := cellsFrom 0 (f.take 17), clen := 17, asm := .inFrame }
    let c (s : State) : Cause :=
      let f : List Byte := (List.range s.clen).map (rxRead s) ++ [0x0D]
      gate f s.latMinlen.toNat (verifyFrame f).good
    (∀ p ∈ [Phase.tx, .gap, .rx], (s p frameOk).params.valid = true ∧ (s p frameOk).input = [.rxByte 0x0D] ∧
      inTransaction (s p frameOk) ∧ (s p frameOk).accepted = false ∧ (s p frameOk).asm = .inFrame ∧
      (s p frameOk).clen < (s p frameOk).params.rxbufBytes ∧ c (s p frameOk) = .clear) ∧
    c (s .rx frameRtn) = .rtn ∧ c (s .rx frameBad) = .checksum := by decide +kernel

/-- One state for each row of the table of PHASE that is not Reset, and one for Reset. -/
theorem witness_PhaseTable :
    (let s : State := { awaits [.hostWrite 0x00C 2] with txlen := 20 }
     Inv s ∧ step s = .next (after s) ∧ (after s).phase ≠ s.phase) ∧
    (let s : State := running 0 State.reset
     Inv s ∧ step s = .next (after s) ∧ (after s).phase ≠ s.phase) ∧
    (let s : State := { transacting .tx [.txAccept] with txpos := 19 }
     Inv s ∧ step s = .next (after s) ∧ (after s).phase ≠ s.phase) ∧
    (let s : State := { transacting .gap [.tick] with tcnt := 2 }
     Inv s ∧ step s = .next (after s) ∧ (after s).phase ≠ s.phase) ∧
    (let s : State := { transacting .rx [.tick] with tcnt := 4 }
     Inv s ∧ step s = .next (after s) ∧ (after s).phase ≠ s.phase) ∧
    (let s : State :=
       { transacting .rx [.rxByte 0x0D] with rxbuf := cellsFrom 0 (frameOk.take 17), clen := 17, asm := .inFrame }
     Inv s ∧ step s = .next (after s) ∧ (after s).phase ≠ s.phase) ∧
    (let s : State := transacting .rx [.reset]
     Inv s ∧ step s = .next (after s) ∧ (after s).phase ≠ s.phase) := by
  refine ⟨⟨?_, rfl, ?_⟩, ⟨?_, rfl, ?_⟩, ⟨?_, rfl, ?_⟩, ⟨?_, rfl, ?_⟩, ⟨?_, rfl, ?_⟩, ⟨?_, rfl, ?_⟩, ⟨?_, rfl, ?_⟩⟩
  all_goals first | decide +kernel | refine ⟨?_, ?_, ?_, ?_, ?_, ?_, ?_⟩ <;> decide +kernel

/-- Eight Ticks with other events between, in GAP, in RX, and in TX after the 20 TxAccepts. -/
theorem witness_TransactionEndsWithinItsTicks :
    let fs : List Event := [.rxByte 0x7E, .hostWrite 0x00C 2, .txAccept, .retire] ++ List.replicate 8 .tick
    let es : List Event := [.tick, .hostRead 0x008] ++ List.replicate 20 .txAccept
    (Inv (transacting .gap fs) ∧ Inv (transacting .rx fs) ∧ Inv (transacting .tx (es ++ fs))) ∧
    ([Phase.gap, .rx, .tx].all fun p => decide (inTransaction (transacting p []))) = true ∧
    Event.reset ∉ es ++ fs ∧ 20 ≤ (transacting .tx []).txpos.toNat + es.count .txAccept ∧
    (transacting .tx []).latGap.toNat + (transacting .tx []).latTmo.toNat ≤ fs.count .tick := by
  refine ⟨⟨?_, ?_, ?_⟩, by decide +kernel, by decide +kernel, by decide +kernel, by decide +kernel⟩
  all_goals refine ⟨?_, ?_, ?_, ?_, ?_, ?_, ?_⟩ <;> decide +kernel

/-- The whole hex view of a field, at the widths 1 and 8, with its end at HXLEN. -/
theorem witness_ExtuResult :
    (let s := verified digitsFrame 16 0x00010008 State.reset
     s.rxVerified = true ∧ 1 ≤ s.latArg1.toNat % 16 ∧ s.latArg1.toNat % 16 ≤ 8 ∧ s.latArg1.toNat / 65536 ≠ 0 ∧
      s.latArg0.toNat % 65536 + s.latArg1.toNat % 16 ≤ s.rxlen.toNat - 2 ∧ hexAt s 16 8) ∧
    (let s := verified digitsFrame 27 0x00010001 State.reset
     s.rxVerified = true ∧ s.latArg0.toNat % 65536 + s.latArg1.toNat % 16 = s.rxlen.toNat - 2 ∧ hexAt s 27 1) := by
  decide +kernel

theorem witness_ExtsResult :
    let s := verified digitsFrame 8 0xFFFF0004 State.reset
    s.rxVerified = true ∧ 1 ≤ s.latArg1.toNat % 16 ∧ s.latArg1.toNat % 16 ≤ 8 ∧ s.latArg1.toNat / 65536 ≠ 0 ∧
      s.latArg0.toNat % 65536 + s.latArg1.toNat % 16 ≤ s.rxlen.toNat - 2 ∧ hexAt s 8 4 := by decide +kernel

/-- One state for each fault of R182: a width of 0, a width of 9, and an end one past HXLEN among them. -/
theorem witness_ExtFaultOrder :
    (loaded digitsFrame State.reset).rxVerified = false ∧
    (verified digitsFrame 0 0x00010000 State.reset).latArg1.toNat % 16 = 0 ∧
    8 < (verified digitsFrame 0 0x00010009 State.reset).latArg1.toNat % 16 ∧
    (verified digitsFrame 0 0x00000004 State.reset).latArg1.toNat / 65536 = 0 ∧
    (let s := verified digitsFrame 25 0x00010004 State.reset
     s.rxVerified = true ∧ s.rxlen.toNat - 2 < s.latArg0.toNat % 65536 + s.latArg1.toNat % 16) ∧
    (let s := verified digitsFrame 26 0x00010002 State.reset
     s.rxVerified = true ∧ s.latArg0.toNat % 65536 + s.latArg1.toNat % 16 ≤ s.rxlen.toNat - 2 ∧ ¬hexAt s 26 2) := by
  decide +kernel

/-- The first and the last slot, the widths 1 and 8. -/
theorem witness_ValWritesASlot :
    let s : State := { verified digitsFrame 0 0 State.reset with cur := 16, ns := 1023 }
    1 ≤ (1 : BitVec 4).toNat ∧ (8 : BitVec 4).toNat ≤ 8 ∧ s.cur + (8 : BitVec 4).toNat ≤ s.rxlen.toNat - 2 ∧
      hexAt s s.cur 8 ∧ s.ns < 1024 := by decide +kernel

theorem witness_CntReadsACount :
    let s : State := { verified digitsFrame 0 0 State.reset with cur := 24 }
    1 ≤ (2 : BitVec 4).toNat ∧ (2 : BitVec 4).toNat ≤ 8 ∧ s.cur + (2 : BitVec 4).toNat ≤ s.rxlen.toNat - 2 ∧
      hexAt s s.cur 2 ∧ s.ns < 1024 := by decide +kernel

/-- A count of 0 past the end of the frame, and a run that fills the last slots. -/
theorem witness_RepReadsARun :
    (let s : State := { verified digitsFrame 0 0 State.reset with cur := 99, ns := 1024 }
     s.c0.toNat = 0 ∧ hexAt s s.cur (s.c0.toNat * 4) ∧ s.ns + s.c0.toNat ≤ 1024) ∧
    (let s : State := { verified digitsFrame 0 0 State.reset with cur := 16, c1 := 4, ns := 1020 }
     s.c1.toNat = 4 ∧ s.cur + s.c1.toNat * (2 : BitVec 4).toNat ≤ s.rxlen.toNat - 2 ∧
      hexAt s s.cur (s.c1.toNat * 2) ∧ s.ns + s.c1.toNat ≤ 1024) := by decide +kernel

theorem witness_OpqSkipsASpan :
    let s : State := { verified digitsFrame 0 0 State.reset with cur := 24, ns := 1023 }
    s.cur + (4 : BitVec 12).toNat ≤ s.rxlen.toNat - 2 ∧ s.ns < 1024 := by decide +kernel

theorem witness_ReservedKindsFault : 5 ≤ ((0x00000500 : Word).toNat / 256) % 8 ∧
    5 ≤ ((0xFFFFFFFF : Word).toNat / 256) % 8 := by decide

/-- A field one past HXLEN, an invalid digit, slot 1024, a count of 1 for REP, and the widths 0 and 9. -/
theorem witness_DescriptorFaults :
    (let s : State := { verified digitsFrame 0 0 State.reset with cur := 27, c0 := 1 }
     s.c0.toNat ≠ 0 ∧ ¬s.cur + (2 : BitVec 4).toNat ≤ s.rxlen.toNat - 2 ∧ s.rxlen.toNat - 2 < s.cur + (2 : BitVec 12).toNat) ∧
    (let s : State := { verified digitsFrame 0 0 State.reset with cur := 26, c0 := 1 }
     s.cur + (2 : BitVec 4).toNat ≤ s.rxlen.toNat - 2 ∧ ¬hexAt s s.cur 2) ∧
    (let s : State := { verified digitsFrame 0 0 State.reset with cur := 24, c0 := 1, ns := 1024 }
     s.cur + (2 : BitVec 4).toNat ≤ s.rxlen.toNat - 2 ∧ hexAt s s.cur 2 ∧ 1024 ≤ s.ns ∧
      s.cur + (4 : BitVec 12).toNat ≤ s.rxlen.toNat - 2) ∧
    (let s : State := { verified digitsFrame 0 0 State.reset with cur := 24, c0 := 3 }
     1 < s.c0.toNat ∧ s.cur + 1 * 2 ≤ s.rxlen.toNat - 2 ∧ hexAt s s.cur (1 * 2) ∧ s.ns + 1 ≤ 1024 ∧
      s.cur + 1 * 2 + 2 ≤ s.rxlen.toNat - 2 ∧ ¬hexAt s (s.cur + 1 * 2) 2) ∧
    (let s : State := { verified digitsFrame 0 0 State.reset with cur := 16, c0 := 2 }
     1 < s.c0.toNat ∧ s.cur + 1 * 8 ≤ s.rxlen.toNat - 2 ∧ hexAt s s.cur (1 * 8) ∧ s.rxlen.toNat - 2 < s.cur + 1 * 8 + 8) ∧
    (let s : State := { verified digitsFrame 0 0 State.reset with cur := 16, c0 := 2, ns := 1023 }
     s.cur + 1 * 2 + 2 ≤ s.rxlen.toNat - 2 ∧ hexAt s (s.cur + 1 * 2) 2 ∧ s.ns + 1 = 1024) ∧
    (0 : BitVec 4).toNat = 0 ∧ 8 < (9 : BitVec 4).toNat ∧ Instr.val 2 false 0 false 0 ≠ .cnt 2 false 0 := by
  decide +kernel

theorem witness_ParseNeedsAVerifiedFrame : (loaded frameOk State.reset).rxVerified = false := by decide

/-- 66 digits of header from START = 12. -/
theorem witness_HeaderProgramReadsTheHeader :
    let s := verified (List.replicate 80 0x30) 12 66 State.reset
    s.rxVerified = true ∧ (∀ i, i < 15 → layoutRead s i = headerProgram.getD i 0) ∧ 12 + 66 ≤ s.rxlen.toNat - 2 ∧
      hexAt s 12 44 ∧ hexAt s (12 + 62) 4 := by decide +kernel

/-- 132 digits of a battery block with no cell and no sensor, from START = 0. -/
theorem witness_BatteryProgramConsumesTheBlock :
    let s := verified (List.replicate 134 0x30) 0 212 State.reset
    s.rxVerified = true ∧ (∀ i, i < 37 → layoutRead s (32 + i) = batteryProgram.getD i 0) ∧
      valueAt s 10 2 = 0 ∧ valueAt s 24 2 = 0 ∧ 132 ≤ s.rxlen.toNat - 2 ∧ hexAt s 0 (132 - 8) := by decide +kernel

theorem witness_StepKeepsInv :
    Inv (running 0x00204201 State.reset) ∧
    step (running 0x00204201 State.reset) = .next (after (running 0x00204201 State.reset)) :=
  ⟨by refine ⟨?_, ?_, ?_, ?_, ?_, ?_, ?_⟩ <;> decide +kernel, rfl⟩

/-- The Retire of a VERIFY, and the EOI of a good candidate in RX. -/
theorem witness_RxverifiedNeedsAChecksumPass :
    (let s := running 3 (loaded frameOk State.reset)
     Inv s ∧ step s = .next (after s) ∧ s.rxVerified = false ∧ (after s).rxVerified = true) ∧
    (let s : State :=
       { transacting .rx [.rxByte 0x0D] with rxbuf := cellsFrom 0 (frameOk.take 17), clen := 17, asm := .inFrame }
     Inv s ∧ step s = .next (after s) ∧ s.rxVerified = false ∧ (after s).rxVerified = true) := by
  refine ⟨⟨⟨?_, ?_, ?_, ?_, ?_, ?_, ?_⟩, rfl, rfl, ?_⟩, ⟨⟨?_, ?_, ?_, ?_, ?_, ?_, ?_⟩, rfl, rfl, ?_⟩⟩ <;> decide +kernel

theorem witness_CompletionRaisesIrq :
    let s : State := { running 0xFF State.reset with irqen := true }
    Inv s ∧ step s = .next (after s) ∧ s.busy = true ∧ (after s).busy = false := by
  refine ⟨⟨?_, ?_, ?_, ?_, ?_, ?_, ?_⟩, rfl, rfl, ?_⟩ <;> decide +kernel

end Sys2Proof.Tests
end

section
/-! PROOFS for spec/00_scope.md. The parameters of R6 are fixed for the machine (log 7): each operation of the block
keeps them, one lemma per operation, and with them in range every step gives a next state (log 15). -/

namespace Sys2Proof.Machine

/-! ## Commands keep the parameters -/

theorem extract_params (sgn : Bool) (s : State) : (extract sgn s).params = s.params := by
  unfold extract
  split_ifs
  · rfl
  · rfl
  · rfl
  · split <;> rfl

theorem SlotsGrow.params {s t : State} (h : SlotsGrow s t) : t.params = s.params := by
  rw [h.frame]

theorem ParseEnd.params {s t : State} (h : ParseEnd s t) : t.params = s.params := by
  cases h with
  | done u hu _ => exact hu.params
  | fault c u _ hu _ => exact hu.params

theorem parse_params (didx : BitVec 7) (s : State) : (parse didx s).params = s.params := by
  rcases parse_end didx s with ⟨_, hend⟩ | ⟨_, hfault⟩
  · exact hend.params
  · rw [hfault]
    rfl

theorem CmdEffect.params {w : Word} {s t : State} (h : CmdEffect w s t) : t.params = s.params := by
  cases h with
  | ext _ sgn => exact extract_params sgn s
  | parse _ didx => exact parse_params didx s
  | _ => rfl

/-! ## The transaction keeps the parameters -/

theorem gapEnd_params (s : State) : (gapEnd s).params = s.params := by
  rcases gapEnd_cases s with ⟨_, e⟩ | ⟨_, _, e⟩ | ⟨_, _, e⟩ <;> rw [e] <;> rfl

theorem txAccept_params (s : State) : (txAccept s).params = s.params := by
  by_cases hv : txValid s = true
  · by_cases hlast : s.txpos + 1 = 20
    · rw [txAccept_last hv hlast]
      split_ifs
      · exact gapEnd_params _
      · rfl
    · rw [txAccept_next hv hlast]
  · rw [txAccept_else (by simpa using hv)]

theorem tick_params (s : State) : (tick s).params = s.params := by
  by_cases hgap : s.phase = .gap
  · rw [tick_gap hgap]
    split_ifs
    · exact gapEnd_params _
    · rfl
  · by_cases hrx : s.phase = .rx
    · rw [tick_rx hrx]
      split_ifs <;> rfl
    · rw [tick_else hgap hrx]

@[simp] theorem reject_params (c : Cause) (f : List Byte) (s : State) : (reject c f s).params = s.params := by
  obtain ⟨_, _, _, _, _, e⟩ := reject_eq c f s
  rw [e]

theorem accept_params (s : State) : (accept s).params = s.params := by
  unfold accept
  dsimp only
  split_ifs <;> rfl

theorem endCandidate_params (s : State) : (endCandidate s).params = s.params := by
  unfold endCandidate
  dsimp only
  split_ifs
  · exact accept_params s
  · exact reject_params _ _ s

/-- From every state, also one whose candidate is longer than RXBUF, which `assemble_effect` leaves out. -/
theorem assemble_params (b : Byte) (s : State) : (assemble b s).params = s.params := by
  unfold assemble
  cases s.asm with
  | waitFirst => dsimp only; split_ifs <;> simp
  | skip => dsimp only; split_ifs <;> simp
  | inFrame =>
    dsimp only
    split_ifs
    · simp
    · rfl
    · exact endCandidate_params _
    · rfl
  | _ => dsimp only; split_ifs <;> simp

theorem rxByte_params (b : Byte) (s : State) : (rxByte b s).params = s.params := by
  unfold rxByte
  split_ifs
  · exact assemble_params b s
  · rfl

/-! ## Host accesses keep the parameters -/

theorem WriteEffect.params {s t : State} (h : WriteEffect s t) : t.params = s.params := by
  cases h <;> rfl

theorem hostWrite_params (a : Half) (d : Word) {s : State} (hp : s.params.valid = true) :
    (hostWrite (target s.params a) d s).params = s.params := by
  rcases hostWrite_effect (a := a) d s hp with heffect | ⟨i, _, _, _, e⟩
  · exact heffect.params
  · rw [e, layoutWrite_params]

theorem hostRead_params (g : Target) (s : State) : (hostRead g s).params = s.params := by
  unfold hostRead
  split_ifs <;> rfl

/-! ## Every event gives a next state and keeps the parameters -/

/-- The outcome is a next state, with the parameters of `s`. -/
def GoesOnFrom (s : State) (o : Host.Outcome State Fault Refusal) : Prop := ∃ t, o = .next t ∧ t.params = s.params

theorem GoesOnFrom.next {s t : State} (h : t.params = s.params) : GoesOnFrom s (.next t) := ⟨t, rfl, h⟩

/-- A command's fault is a completion, so every command word goes on (R232, R238, R239). -/
theorem exec_decodeCmd_goesOn (w : Word) (s : State) : GoesOnFrom s (exec (decodeCmd w) s) := by
  obtain ⟨t, ht, heffect⟩ := exec_decodeCmd w s
  exact ⟨t, ht, heffect.params⟩

theorem retire_goesOn (s : State) : GoesOnFrom s (retire s) := by
  unfold retire
  split_ifs
  · exact exec_decodeCmd_goesOn s.latCmd s
  · exact .next rfl

theorem issue_goesOn (d : Word) (s : State) : GoesOnFrom s (issue d s) := by
  unfold issue
  dsimp only
  split_ifs
  · exact exec_decodeCmd_goesOn d (issueLatch d s)
  · exact .next rfl
  · exact .next rfl

/-- No host write faults (R47, R68). -/
theorem hostWriteEvent_goesOn (a : Half) (d : Word) {s : State} (hp : s.params.valid = true) :
    GoesOnFrom s (hostWriteEvent a d s) := by
  rw [hostWriteEvent_eq a d s hp]
  split_ifs
  · exact .next rfl
  · exact .next rfl
  · exact .next rfl
  · exact issue_goesOn d s
  · exact .next (hostWrite_params a d hp)

/-- No host read faults (R47, R68). -/
theorem hostReadEvent_goesOn (a : Half) (s : State) : GoesOnFrom s (hostReadEvent a s) := by
  rw [hostReadEvent_eq]
  split_ifs
  · exact .next rfl
  · exact .next (hostRead_params _ s)

theorem runEvent_goesOn (e : Event) {s : State} (hp : s.params.valid = true) : GoesOnFrom s (runEvent e s) := by
  cases e with
  | hostWrite a d => exact hostWriteEvent_goesOn a d hp
  | hostRead a => exact hostReadEvent_goesOn a s
  | rxByte b => exact .next (rxByte_params b s)
  | txAccept => exact .next (txAccept_params s)
  | tick => exact .next (tick_params s)
  | retire => exact retire_goesOn s
  | reset => exact .next rfl

/-- Settles O16: a step is a Retire or one event of the input, and each goes on with the parameters it met. -/
theorem stepNeverStops : Obligations.StepNeverStops := by
  intro s hp
  cases hi : s.input with
  | nil =>
    rw [step_nil hp hi]
    exact retire_goesOn s
  | cons e rest =>
    rw [step_cons hp hi]
    exact runEvent_goesOn e (s := { s with input := rest }) hp

end Sys2Proof.Machine
end

section
/-! PROOFS for spec/10_state.md, the invariant: what no phase changes, what a running transaction adds, and one lemma
per kind of step. -/

namespace Sys2Proof.Machine

/-! ## The invariant by phase -/

/-- The part of the invariant that does not depend on BUSY, DONE and PHASE. -/
structure Sound (s : State) : Prop where
  params : s.params.valid = true
  mem : s.memWf
  txlen : s.txlen = 0 ∨ s.txlen = 20
  txpos : s.txpos.toNat ≤ 20
  ranges : rangesOk s
  interp : interpreterIdle s
  verified : s.rxVerified = true → frameGood s

/-- What every phase of a transaction adds (R150, R153). -/
structure Exchange (s : State) : Prop where
  busy : s.busy = true
  done : s.done = false
  rxVerified : s.rxVerified = false
  txlen : s.txlen = 20
  cmd : cmdOp s.latCmd = 2

/-- The places of a transaction are no part of either, but for TXPOS's range. -/
theorem Sound.moved {s : State} (h : Sound s) {pos : BitVec 5} (hpos : pos.toNat ≤ 20) (p : Phase) (n : Word) :
    Sound { s with phase := p, tcnt := n, txpos := pos } :=
  ⟨h.params, h.mem, h.txlen, hpos, h.ranges, h.interp, h.verified⟩

theorem Exchange.moved {s : State} (h : Exchange s) (pos : BitVec 5) (p : Phase) (n : Word) :
    Exchange { s with phase := p, tcnt := n, txpos := pos } :=
  ⟨h.busy, h.done, h.rxVerified, h.txlen, h.cmd⟩

theorem Inv.sound {s : State} (h : Inv s) : Sound s := by
  obtain ⟨hparams, hmem, _, ⟨htxlen, htxpos, _⟩, hranges, hinterp, hverified, _⟩ := h
  exact ⟨hparams, hmem, htxlen, htxpos, hranges, hinterp, hverified⟩

theorem Inv.exchange {s : State} (h : Inv s) (ht : inTransaction s) : Exchange s := by
  obtain ⟨_, _, ⟨hbusy, hdone⟩, ⟨_, _, _, _, _, htrans, _⟩, _⟩ := h
  obtain ⟨hv, hl, hc⟩ := htrans ht
  have hb : s.busy = true := hbusy.2 (by rcases ht with e | e | e <;> rw [e] <;> decide)
  refine ⟨hb, ?_, hv, hl, hc⟩
  by_contra hd
  exact absurd (hdone (by simpa using hd)) (by simp [hb])

theorem Inv.idle_of_not_busy {s : State} (h : Inv s) (hb : s.busy = false) : s.phase = .idle := by
  obtain ⟨_, _, ⟨hbusy, _⟩, _⟩ := h
  by_contra hp
  exact absurd (hbusy.2 hp) (by simp [hb])

/-- A frame accepted in TX or GAP is good (R165). -/
theorem Inv.frameGood_of_accepted {s : State} (h : Inv s) (ht : s.phase = .tx ∨ s.phase = .gap)
    (ha : s.accepted = true) : frameGood s := by
  obtain ⟨_, _, _, _, _, _, _, hacc⟩ := h
  exact hacc ht ha

theorem Sound.inv_idle {s : State} (h : Sound s) (hp : s.phase = .idle) (hb : s.busy = false) : Inv s :=
  ⟨h.params, h.mem, ⟨by simp [hp, hb], fun _ => hb⟩, ⟨h.txlen, h.txpos, by simp [hp]⟩, h.ranges, h.interp, h.verified,
    by simp [hp]⟩

theorem Sound.inv_run {s : State} (h : Sound s) (hp : s.phase = .run) (hb : s.busy = true) (hd : s.done = false)
    (hx : cmdOp s.latCmd = 2 → s.txlen ≠ 20) : Inv s :=
  ⟨h.params, h.mem, ⟨by simp [hp, hb], by simp [hd]⟩, ⟨h.txlen, h.txpos, by simpa [hp] using hx⟩, h.ranges, h.interp,
    h.verified, by simp [hp]⟩

theorem Sound.inv_tx {s : State} (h : Sound s) (hx : Exchange s) (hp : s.phase = .tx) (hpos : s.txpos.toNat < 20)
    (hacc : s.accepted = true → frameGood s) : Inv s :=
  ⟨h.params, h.mem, ⟨by simp [hp, hx.busy], by simp [hx.done]⟩,
    ⟨h.txlen, h.txpos, by simp [hp, hpos, hx.rxVerified, hx.txlen, hx.cmd]⟩, h.ranges, h.interp, h.verified,
    fun _ => hacc⟩

theorem Sound.inv_gap {s : State} (h : Sound s) (hx : Exchange s) (hp : s.phase = .gap)
    (hcnt : s.tcnt.toNat < s.latGap.toNat) (hacc : s.accepted = true → frameGood s) : Inv s :=
  ⟨h.params, h.mem, ⟨by simp [hp, hx.busy], by simp [hx.done]⟩,
    ⟨h.txlen, h.txpos, by simp [hp, hcnt, hx.rxVerified, hx.txlen, hx.cmd]⟩, h.ranges, h.interp, h.verified,
    fun _ => hacc⟩

theorem Sound.inv_rx {s : State} (h : Sound s) (hx : Exchange s) (hp : s.phase = .rx)
    (hcnt : s.tcnt.toNat < s.latTmo.toNat) (hacc : s.accepted = false) : Inv s :=
  ⟨h.params, h.mem, ⟨by simp [hp, hx.busy], by simp [hx.done]⟩,
    ⟨h.txlen, h.txpos, by simp [hp, hcnt, hacc, hx.rxVerified, hx.txlen, hx.cmd]⟩, h.ranges, h.interp, h.verified,
    by simp [hp]⟩

/-! ## Completion -/

/-- Completion leaves an idle block (R232). -/
theorem Sound.inv_complete {s : State} (h : Sound s) (c : Code) : Inv (complete c s) :=
  Sound.inv_idle ⟨h.params, h.mem, h.txlen, h.txpos, h.ranges, h.interp, h.verified⟩ rfl rfl

/-- The draw above RXLEN keeps the frame (R77, R155). -/
theorem frameGood_redrawRx {s : State} (h : frameGood s) : frameGood (redrawRx s) := by
  unfold frameGood at h ⊢
  rwa [redrawRx_rxlen, rxFrame_redrawRx]

theorem Sound.inv_xactOk {s : State} (h : Sound s) (hg : frameGood s) : Inv (xactOk s) := by
  have hmem := memWf_redrawRx h.ranges.1 h.mem
  unfold xactOk
  apply Sound.inv_complete
  exact ⟨h.params, hmem, h.txlen, h.txpos, h.ranges, h.interp, fun _ => frameGood_redrawRx hg⟩

theorem Sound.inv_xactTimeout {s : State} (h : Sound s) : Inv (xactTimeout s) := by
  have hmem : (redrawRx { s with rxlen := 0, rxVerified := false }).memWf := memWf_redrawRx (Nat.zero_le _) h.mem
  obtain ⟨_, hrest⟩ := h.ranges
  unfold xactTimeout
  apply Sound.inv_complete
  exact ⟨h.params, hmem, h.txlen, h.txpos, ⟨Nat.zero_le _, hrest⟩, h.interp, fun hv => Bool.noConfusion hv⟩

/-! ## Commands at their Retire -/

theorem Sound.inv_sendFrame {s : State} (h : Sound s) (adr code : Byte) : Inv (sendFrame adr code s) := by
  obtain ⟨_, hmem⟩ := h.mem
  have htx : Memory.wf Config.txbufBytes (cellsFrom 0 (requestFrame adr code)) :=
    Memory.wf_cellsFrom (by simp [requestFrame, requestBody, hex2, hex4])
  unfold sendFrame
  apply Sound.inv_complete
  exact ⟨h.params, ⟨htx, hmem⟩, .inr rfl, h.txpos, h.ranges, h.interp, h.verified⟩

theorem Sound.inv_badArg {s : State} (h : Sound s) : Inv (badArg s) := by
  have hmem : (redrawTx { s with txlen := 0 }).memWf := memWf_redrawTx h.mem
  unfold badArg
  apply Sound.inv_complete
  exact ⟨h.params, hmem, .inl rfl, h.txpos, h.ranges, h.interp, h.verified⟩

/-- VERIFY and GATECHK: results that leave the frame alone, and RXVERIFIED as the checksum says (R133, R134). -/
theorem Sound.inv_verdict {s : State} (h : Sound s) (r0 r1 r2 : Word) :
    Inv (complete .ok { s with res0 := r0, res1 := r1, res2 := r2,
                               rxVerified := (verifyFrame (rxFrame s s.rxlen.toNat)).good }) := by
  apply Sound.inv_complete
  exact ⟨h.params, h.mem, h.txlen, h.txpos, h.ranges, h.interp, id⟩

theorem Sound.inv_extract {s : State} (h : Sound s) (sgn : Bool) : Inv (extract sgn s) := by
  have fault : ∀ (c : Code) (off : Nat), Inv (extFault c off s) := fun c off => by
    obtain ⟨hrxlen, hclen, hnslot, _, hrej⟩ := h.ranges
    unfold extFault
    apply Sound.inv_complete
    exact ⟨h.params, h.mem, h.txlen, h.txpos, ⟨hrxlen, hclen, hnslot, Nat.zero_le _, hrej⟩, h.interp, h.verified⟩
  unfold extract
  split_ifs
  · exact fault _ _
  · exact fault _ _
  · exact fault _ _
  · split
    · exact fault _ _
    · apply Sound.inv_complete
      exact ⟨h.params, h.mem, h.txlen, h.txpos, h.ranges, h.interp, h.verified⟩

/-- Any state of the interpreter that a PARSE of a sound state reaches: only the interpreter's registers and the slots
differ, and the slots are canonical and counted (R200). -/
structure Parsing (s u : State) : Prop where
  frame : u = { s with fval := u.fval, ftag := u.ftag, ns := u.ns, cur := u.cur, pc := u.pc, c0 := u.c0, c1 := u.c1 }
  fval : Memory.wf 1024 u.fval
  ftag : Memory.wf 1024 u.ftag
  ns : u.ns ≤ 1024
  pc : u.pc ≤ 128

theorem Parsing.init {s : State} (h : Sound s) (didx : BitVec 7) : Parsing s (parseInit didx s) := by
  obtain ⟨_, _, _, _, hfval, hftag⟩ := h.mem
  exact ⟨rfl, hfval, hftag, Nat.zero_le _, by show didx.toNat ≤ 128; omega⟩

theorem Parsing.grow {s u v : State} (h : Parsing s u) (hg : SlotsGrow u v) (hpc : v.pc ≤ 128) : Parsing s v where
  frame := by
    have e := hg.frame
    rw [h.frame] at e
    exact e
  fval := hg.fvalWf h.ns h.fval
  ftag := hg.ftagWf h.ns h.ftag
  ns := hg.bound h.ns
  pc := hpc

/-- Both ends of a PARSE: the interpreter's registers go back to 0 and the slot count is in range (R49, R201). -/
theorem Parsing.inv_end {s u : State} (hp : Parsing s u) (h : Sound s) (c : Code) (nx : Word) (rs lw : Bool)
    (fo : Half) (fp : Byte) (hfp : fp.toNat ≤ 128) :
    Inv (complete c (clearInterp { u with nextOff := nx, resync := rs, lenWarn := lw, nslot := BitVec.ofNat 16 u.ns,
                                          cnt0 := u.c0, cnt1 := u.c1, faultOff := fo, faultPc := fp })) := by
  obtain ⟨htx, hrx, hlay, hlayout, _, _⟩ := h.mem
  obtain ⟨hrxlen, hclen, _, _, hrej⟩ := h.ranges
  have hnslot : (BitVec.ofNat 16 u.ns).toNat ≤ 1024 := by
    rw [BitVec.toNat_ofNat]
    exact (Nat.mod_le _ _).trans hp.ns
  rw [hp.frame]
  apply Sound.inv_complete
  exact ⟨h.params, ⟨htx, hrx, hlay, hlayout, hp.fval, hp.ftag⟩, h.txlen, h.txpos, ⟨hrxlen, hclen, hnslot, hfp, hrej⟩,
    ⟨rfl, rfl, rfl⟩, h.verified⟩

theorem Parsing.inv_pfault {s u : State} (hp : Parsing s u) (h : Sound s) (c : Code) (off : Nat) :
    Inv (pfault c off u) := by
  have hfp : (BitVec.ofNat 8 u.pc).toNat ≤ 128 := by
    rw [BitVec.toNat_ofNat]
    exact (Nat.mod_le _ _).trans hp.pc
  exact hp.inv_end h c _ _ u.lenWarn _ _ hfp

theorem Parsing.inv_finish {s u : State} (hp : Parsing s u) (h : Sound s) : Inv (finish u) := by
  obtain ⟨_, _, _, hfp, _⟩ := h.ranges
  have hu : u.faultPc = s.faultPc := by rw [hp.frame]
  exact hp.inv_end h .ok _ u.resync _ u.faultOff u.faultPc (by rw [hu]; exact hfp)

theorem ParseEnd.inv {s u t : State} (he : ParseEnd u t) (hp : Parsing s u) (h : Sound s) : Inv t := by
  cases he with
  | done v hv hpc => exact (hp.grow hv (by omega)).inv_finish h
  | fault c v _ hv hpc => exact (hp.grow hv hpc).inv_pfault h c _

theorem Sound.inv_parse {s : State} (h : Sound s) (didx : BitVec 7) : Inv (parse didx s) := by
  have hinit := Parsing.init h didx
  rcases parse_end didx s with ⟨_, hend⟩ | ⟨_, hfault⟩
  · exact hend.inv hinit h
  · rw [hfault]
    exact hinit.inv_pfault h _ _

/-- A command that waits in RUN ends there; an XACT there has TXLEN ≠ 20, so it starts no transaction (R153, R231). -/
theorem CmdEffect.inv {s t : State} (he : CmdEffect s.latCmd s t) (h : Inv s) (hr : s.phase = .run) : Inv t := by
  have hs := h.sound
  obtain ⟨_, _, _, ⟨_, _, _, _, _, _, hxact⟩, _⟩ := h
  cases he with
  | nop _ => exact hs.inv_complete _
  | send _ adr code => exact hs.inv_sendFrame adr code
  | badArg _ => exact hs.inv_badArg
  | start hop ht => exact absurd ht (hxact hr hop)
  | noFrame _ _ _ => exact hs.inv_complete _
  | wait _ _ hn => exact absurd hr hn
  | verify _ => exact hs.inv_verdict _ _ _
  | gatechk _ => exact hs.inv_verdict _ _ _
  | ext _ sgn => exact hs.inv_extract sgn
  | parse _ didx => exact hs.inv_parse didx
  | badOp _ => exact hs.inv_complete _

theorem retire_inv {s t : State} (h : Inv s) (hstep : retire s = .next t) : Inv t := by
  rcases retire_cases hstep with ⟨hr, heffect⟩ | ⟨_, rfl⟩
  · exact heffect.inv h hr
  · exact h

/-! ## Issue -/

theorem Sound.issueLatch {s : State} (h : Sound s) (d : Word) : Sound (issueLatch d s) := by
  obtain ⟨hrxlen, hclen, hnslot, _, hrej⟩ := h.ranges
  exact ⟨h.params, h.mem, h.txlen, h.txpos, ⟨hrxlen, hclen, hnslot, Nat.zero_le _, hrej⟩, h.interp, h.verified⟩

/-- The start of a transaction (R153). -/
theorem Sound.inv_xactStart {s : State} (h : Sound s) (hb : s.busy = true) (hd : s.done = false)
    (ht : s.txlen = 20) (hc : cmdOp s.latCmd = 2) : Inv (xactStart s) := by
  obtain ⟨_, _, hrest⟩ := h.ranges
  have hs : Sound (xactStart s) :=
    ⟨h.params, h.mem, h.txlen, Nat.zero_le _, ⟨Nat.zero_le _, Nat.zero_le _, hrest⟩, h.interp, fun hv => Bool.noConfusion hv⟩
  exact hs.inv_tx ⟨hb, hd, rfl, ht, hc⟩ rfl (Nat.zero_lt_succ _) (fun ha => Bool.noConfusion ha)

theorem issue_inv {s t : State} {d : Word} (h : Inv s) (hb : s.busy = false) (hstep : issue d s = .next t) : Inv t := by
  have hidle := h.idle_of_not_busy hb
  have hs := h.sound.issueLatch d
  rcases issue_cases (by rw [hidle]; decide) hstep with ⟨hop, ht, rfl⟩ | ⟨hop, rfl⟩ | ⟨_, hx, rfl⟩
  · exact hs.inv_xactStart rfl rfl ht hop
  · exact Sound.inv_run ⟨hs.params, hs.mem, hs.txlen, hs.txpos, hs.ranges, hs.interp, hs.verified⟩ rfl rfl rfl
      (fun e => absurd (hop.symm.trans e) (by decide))
  · exact Sound.inv_run ⟨hs.params, hs.mem, hs.txlen, hs.txpos, hs.ranges, hs.interp, hs.verified⟩ rfl rfl rfl hx

/-! ## Host accesses -/

theorem WriteEffect.inv {s t : State} (he : WriteEffect s t) (h : Inv s) : Inv t := by
  have hs := h.sound
  have ⟨hparams, hmem, ⟨hbusy, hdone⟩, htrans, ⟨hrxlen, hclen, hnslot, hfaultPc, _⟩, hinterp, hver⟩ := h
  cases he with
  | none => exact h
  | ctrl b => exact h
  | clearCounts b =>
    exact ⟨hparams, hmem, ⟨hbusy, hdone⟩, htrans, ⟨hrxlen, hclen, hnslot, hfaultPc, fun _ => ⟨rfl, rfl⟩⟩, hinterp, hver⟩
  | ack d =>
    have hdone' : (ackStatus d s).done = true → s.busy = false := fun hd => hdone (Bool.and_eq_true_iff.1 hd).1
    exact ⟨hparams, hmem, ⟨hbusy, hdone'⟩, htrans, hs.ranges, hinterp, hver⟩
  | operands a0 a1 g m l => exact h
  | busyErr hb => exact h
  | rxlen hb n =>
    have hle : (BitVec.ofNat 16 (min n s.params.rxbufBytes)).toNat ≤ s.params.rxbufBytes := by
      rw [BitVec.toNat_ofNat]
      exact (Nat.mod_le _ _).trans (Nat.min_le_right _ _)
    exact Sound.inv_idle
      ⟨hs.params, hs.mem, hs.txlen, hs.txpos, ⟨hle, hs.ranges.2⟩, hs.interp, fun hv => Bool.noConfusion hv⟩
      (h.idle_of_not_busy hb) hb
  | rxbuf hb i b hi =>
    exact Sound.inv_idle
      ⟨hs.params, memWf_rxWrite b hi hs.mem, hs.txlen, hs.txpos, hs.ranges, hs.interp, fun hv => Bool.noConfusion hv⟩
      (h.idle_of_not_busy hb) hb

theorem layoutWrite_inv {s : State} {i : Nat} (w : Word) (hi : i < 128) (h : Inv s) : Inv (layoutWrite i w s) := by
  obtain ⟨hparams, hmem, hrest⟩ := h
  exact ⟨hparams, memWf_layoutWrite w hi hmem, hrest⟩

theorem hostWriteEvent_inv {s t : State} {a : Half} {d : Word} (h : Inv s) (hstep : hostWriteEvent a d s = .next t) :
    Inv t := by
  have hp := h.sound.params
  rcases hostWriteEvent_cases hp hstep with ⟨x, rfl⟩ | ⟨_, ⟨_, rfl⟩ | ⟨hb, hissue⟩⟩ | ⟨_, rfl⟩
  · exact h
  · exact h
  · exact issue_inv h hb hissue
  · rcases hostWrite_effect (a := a) d s hp with heffect | ⟨i, hi, _, _, e⟩
    · exact heffect.inv h
    · rw [e]
      exact layoutWrite_inv d hi h

theorem hostReadEvent_inv {s t : State} {a : Half} (h : Inv s) (hstep : hostReadEvent a s = .next t) : Inv t := by
  obtain ⟨r, n, rfl⟩ := hostReadEvent_cases hstep
  exact h

/-! ## The transmitter and the timebase -/

/-- The end of a gap completes an accepted frame, or opens RX unless its timeout is 0 (R156). -/
theorem gapEnd_inv {s : State} (h : Sound s) (hx : Exchange s) (hacc : s.accepted = true → frameGood s) :
    Inv (gapEnd s) := by
  have hrx : Sound { s with phase := .rx, tcnt := 0 } := h.moved h.txpos .rx 0
  rcases gapEnd_cases s with ⟨ha, e⟩ | ⟨_, _, e⟩ | ⟨ha, htmo, e⟩ <;> rw [e]
  · exact h.inv_xactOk (hacc ha)
  · exact hrx.inv_xactTimeout
  · have hpos : 0 < s.latTmo.toNat := Nat.pos_of_ne_zero fun hz => htmo (BitVec.eq_of_toNat_eq hz)
    exact hrx.inv_rx (hx.moved s.txpos .rx 0) rfl hpos ha

theorem txAccept_inv {s : State} (h : Inv s) : Inv (txAccept s) := by
  by_cases hv : txValid s = true
  swap
  · rwa [txAccept_else (by simpa using hv)]
  have htx : s.phase = .tx ∧ s.txpos.toNat < 20 := by simpa [txValid] using hv
  obtain ⟨hphase, hpos⟩ := htx
  have hs := h.sound
  have hx := h.exchange (.inl hphase)
  have hacc := h.frameGood_of_accepted (.inl hphase)
  have hsucc : (s.txpos + 1).toNat = s.txpos.toNat + 1 := by
    rw [BitVec.toNat_add]
    exact Nat.mod_eq_of_lt (by simp; omega)
  have hle : (s.txpos + 1).toNat ≤ 20 := by omega
  by_cases hlast : s.txpos + 1 = 20
  · have hgap := hs.moved hle .gap 0
    have hx' := hx.moved (s.txpos + 1) .gap 0
    rw [txAccept_last hv hlast]
    split_ifs with hz
    · exact gapEnd_inv hgap hx' hacc
    · exact hgap.inv_gap hx' rfl (Nat.pos_of_ne_zero fun e => hz (BitVec.eq_of_toNat_eq e)) hacc
  · have hne : (s.txpos + 1).toNat ≠ 20 := fun e => hlast (BitVec.eq_of_toNat_eq e)
    rw [txAccept_next hv hlast]
    exact (hs.moved hle s.phase s.tcnt).inv_tx (hx.moved (s.txpos + 1) s.phase s.tcnt) hphase
      (by show (s.txpos + 1).toNat < 20; omega) hacc

/-- A counter below its compare value that does not reach it with one more stays below it (R246). -/
theorem succ_lt_of_ne {x l : Word} (h : x.toNat < l.toNat) (hne : x + 1 ≠ l) : (x + 1).toNat < l.toNat := by
  have hl := l.isLt
  have hsucc : (x + 1).toNat = x.toNat + 1 := by
    rw [BitVec.toNat_add]
    exact Nat.mod_eq_of_lt (by simp; omega)
  have hne' : (x + 1).toNat ≠ l.toNat := fun e => hne (BitVec.eq_of_toNat_eq e)
  omega

theorem tick_inv {s : State} (h : Inv s) : Inv (tick s) := by
  have hs := h.sound
  have ht : Sound { s with tcnt := s.tcnt + 1 } := hs.moved hs.txpos s.phase (s.tcnt + 1)
  have hx : inTransaction s → Exchange { s with tcnt := s.tcnt + 1 } := fun htrans =>
    (h.exchange htrans).moved s.txpos s.phase (s.tcnt + 1)
  have ⟨_, _, _, ⟨_, _, _, hgapCnt, hrxCnt, _⟩, _⟩ := h
  by_cases hgap : s.phase = .gap
  · have hacc := h.frameGood_of_accepted (.inr hgap)
    rw [tick_gap hgap]
    split_ifs with hend
    · exact gapEnd_inv ht (hx (.inr (.inl hgap))) hacc
    · exact ht.inv_gap (hx (.inr (.inl hgap))) hgap (succ_lt_of_ne (hgapCnt hgap) hend) hacc
  · by_cases hrx : s.phase = .rx
    · obtain ⟨hcnt, ha⟩ := hrxCnt hrx
      rw [tick_rx hrx]
      split_ifs with hend
      · exact ht.inv_xactTimeout
      · exact ht.inv_rx (hx (.inr (.inr hrx))) hrx (succ_lt_of_ne hcnt hend) ha
    · rwa [tick_else hgap hrx]

/-! ## The receiver -/

/-- A listening block keeps the invariant when only the assembler, the candidate, REJLAST and its counters move: nothing
is verified or accepted yet. -/
theorem Inv.receive {s t : State} (h : Inv s) (hv : s.rxVerified = false) (ha : s.accepted = false)
    (hframe : t = { s with rxbuf := t.rxbuf, clen := t.clen, asm := t.asm, rejCause := t.rejCause, rejHi := t.rejHi,
                           rejLo := t.rejLo, rejcntA := t.rejcntA, rejcntB := t.rejcntB, rejcntC := t.rejcntC,
                           rejcntD := t.rejcntD, rejcntE := t.rejcntE })
    (hbuf : Memory.wf s.params.rxbufBytes t.rxbuf) (hclen : t.clen ≤ s.params.rxbufBytes)
    (hrej : t.rejCause ≠ .rtn → t.rejHi = 0 ∧ t.rejLo = 0) : Inv t := by
  obtain ⟨hparams, ⟨htx, _, hmem⟩, hlife, htrans, ⟨hrxlen, _, hnslot, hfaultPc, _⟩, hinterp, _⟩ := h
  rw [hframe]
  exact ⟨hparams, ⟨htx, hbuf, hmem⟩, hlife, htrans, ⟨hrxlen, hclen, hnslot, hfaultPc, hrej⟩, hinterp,
    fun e => absurd (hv.symm.trans e) (by decide), fun _ e => absurd (ha.symm.trans e) (by decide)⟩

theorem Inv.receive_reject {s : State} (h : Inv s) (hv : s.rxVerified = false) (ha : s.accepted = false) (c : Cause)
    (f : List Byte) (a : Asm) : Inv { reject c f s with asm := a } := by
  have ⟨_, ⟨_, hbuf, _⟩, _, _, ⟨_, hclen, _⟩, _⟩ := h
  obtain ⟨_, _, _, _, _, e⟩ := reject_eq c f s
  rw [e]
  exact h.receive hv ha rfl hbuf hclen fun hc => ⟨if_neg hc, if_neg hc⟩

theorem Inv.receive_store {s : State} (h : Inv s) (hv : s.rxVerified = false) (ha : s.accepted = false) {i n : Nat}
    (b : Byte) (a : Asm) (hi : i < s.params.rxbufBytes) (hn : n ≤ s.params.rxbufBytes) :
    Inv { rxWrite i b s with clen := n, asm := a } := by
  have ⟨_, ⟨_, hbuf, _⟩, _, _, ⟨_, _, _, _, hrej⟩, _⟩ := h
  exact h.receive hv ha rfl (Memory.wf_insert hi hbuf) hn hrej

/-- Acceptance of a good candidate: at once in RX, and kept for the end of the gap in TX and GAP (R165). -/
theorem accept_inv {s : State} (h : Inv s) (ht : inTransaction s)
    (hg : (verifyFrame (rxFrame s s.clen)).good = true) : Inv (accept s) := by
  have hs := h.sound
  have hx := h.exchange ht
  have ⟨_, _, _, ⟨_, _, htxPos, hgapCnt, _⟩, ⟨_, hclen, hrest⟩, _⟩ := h
  have hvalid := hs.params
  simp only [Config.Params.valid, decide_eq_true_eq] at hvalid
  have hlen : (BitVec.ofNat 16 s.clen).toNat = s.clen := by
    rw [BitVec.toNat_ofNat]
    exact Nat.mod_eq_of_lt (by omega)
  have hgood : frameGood { s with accepted := true, rxlen := BitVec.ofNat 16 s.clen } := by
    show (verifyFrame (rxFrame s (BitVec.ofNat 16 s.clen).toNat)).good = true
    rwa [hlen]
  have hacc : Sound { s with accepted := true, rxlen := BitVec.ofNat 16 s.clen } :=
    ⟨hs.params, hs.mem, hs.txlen, hs.txpos, ⟨by show (BitVec.ofNat 16 s.clen).toNat ≤ _; rwa [hlen], hclen, hrest⟩,
      hs.interp, fun _ => hgood⟩
  have hx' : Exchange { s with accepted := true, rxlen := BitVec.ofNat 16 s.clen } :=
    ⟨hx.busy, hx.done, hx.rxVerified, hx.txlen, hx.cmd⟩
  unfold accept
  dsimp only
  split_ifs with hrx
  · exact hacc.inv_xactOk hgood
  · rcases ht with htx | hgap | hrx'
    · exact hacc.inv_tx hx' htx (htxPos htx) fun _ => hgood
    · exact hacc.inv_gap hx' hgap (hgapCnt hgap) fun _ => hgood
    · exact absurd hrx' hrx

theorem AsmEffect.inv {s t : State} (he : AsmEffect s t) (h : Inv s) (ht : inTransaction s) (ha : s.accepted = false) :
    Inv t := by
  have hv := (h.exchange ht).rxVerified
  have hstored : s.clen < s.params.rxbufBytes → Inv { rxWrite s.clen eoi s with clen := s.clen + 1, asm := .waitFirst } :=
    fun hn => h.receive_store hv ha eoi .waitFirst hn hn
  cases he with
  | move a => exact h
  | reject c f a => exact h.receive_reject hv ha c f a
  | store i n b a hi hn => exact h.receive_store hv ha b a hi hn
  | storeReject u hu hn c f =>
    subst hu
    exact (hstored hn).receive_reject hv ha c f (Machine.reject c f _).asm
  | accept u hu hn hg =>
    subst hu
    exact accept_inv (hstored hn) ht hg

theorem rxByte_inv {s : State} (b : Byte) (h : Inv s) : Inv (rxByte b s) := by
  unfold rxByte
  split_ifs with hl
  · obtain ⟨ht, ha⟩ : inTransaction s ∧ s.accepted = false := by simpa [listening] using hl
    have ⟨hparams, _, _, _, ⟨_, hclen, _⟩, _⟩ := h
    exact (assemble_effect b s hparams hclen).inv h ht ha
  · exact h

/-! ## Every step -/

/-- The table of R260 is sound for legal parameters. -/
theorem resetEvent_inv {s : State} (h : s.params.valid = true) : Inv (resetEvent s) := by
  have hwf : ∀ (α : Type) (n : Nat), Memory.wf n ([] : List (Nat × α)) := fun _ _ =>
    ⟨List.Pairwise.nil, fun _ hc => absurd hc List.not_mem_nil⟩
  have hlayout : ∀ c ∈ ([] : List (Nat × Word)), c.2 ≠ defaultLayout c.1 := fun _ hc => absurd hc List.not_mem_nil
  exact Sound.inv_idle
    ⟨h, ⟨hwf _ _, hwf _ _, hwf _ _, hlayout, hwf _ _, hwf _ _⟩, .inl rfl, Nat.zero_le _,
      ⟨Nat.zero_le _, Nat.zero_le _, Nat.zero_le _, Nat.zero_le _, fun _ => ⟨rfl, rfl⟩⟩, ⟨rfl, rfl, rfl⟩,
      fun hv => Bool.noConfusion hv⟩ rfl rfl

theorem runEvent_inv {e : Event} {s t : State} (h : Inv s) (hstep : runEvent e s = .next t) : Inv t := by
  cases e with
  | hostWrite a d => exact hostWriteEvent_inv h hstep
  | hostRead a => exact hostReadEvent_inv h hstep
  | rxByte b => cases hstep; exact rxByte_inv b h
  | txAccept => cases hstep; exact txAccept_inv h
  | tick => cases hstep; exact tick_inv h
  | retire => exact retire_inv h hstep
  | reset => cases hstep; exact resetEvent_inv h.sound.params

/-- Settles O55: a step is a Retire or one event of the input, and each keeps the invariant. -/
theorem stepKeepsInv : Obligations.StepKeepsInv := by
  intro s t h hstep
  obtain ⟨_, ⟨_, hretire⟩ | ⟨e, rest, _, hevent⟩⟩ := step_cases hstep
  · exact retire_inv h hretire
  · exact runEvent_inv (s := { s with input := rest }) h hevent

end Sys2Proof.Machine
end

section
/-! PROOFS for spec/10_state.md, the host port: what each offset selects, what a step on a host access does to what it
selects, and the packed words as numbers. -/

namespace Sys2Proof.Machine

/-! ## Words as numbers -/

theorem toNat_append_eq_add {m n : Nat} (x : BitVec m) (y : BitVec n) :
    (x ++ y).toNat = x.toNat * 2 ^ n + y.toNat := by
  rw [BitVec.toNat_append, ← Nat.shiftLeft_add_eq_or_of_lt y.isLt, Nat.shiftLeft_eq]

theorem eq_ofNat_of_toNat {w : Word} {v : Nat} (h : w.toNat = v) : w = BitVec.ofNat 32 v := by
  rw [← h, BitVec.ofNat_toNat, BitVec.setWidth_eq]

theorem extractLsb'_zero_eq_ofNat (n : Nat) (d : Word) : d.extractLsb' 0 n = BitVec.ofNat n d.toNat := by
  apply BitVec.eq_of_toNat_eq
  simp

/-- CSFEED adds the low byte of its data (R131). -/
theorem csfeed_sum (x : Half) (d : Word) :
    x + (d.extractLsb' 0 8).setWidth 16 = BitVec.ofNat 16 (x.toNat + d.toNat % 256) := by
  apply BitVec.eq_of_toNat_eq
  simp

/-- A narrow register in a host word (R25). -/
theorem toNat_setWidth_word {n : Nat} (x : BitVec n) (h : n ≤ 32) : (x.setWidth 32).toNat = x.toNat :=
  BitVec.toNat_setWidth_of_le h

theorem ctrlWord_toNat (s : State) : (ctrlWord s).toNat = s.irqen.toNat := by
  simp only [ctrlWord, toNat_append_eq_add, BitVec.toNat_ofBool]
  simp

/-- STATUS as the sum of its fields (R25). -/
theorem statusWord_toNat (s : State) : (statusWord s).toNat =
    s.busy.toNat + s.done.toNat * 2 + s.err.toNat * 4 + s.busyErr.toNat * 8 + s.lenWarn.toNat * 16 +
      s.resync.toNat * 32 + s.rxVerified.toNat * 64 + (if s.txlen = 20 then 128 else 0) + s.code.toBits.toNat * 256 := by
  have htx : (txValidFlag s).toNat * 128 = if s.txlen = 20 then 128 else 0 := by
    rw [txValidFlag, beq_eq_decide]
    split_ifs with h
    · rw [decide_eq_true h]
      rfl
    · rw [decide_eq_false h]
      rfl
  simp only [statusWord, toNat_append_eq_add, BitVec.toNat_ofBool, BitVec.toNat_ofNat, ← htx]
  omega

theorem faultoffWord_toNat (s : State) : (faultoffWord s).toNat = s.faultOff.toNat + s.faultPc.toNat * 65536 := by
  simp only [faultoffWord, toNat_append_eq_add, BitVec.toNat_ofNat]
  omega

theorem rejlastWord_toNat (s : State) :
    (rejlastWord s).toNat = s.rejCause.toBits.toNat + s.rejHi.toNat * 256 + s.rejLo.toNat * 65536 := by
  simp only [rejlastWord, toNat_append_eq_add, BitVec.toNat_ofNat]
  omega

theorem xstateWord_toNat (s : State) :
    (xstateWord s).toNat = s.phase.toBits.toNat + s.accepted.toNat * 8 + s.asm.toBits.toNat * 16 := by
  simp only [xstateWord, toNat_append_eq_add, BitVec.toNat_ofBool, BitVec.toNat_ofNat]
  omega

theorem csresWord_toNat (s : State) : (csresWord s).toNat = (65536 - s.csacc.toNat) % 65536 := by
  rw [csresWord, toNat_setWidth_word _ (by decide), negate16_toNat]

/-! ## What an offset selects -/

theorem regAt_unmapped {k : Nat} (h : 31 ≤ k) : regAt k = .unmapped := by
  obtain ⟨n, rfl⟩ := Nat.exists_eq_add_of_le' h
  rfl

theorem lt_of_regAt {k : Nat} {r : HostReg} (h : regAt k = .reg r) : k < 31 := by
  by_contra hk
  rw [regAt_unmapped (by omega)] at h
  cases h

/-- An offset of a register selects it (R22). -/
theorem target_of_regAt (p : Config.Params) {a : Half} {k : Nat} {r : HostReg} (ho : (a &&& 0xFFFC).toNat = 4 * k)
    (hr : regAt k = .reg r) : target p a = .reg r := by
  have := wordOffset_toNat a
  have := lt_of_regAt hr
  rw [target_reg (k := k) (by omega) (by omega), hr]

/-- Only the offset 0x008 selects STATUS (R22). -/
theorem wordOffset_of_target_status {p : Config.Params} {a : Half} (hp : p.valid = true)
    (h : target p a = .reg .status) : (a &&& 0xFFFC).toNat = 0x008 := by
  have ho := wordOffset_toNat a
  have hk : ∀ k, k < 31 → regAt k = .reg .status → k = 2 := by decide
  rcases target_cases hp a with ⟨_, e⟩ | ⟨_, _, _, e⟩ | ⟨_, _, _, e⟩ | ⟨_, _, _, e⟩ | ⟨_, _, _, e⟩ | ⟨_, _, _, e⟩ |
    ⟨e, _⟩ <;> rw [e] at h
  case inl =>
    have := hk _ (lt_of_regAt h) h
    omega
  all_goals cases h

/-- The offsets that R22 does not list. -/
def unlisted (p : Config.Params) (o : Nat) : Prop :=
  (0x07C ≤ o ∧ o < 0x1000) ∨ (0x1050 ≤ o ∧ o < 0x4000) ∨ (0x4000 + 4 * p.rxbufBytes ≤ o ∧ o < 0x8000) ∨
    (0x8200 ≤ o ∧ o < 0xA000) ∨ 0xC000 ≤ o

/-- The offsets that R22 lists as read-only. -/
def readOnly (o : Nat) : Prop :=
  o = 0 ∨ (0x028 ≤ o ∧ o < 0x060) ∨ (0x068 ≤ o ∧ o < 0x07C) ∨ (0x1000 ≤ o ∧ o < 0x1050) ∨ (0xA000 ≤ o ∧ o < 0xC000)

/-- The offsets whose reads R51 leaves unspecified while BUSY = 1. -/
def unspecifiedWhileBusy (p : Config.Params) (o : Nat) : Prop :=
  (0x024 ≤ o ∧ o < 0x048) ∨ (0x1000 ≤ o ∧ o < 0x1050) ∨ (0x4000 ≤ o ∧ o < 0x4000 + 4 * p.rxbufBytes) ∨
    (0xA000 ≤ o ∧ o < 0xC000)

theorem target_unlisted {p : Config.Params} {a : Half} (hp : p.valid = true)
    (h : unlisted p (a &&& 0xFFFC).toNat) : target p a = .unmapped := by
  have ho := wordOffset_toNat a
  have hvalid := hp
  simp only [Config.Params.valid, decide_eq_true_eq] at hvalid
  unfold unlisted at h
  rcases target_cases hp a with ⟨_, e⟩ | ⟨_, _, _, _⟩ | ⟨_, _, _, _⟩ | ⟨_, _, _, _⟩ | ⟨_, _, _, _⟩ | ⟨_, _, _, _⟩ | ⟨e, _⟩
  case inl => rw [e, regAt_unmapped (by omega)]
  case inr.inr.inr.inr.inr.inr => exact e
  all_goals omega

theorem hostWrite_regAt_readOnly {k : Nat} (h : k = 0 ∨ (10 ≤ k ∧ k < 24) ∨ (26 ≤ k ∧ k < 31)) (d : Word) (s : State) :
    hostWrite (regAt k) d s = s := by
  rcases h with rfl | ⟨hlo, hhi⟩ | ⟨hlo, hhi⟩
  · rfl
  · interval_cases k <;> rfl
  · interval_cases k <;> rfl

/-- A write to a read-only offset changes nothing (R47). -/
theorem hostWrite_readOnly {p : Config.Params} {a : Half} (hp : p.valid = true) (h : readOnly (a &&& 0xFFFC).toNat)
    (d : Word) (s : State) : hostWrite (target p a) d s = s := by
  have ho := wordOffset_toNat a
  have hvalid := hp
  simp only [Config.Params.valid, decide_eq_true_eq] at hvalid
  unfold readOnly at h
  rcases target_cases hp a with ⟨_, e⟩ | ⟨i, _, _, e⟩ | ⟨i, _, _, _⟩ | ⟨i, _, _, _⟩ | ⟨i, _, _, e⟩ | ⟨i, _, _, e⟩ | ⟨e, _⟩
  · rw [e]
    exact hostWrite_regAt_readOnly (by omega) d s
  · rw [e]; rfl
  · omega
  · omega
  · rw [e]; rfl
  · rw [e]; rfl
  · rw [e]; rfl

theorem busyUnspec_regAt {k : Nat} (hk : k < 31) : busyUnspec (regAt k) = true ↔ 9 ≤ k ∧ k < 18 := by
  revert k
  decide

theorem busyUnspec_target_iff {p : Config.Params} {a : Half} (hp : p.valid = true) :
    busyUnspec (target p a) = true ↔ unspecifiedWhileBusy p (a &&& 0xFFFC).toNat := by
  have ho := wordOffset_toNat a
  have hvalid := hp
  simp only [Config.Params.valid, decide_eq_true_eq] at hvalid
  unfold unspecifiedWhileBusy
  rcases target_cases hp a with ⟨hk, e⟩ | ⟨i, _, _, e⟩ | ⟨i, _, _, e⟩ | ⟨i, _, _, e⟩ | ⟨i, _, _, e⟩ | ⟨i, _, _, e⟩ |
    ⟨e, _⟩ <;> rw [e]
  · by_cases hlt : a.toNat / 4 < 31
    · rw [busyUnspec_regAt hlt]
      omega
    · rw [regAt_unmapped (by omega)]
      simp only [busyUnspec, Bool.false_eq_true, false_iff]
      omega
  all_goals simp only [busyUnspec, Bool.false_eq_true, false_iff, true_iff]; omega

/-! ## A step on a host access -/

/-- A HostRead reads what its offset selects; the CSRES instruction is the read of CSRES (R20, R132). -/
theorem step_hostRead_target {s : State} {a : Half} {rest : List Event} (hp : s.params.valid = true)
    (hi : s.input = .hostRead a :: rest) :
    step s = .next (hostRead (target s.params a) { s with input := rest }) := by
  rw [step_hostRead hp hi]
  split_ifs with h
  · rw [target_reg h (by decide)]
    simp [hostRead, regAt, busyUnspec, regBusyUnspec, targetWord, regWord, exec, execCsresRead]
  · rfl

theorem hostRead_specified {g : Target} {s : State} (h : s.busy = false ∨ busyUnspec g = false) :
    hostRead g s = { s with rdata := targetWord g s } := by
  have hn : (s.busy && busyUnspec g) = false := by rcases h with h | h <;> simp [h]
  simp [hostRead, hn, setRdata]

theorem hostRead_unspecified {g : Target} {s : State} (hb : s.busy = true) (hu : busyUnspec g = true) :
    hostRead g s = { s with rdata := Config.freeWord s.draws 0, draws := s.draws + 1 } := by
  simp [hostRead, hb, hu, setRdata]

/-- What a target shows does not depend on the events to come. -/
theorem targetWord_input (g : Target) (s : State) (es : List Event) :
    targetWord g { s with input := es } = targetWord g s := by
  cases g with
  | reg r => cases r <;> rfl
  | _ => rfl

/-- Only STATUS shows BUSY (R25). -/
theorem targetWord_busy {g : Target} (hg : g ≠ .reg .status) (s : State) (b : Bool) :
    targetWord g { s with busy := b } = targetWord g s := by
  cases g with
  | reg r =>
    cases r with
    | status => exact absurd rfl hg
    | _ => rfl
  | _ => rfl

/-- STATUS with BUSY is STATUS without it and bit 0 (R25). -/
theorem statusWord_busy {s : State} (hb : s.busy = true) : statusWord s = statusWord { s with busy := false } + 1 := by
  have h1 := statusWord_toNat s
  have h0 := statusWord_toNat { s with busy := false }
  have hlt := (statusWord s).isLt
  simp only [hb, Bool.toNat_true, Bool.toNat_false] at h1 h0
  apply BitVec.eq_of_toNat_eq
  rw [BitVec.toNat_add]
  change _ = (_ + 1) % _
  rw [Nat.mod_eq_of_lt (by omega)]
  omega

/-- A read that R51 leaves specified puts what the target shows on the port (R20). -/
theorem step_hostRead_specified {s : State} {a : Half} {rest : List Event} {g : Target} (hp : s.params.valid = true)
    (hi : s.input = .hostRead a :: rest) (hg : target s.params a = g) (h : s.busy = false ∨ busyUnspec g = false) :
    step s = .next { s with input := rest, rdata := targetWord g s } := by
  rw [step_hostRead_target hp hi, hg, ← targetWord_input g s rest]
  exact congrArg _ (hostRead_specified (s := { s with input := rest }) h)

theorem step_hostRead_idle {s : State} {a : Half} {rest : List Event} {g : Target} {v : Nat}
    (hp : s.params.valid = true) (hb : s.busy = false) (hi : s.input = .hostRead a :: rest)
    (hg : target s.params a = g) (hv : (targetWord g s).toNat = v) :
    step s = .next { s with input := rest, rdata := BitVec.ofNat 32 v } := by
  rw [step_hostRead_specified hp hi hg (.inl hb), eq_ofNat_of_toNat hv]

/-- A HostWrite outside CMD and the checksum ports writes what its offset selects (R20). -/
theorem step_hostWrite_target {s : State} {a : Half} {d : Word} {rest : List Event} (hp : s.params.valid = true)
    (hi : s.input = .hostWrite a d :: rest) (hcmd : (a &&& 0xFFFC).toNat ≠ 0x00C)
    (hacc : (a &&& 0xFFFC).toNat ≠ 0x060) (hfeed : (a &&& 0xFFFC).toNat ≠ 0x064) :
    step s = .next (hostWrite (target s.params a) d { s with input := rest }) := by
  have ho := wordOffset_toNat a
  rw [step_hostWrite hp hi, if_neg (by omega), if_neg (by omega), if_neg (by omega)]

theorem step_hostWrite_reg {s : State} {a : Half} {d : Word} {rest : List Event} {k : Nat} {r : HostReg}
    (hp : s.params.valid = true) (hi : s.input = .hostWrite a d :: rest) (ho : (a &&& 0xFFFC).toNat = 4 * k)
    (hr : regAt k = .reg r) (hk : k ≠ 3 ∧ k ≠ 0x18 ∧ k ≠ 0x19) :
    step s = .next (writeReg r d { s with input := rest }) := by
  rw [step_hostWrite_target hp hi (by omega) (by omega) (by omega), target_of_regAt s.params ho hr]
  rfl

/-! ## The statements -/

/-- Settles O12: unlisted offsets select nothing, and no write goes to a read-only target. -/
theorem unmappedOffsets : Obligations.UnmappedOffsets := by
  intro s a d rest hp o _
  refine ⟨fun hi hun => ?_, fun hi hro => ?_⟩
  · exact step_hostRead_specified hp hi (target_unlisted hp hun) (.inr rfl)
  · rw [step_hostWrite_target hp hi (by omega) (by omega) (by omega)]
    rcases hro with hun | hro
    · rw [target_unlisted hp hun]
      rfl
    · rw [hostWrite_readOnly hp hro]

/-- Settles O14: each offset selects its register or its entry, whose word is the number that the rule gives. -/
theorem hostReadsWhileIdle : Obligations.HostReadsWhileIdle := by
  intro s a rest hp hb hi o reads
  have ho := wordOffset_toNat a
  have read : ∀ {g : Target} {v : Nat}, target s.params a = g → (targetWord g s).toNat = v → reads v :=
    fun hg hv => step_hostRead_idle hp hb hi hg hv
  have reg : ∀ (k : Nat) {r : HostReg} {v : Nat}, regAt k = .reg r → (regWord r s).toNat = v → o = 4 * k → reads v :=
    fun k r v hr hv hk => read (target_of_regAt s.params hk hr) hv
  have narrow : ∀ {n : Nat} (x : BitVec n), n ≤ 32 → (x.setWidth 32).toNat = x.toNat := toNat_setWidth_word
  have hstatus := statusWord_toNat s
  rw [hb, Bool.toNat_false, Nat.zero_add] at hstatus
  exact ⟨reg 0 rfl rfl, reg 1 rfl (ctrlWord_toNat s), reg 2 rfl hstatus, reg 3 rfl rfl, reg 4 rfl rfl, reg 5 rfl rfl,
    reg 6 rfl rfl, reg 7 rfl rfl, reg 8 rfl (narrow s.minlen (by decide)), reg 9 rfl (narrow s.rxlen (by decide)),
    reg 10 rfl rfl, reg 11 rfl rfl, reg 12 rfl rfl, reg 13 rfl rfl, reg 14 rfl (faultoffWord_toNat s), reg 15 rfl rfl,
    reg 16 rfl rfl, reg 17 rfl (narrow s.nslot (by decide)), reg 18 rfl (rejlastWord_toNat s),
    reg 19 rfl (narrow s.rejcntA (by decide)), reg 20 rfl (narrow s.rejcntB (by decide)),
    reg 21 rfl (narrow s.rejcntC (by decide)), reg 22 rfl (narrow s.rejcntD (by decide)),
    reg 23 rfl (narrow s.rejcntE (by decide)), reg 24 rfl (narrow s.csacc (by decide)), reg 25 rfl rfl,
    reg 26 rfl (csresWord_toNat s), reg 27 rfl (narrow s.txlen (by decide)), reg 28 rfl (xstateWord_toNat s),
    reg 29 rfl rfl, reg 30 rfl (narrow s.txpos (by decide)),
    fun i hlt hk => read (target_txbuf (by omega) hlt) (narrow _ (by decide)),
    fun i hlt hk => read (target_rxbuf (by omega) hlt) (narrow _ (by decide)),
    fun i hlt hk => read (target_layout hp (by omega) hlt) rfl,
    fun i hlt hk => read (target_fval hp (by omega) hlt) rfl,
    fun i hlt hk => read (target_ftag hp (by omega) hlt) rfl⟩

/-- Settles O15: BUSY decides only whether a read is unspecified, and what STATUS shows. -/
theorem hostReadsWhileBusy : Obligations.HostReadsWhileBusy := by
  intro s a rest hp hb hi o _
  refine ⟨fun hu => ?_, fun hs => ?_⟩
  · rw [step_hostRead_target hp hi]
    exact congrArg _ (hostRead_unspecified (s := { s with input := rest }) hb ((busyUnspec_target_iff hp).2 hu))
  · have hspec : busyUnspec (target s.params a) = false :=
      Bool.eq_false_iff.2 fun h => hs ((busyUnspec_target_iff hp).1 h)
    refine ⟨targetWord (target s.params a) { s with busy := false },
      step_hostRead_specified (s := { s with busy := false }) hp hi rfl (.inl rfl), ?_⟩
    rw [step_hostRead_specified hp hi rfl (.inr hspec)]
    by_cases hstatus : o = 0x008
    · rw [if_pos hstatus, target_of_regAt (k := 2) s.params hstatus rfl]
      exact congrArg (fun w => Host.Outcome.next { s with input := rest, rdata := w }) (statusWord_busy hb)
    · rw [if_neg hstatus, targetWord_busy (fun e => hstatus (wordOffset_of_target_status hp e)) s false]

/-- Settles O9: BUSY guards the four protected targets, and every other write ignores it. -/
theorem writesWhileBusy : Obligations.WritesWhileBusy := by
  intro s a d rest hp hi o u
  have ho := wordOffset_toNat a
  have reg : ∀ (k : Nat) {r : HostReg}, regAt k = .reg r → k ≠ 3 ∧ k ≠ 0x18 ∧ k ≠ 0x19 → o = 4 * k →
      step s = .next (writeReg r d u) := fun k _ hr hk hok => step_hostWrite_reg hp hi hok hr hk
  refine ⟨fun hb hprot => ?_, reg 1 rfl (by decide), reg 2 rfl (by decide), reg 4 rfl (by decide), reg 5 rfl (by decide),
    reg 6 rfl (by decide), reg 7 rfl (by decide), fun h => ?_, fun h => ?_, fun h => ?_⟩
  · rcases hprot with h | h | ⟨hlo, hhi⟩ | ⟨hlo, hhi⟩
    · rw [step_hostWrite hp hi, if_neg (by omega), if_neg (by omega), if_pos (by omega), if_pos hb]
      rfl
    · rw [reg 9 rfl (by decide) h]
      simp [writeReg, writeRxlen, u, hb, setBusyErr]
    · rw [step_hostWrite_target hp hi (by omega) (by omega) (by omega),
        target_rxbuf (i := o / 4 - 0x1000) (by omega) (by omega)]
      simp [hostWrite, u, hb, setBusyErr]
    · rw [step_hostWrite_target hp hi (by omega) (by omega) (by omega),
        target_layout (i := o / 4 - 0x2000) hp (by omega) (by omega)]
      simp [hostWrite, u, hb, setBusyErr]
  · rw [reg 8 rfl (by decide) h, ← extractLsb'_zero_eq_ofNat]
    rfl
  · rw [step_hostWrite hp hi, if_pos (by omega), ← extractLsb'_zero_eq_ofNat]
    rfl
  · rw [step_hostWrite hp hi, if_neg (by omega), if_pos (by omega), ← csfeed_sum]
    rfl

/-- Settles O10: a STATUS write is the acknowledgement, in every phase. -/
theorem statusWriteOneToClear : Obligations.StatusWriteOneToClear := by
  intro s a d rest hp hi ha
  have cleared : ∀ x b : Bool, (x && !b) = if b then false else x := by decide
  rw [step_hostWrite_reg (k := 2) hp hi (by rw [ha]; rfl) rfl (by decide)]
  simp only [writeReg, ackStatus, cleared]

/-- Settles O11: an idle block takes the write, entry by entry. -/
theorem bufferWritesWhileIdle : Obligations.BufferWritesWhileIdle := by
  intro s a d rest hp hb hi o
  have ho := wordOffset_toNat a
  refine ⟨fun i hlt hk => ⟨{ rxWrite i (d.extractLsb' 0 8) { s with input := rest } with rxVerified := false }, ?_, rfl,
      fun j => ?_⟩, fun i hlt hk => ⟨layoutWrite i d { s with input := rest }, ?_, rfl, fun j => ?_⟩, fun hk => ?_⟩
  · rw [step_hostWrite_target hp hi (by omega) (by omega) (by omega), target_rxbuf (i := i) (by omega) hlt]
    simp [hostWrite, hb]
  · rw [← extractLsb'_zero_eq_ofNat]
    exact rxRead_rxWrite i j (d.extractLsb' 0 8) { s with input := rest }
  · rw [step_hostWrite_target hp hi (by omega) (by omega) (by omega), target_layout (i := i) hp (by omega) hlt]
    simp [hostWrite, hb]
  · exact layoutRead_layoutWrite i j d { s with input := rest }
  · rw [step_hostWrite_reg (k := 9) hp hi hk rfl (by decide)]
    simp [writeReg, writeRxlen, hb]

end Sys2Proof.Machine
end

section
/-! PROOFS for spec/20_memory.md: a host access acts on the word of its offset. -/

namespace Sys2Proof.Machine

theorem hostWriteEvent_congr {a b : Half} (d : Word) {s : State} (hp : s.params.valid = true)
    (hword : a &&& 0xFFFC = b &&& 0xFFFC) : hostWriteEvent a d s = hostWriteEvent b d s := by
  have hk := toNat_div_congr hword
  rw [hostWriteEvent_eq a d s hp, hostWriteEvent_eq b d s hp, target_congr s.params hk, hk]

theorem hostReadEvent_congr {a b : Half} (s : State) (hword : a &&& 0xFFFC = b &&& 0xFFFC) :
    hostReadEvent a s = hostReadEvent b s := by
  have hk := toNat_div_congr hword
  rw [hostReadEvent_eq, hostReadEvent_eq, target_congr s.params hk, hk]

/-- With `e` next, a step runs `e`, whatever input `s` had. -/
theorem step_with_input {s : State} (hp : s.params.valid = true) (e : Event) (rest : List Event) :
    step { s with input := e :: rest } = runEvent e { s with input := rest } :=
  step_cons (s := { s with input := e :: rest }) hp rfl

theorem step_goesOn {s : State} (hp : s.params.valid = true) : stepGoesOn s :=
  let ⟨t, ht, _⟩ := stepNeverStops s hp
  ⟨t, ht⟩

/-- Settles O13: an access depends on its offset through the word index alone (R68), and no step with legal
parameters stops. -/
theorem offsetLowBitsIgnored : Obligations.OffsetLowBitsIgnored := by
  intro s a b d rest hp hword
  refine ⟨?_, ?_, step_goesOn hp, step_goesOn hp⟩
  · rw [step_with_input hp, step_with_input hp]
    exact hostWriteEvent_congr d (s := { s with input := rest }) hp hword
  · rw [step_with_input hp, step_with_input hp]
    exact hostReadEvent_congr { s with input := rest } hword

end Sys2Proof.Machine
end

section
/-! PROOFS for spec/30_encoding.md, the decoder. The tables of R100 and R105 are stated once as relations between a
word and the row it is read as (`CmdRow`, `DescRow`), and the two 32-bit decoders are shown to be exactly these
tables; each statement then goes by cases on the row. -/

namespace Sys2Proof

/-! ## The opcode table of a CMD word (R100) -/

/-- The row of a reserved opcode (R237). -/
def reservedRow (op : Byte) : Instr :=
  if op.toNat < 16 then .reserved08 op
  else if op.toNat < 32 then .reserved10 op
  else if op.toNat < 64 then .reserved20 op
  else if op.toNat < 128 then .reserved40 op
  else .reserved80 op

/-- The CMD word `w` is read as the instruction: the opcode picks the row, the fields of R101 are its operands. -/
inductive CmdRow (w : Word) : Instr → Prop where
  | nop (h : cmdOp w = 0) : CmdRow w .nop
  | build (h : cmdOp w = 1) : CmdRow w (.build (cmdCode w) (cmdSys w) (cmdPos w) (cmdGrp w))
  | xact (h : cmdOp w = 2) : CmdRow w .xact
  | verify (h : cmdOp w = 3) : CmdRow w .verify
  | gatechk (h : cmdOp w = 4) : CmdRow w .gatechk
  | extu (h : cmdOp w = 5) : CmdRow w .extu
  | exts (h : cmdOp w = 6) : CmdRow w .exts
  | parse (h : cmdOp w = 7) : CmdRow w (.parse (cmdDidx w))
  | reserved (h : 8 ≤ (cmdOp w).toNat) : CmdRow w (reservedRow (cmdOp w))

theorem decodeCmd_reserved {w : Word} (h : 8 ≤ (cmdOp w).toNat) : decodeCmd w = reservedRow (cmdOp w) := by
  obtain ⟨n, hn⟩ := Nat.exists_eq_add_of_le' h
  unfold decodeCmd reservedRow
  rw [hn]
  rfl

/-- Every CMD word is in the row that the decoder gives it. -/
theorem cmdRow_decodeCmd (w : Word) : CmdRow w (decodeCmd w) := by
  by_cases h : 8 ≤ (cmdOp w).toNat
  · rw [decodeCmd_reserved h]
    exact .reserved h
  · have hop : cmdOp w = BitVec.ofNat 8 (cmdOp w).toNat := by simp
    unfold decodeCmd
    generalize (cmdOp w).toNat = n at h hop
    interval_cases n
    · exact .nop hop
    · exact .build hop
    · exact .xact hop
    · exact .verify hop
    · exact .gatechk hop
    · exact .extu hop
    · exact .exts hop
    · exact .parse hop

/-- A CMD word is in no other row. -/
theorem CmdRow.decodeCmd_eq {w : Word} {i : Instr} (row : CmdRow w i) : decodeCmd w = i := by
  cases row with
  | reserved h => exact decodeCmd_reserved h
  | _ h => simp [decodeCmd, h]

theorem reservedRow_wf {op : Byte} (h : 8 ≤ op.toNat) : (reservedRow op).wf = true := by
  unfold reservedRow
  split_ifs <;> simp only [Instr.wf, decide_eq_true_eq] <;> omega

theorem formatOf_reservedRow (op : Byte) : formatOf (reservedRow op) = .cmd := by
  unfold reservedRow
  split_ifs <;> rfl

theorem CmdRow.wf {w : Word} {i : Instr} (row : CmdRow w i) : i.wf = true := by
  cases row with
  | reserved h => exact reservedRow_wf h
  | _ => rfl

theorem CmdRow.formatOf_eq {w : Word} {i : Instr} (row : CmdRow w i) : formatOf i = .cmd := by
  cases row with
  | reserved _ => exact formatOf_reservedRow _
  | _ => rfl

/-- A row depends on the opcode and on the operands that it lists (R101, R102). -/
theorem CmdRow.congr {w v : Word} {i : Instr} (row : CmdRow w i) (hop : cmdOp w = cmdOp v)
    (hbuild : cmdOp w = 1 →
      cmdCode w = cmdCode v ∧ cmdSys w = cmdSys v ∧ cmdPos w = cmdPos v ∧ cmdGrp w = cmdGrp v)
    (hparse : cmdOp w = 7 → cmdDidx w = cmdDidx v) : CmdRow v i := by
  cases row with
  | nop h => exact .nop (hop ▸ h)
  | build h =>
    obtain ⟨hcode, hsys, hpos, hgrp⟩ := hbuild h
    rw [hcode, hsys, hpos, hgrp]
    exact .build (hop ▸ h)
  | xact h => exact .xact (hop ▸ h)
  | verify h => exact .verify (hop ▸ h)
  | gatechk h => exact .gatechk (hop ▸ h)
  | extu h => exact .extu (hop ▸ h)
  | exts h => exact .exts (hop ▸ h)
  | parse h =>
    rw [hparse h]
    exact .parse (hop ▸ h)
  | reserved h =>
    rw [hop] at h ⊢
    exact .reserved h

/-! ## The kind table of a LAYOUT word (R105) -/

/-- The LAYOUT word `w` is read as the instruction: the kind picks the row, the fields of R104 are its operands. -/
inductive DescRow (w : Word) : Instr → Prop where
  | endRec (h : descKind w = 0) : DescRow w .endRec
  | val (h : descKind w = 1) : DescRow w (.val (descWid w) (descSgn w) (descDsel w) (descAdd1 w) (descFid w))
  | cnt (h : descKind w = 2) : DescRow w (.cnt (descWid w) (descCsel w) (descFid w))
  | rep (h : descKind w = 3) :
      DescRow w (.rep (descWid w) (descSgn w) (descDsel w) (descAdd1 w) (descCsel w) (descFid w))
  | opq (h : descKind w = 4) : DescRow w (.opq (descLen w) (descFid w))
  | badDesc5 (h : descKind w = 5) : DescRow w .badDesc5
  | badDesc67 (h : 6 ≤ (descKind w).toNat) : DescRow w (.badDesc67 (descKind w))

theorem decodeDesc_badDesc67 {w : Word} (h : 6 ≤ (descKind w).toNat) : decodeDesc w = .badDesc67 (descKind w) := by
  obtain ⟨n, hn⟩ := Nat.exists_eq_add_of_le' h
  unfold decodeDesc
  rw [hn]
  rfl

/-- Every LAYOUT word is in the row that the decoder gives it. -/
theorem descRow_decodeDesc (w : Word) : DescRow w (decodeDesc w) := by
  by_cases h : 6 ≤ (descKind w).toNat
  · rw [decodeDesc_badDesc67 h]
    exact .badDesc67 h
  · have hkind : descKind w = BitVec.ofNat 3 (descKind w).toNat := by simp
    unfold decodeDesc
    generalize (descKind w).toNat = n at h hkind
    interval_cases n
    · exact .endRec hkind
    · exact .val hkind
    · exact .cnt hkind
    · exact .rep hkind
    · exact .opq hkind
    · exact .badDesc5 hkind

/-- A LAYOUT word is in no other row. -/
theorem DescRow.decodeDesc_eq {w : Word} {i : Instr} (row : DescRow w i) : decodeDesc w = i := by
  cases row with
  | badDesc67 h => exact decodeDesc_badDesc67 h
  | _ h => simp [decodeDesc, h]

theorem DescRow.wf {w : Word} {i : Instr} (row : DescRow w i) : i.wf = true := by
  cases row with
  | badDesc67 h => exact decide_eq_true h
  | _ => rfl

theorem DescRow.formatOf_eq {w : Word} {i : Instr} (row : DescRow w i) : formatOf i = .desc := by
  cases row <;> rfl

/-- A row depends on the kind and on the fields that it lists (R104, R107). -/
theorem DescRow.congr {w v : Word} {i : Instr} (row : DescRow w i) (hkind : descKind w = descKind v)
    (hval : descKind w = 1 → descWid w = descWid v ∧ descSgn w = descSgn v ∧ descDsel w = descDsel v ∧
      descAdd1 w = descAdd1 v ∧ descFid w = descFid v)
    (hcnt : descKind w = 2 → descWid w = descWid v ∧ descCsel w = descCsel v ∧ descFid w = descFid v)
    (hrep : descKind w = 3 → descWid w = descWid v ∧ descSgn w = descSgn v ∧ descDsel w = descDsel v ∧
      descAdd1 w = descAdd1 v ∧ descCsel w = descCsel v ∧ descFid w = descFid v)
    (hopq : descKind w = 4 → descLen w = descLen v ∧ descFid w = descFid v) : DescRow v i := by
  cases row with
  | endRec h => exact .endRec (hkind ▸ h)
  | val h =>
    obtain ⟨hwid, hsgn, hdsel, hadd1, hfid⟩ := hval h
    rw [hwid, hsgn, hdsel, hadd1, hfid]
    exact .val (hkind ▸ h)
  | cnt h =>
    obtain ⟨hwid, hcsel, hfid⟩ := hcnt h
    rw [hwid, hcsel, hfid]
    exact .cnt (hkind ▸ h)
  | rep h =>
    obtain ⟨hwid, hsgn, hdsel, hadd1, hcsel, hfid⟩ := hrep h
    rw [hwid, hsgn, hdsel, hadd1, hcsel, hfid]
    exact .rep (hkind ▸ h)
  | opq h =>
    obtain ⟨hlen, hfid⟩ := hopq h
    rw [hlen, hfid]
    exact .opq (hkind ▸ h)
  | badDesc5 h => exact .badDesc5 (hkind ▸ h)
  | badDesc67 h =>
    rw [hkind] at h ⊢
    exact .badDesc67 h

/-! ## The rows of assembled words -/

theorem cmdRow_buildWord (code : Byte) (sys : Bool) (pos : BitVec 4) (grp : BitVec 3) :
    CmdRow (buildWord code sys pos grp) (.build code sys pos grp) := by
  simpa using CmdRow.build (cmdOp_buildWord code sys pos grp)

theorem cmdRow_parseWord (didx : BitVec 7) : CmdRow (parseWord didx) (.parse didx) := by
  simpa using CmdRow.parse (cmdOp_parseWord didx)

theorem cmdRow_cmdWord_reserved {op : Byte} {i : Instr} (h : 8 ≤ op.toNat) (hrow : reservedRow op = i) :
    CmdRow (cmdWord op) i := by
  simpa [hrow] using CmdRow.reserved (w := cmdWord op) (by simpa using h)

section
variable (wid : BitVec 4) (sgn : Bool) (dsel : BitVec 2) (add1 csel : Bool) (len : BitVec 12) (fid : Byte)

theorem descRow_descWord_val : DescRow (descWord wid sgn dsel add1 1 csel len fid) (.val wid sgn dsel add1 fid) := by
  simpa using DescRow.val (descKind_descWord wid sgn dsel add1 1 csel len fid)

theorem descRow_descWord_cnt : DescRow (descWord wid sgn dsel add1 2 csel len fid) (.cnt wid csel fid) := by
  simpa using DescRow.cnt (descKind_descWord wid sgn dsel add1 2 csel len fid)

theorem descRow_descWord_rep :
    DescRow (descWord wid sgn dsel add1 3 csel len fid) (.rep wid sgn dsel add1 csel fid) := by
  simpa using DescRow.rep (descKind_descWord wid sgn dsel add1 3 csel len fid)

theorem descRow_descWord_opq : DescRow (descWord wid sgn dsel add1 4 csel len fid) (.opq len fid) := by
  simpa using DescRow.opq (descKind_descWord wid sgn dsel add1 4 csel len fid)

theorem descRow_descWord_badDesc67 {kind : BitVec 3} (h : 6 ≤ kind.toNat) :
    DescRow (descWord wid sgn dsel add1 kind csel len fid) (.badDesc67 kind) := by
  simpa using DescRow.badDesc67 (w := descWord wid sgn dsel add1 kind csel len fid) (by simpa using h)

end

/-! ## The decoder on the bytes of a word (log 10) -/

theorem CmdRow.decode_wordBytes {w : Word} {i : Instr} (row : CmdRow w i) : decode .cmd (wordBytes w) = .ok i := by
  rw [decode_cmd_wordBytes, row.decodeCmd_eq]

theorem DescRow.decode_wordBytes {w : Word} {i : Instr} (row : DescRow w i) :
    decode .desc (wordBytes w) = .ok i := by
  rw [decode_desc_wordBytes, row.decodeDesc_eq]

theorem decode_hostWrite_bytes (a : Half) (d : Word) :
    decode .hostWrite (halfBytes a ++ wordBytes d) = decodeHostWrite a d := by
  simp [decode, halfBytes, wordBytes, halfBytes_append, wordOfBytes_wordBytes]

theorem decode_hostRead_bytes (a : Half) : decode .hostRead (halfBytes a) = decodeHostRead a := by
  simp [decode, halfBytes, halfBytes_append]

/-! ## The statements -/

/-- Settles O2: each encoded word is in the row of its instruction, and its bytes decode as that word. -/
theorem decodeOfEncode : Obligations.DecodeOfEncode := by
  intro i hwf
  cases i with
  | nop => exact (CmdRow.nop (cmdOp_cmdWord _)).decode_wordBytes
  | build code sys pos grp => exact (cmdRow_buildWord code sys pos grp).decode_wordBytes
  | xact => exact (CmdRow.xact (cmdOp_cmdWord _)).decode_wordBytes
  | verify => exact (CmdRow.verify (cmdOp_cmdWord _)).decode_wordBytes
  | gatechk => exact (CmdRow.gatechk (cmdOp_cmdWord _)).decode_wordBytes
  | extu => exact (CmdRow.extu (cmdOp_cmdWord _)).decode_wordBytes
  | exts => exact (CmdRow.exts (cmdOp_cmdWord _)).decode_wordBytes
  | parse didx => exact (cmdRow_parseWord didx).decode_wordBytes
  | reserved08 op =>
    obtain ⟨hlo, hhi⟩ := of_decide_eq_true hwf
    exact (cmdRow_cmdWord_reserved (by omega) (by grind [reservedRow])).decode_wordBytes
  | reserved10 op =>
    obtain ⟨hlo, hhi⟩ := of_decide_eq_true hwf
    exact (cmdRow_cmdWord_reserved (by omega) (by grind [reservedRow])).decode_wordBytes
  | reserved20 op =>
    obtain ⟨hlo, hhi⟩ := of_decide_eq_true hwf
    exact (cmdRow_cmdWord_reserved (by omega) (by grind [reservedRow])).decode_wordBytes
  | reserved40 op =>
    obtain ⟨hlo, hhi⟩ := of_decide_eq_true hwf
    exact (cmdRow_cmdWord_reserved (by omega) (by grind [reservedRow])).decode_wordBytes
  | reserved80 op =>
    have hlo := of_decide_eq_true hwf
    exact (cmdRow_cmdWord_reserved (by omega) (by grind [reservedRow])).decode_wordBytes
  | endRec => exact (DescRow.endRec (descKind_descWord ..)).decode_wordBytes
  | val wid sgn dsel add1 fid => exact (descRow_descWord_val ..).decode_wordBytes
  | cnt wid csel fid => exact (descRow_descWord_cnt ..).decode_wordBytes
  | rep wid sgn dsel add1 csel fid => exact (descRow_descWord_rep ..).decode_wordBytes
  | opq len fid => exact (descRow_descWord_opq ..).decode_wordBytes
  | badDesc5 => exact (DescRow.badDesc5 (descKind_descWord ..)).decode_wordBytes
  | badDesc67 kind => exact (descRow_descWord_badDesc67 _ _ _ _ _ _ _ (of_decide_eq_true hwf)).decode_wordBytes
  | queryAnalog => rfl
  | queryVersion => rfl
  | csaccWrite data => exact decode_hostWrite_bytes 0x060 data
  | csfeedWrite data => exact decode_hostWrite_bytes 0x064 data
  | csresRead => exact decode_hostRead_bytes 0x068

/-- Settles O3: the decoders' rows hold the opcode or kind they were read from, in their own format. -/
theorem everyWordDecodes : Obligations.EveryWordDecodes := fun w =>
  have cmd := cmdRow_decodeCmd w
  have desc := descRow_decodeDesc w
  ⟨cmd.wf, cmd.formatOf_eq, desc.wf, desc.formatOf_eq⟩

/-- Settles O4: words that agree on their opcode or kind, and on the bits of the operands it lists, are in one row. -/
theorem reservedBitsIgnored : Obligations.ReservedBitsIgnored := by
  refine fun w v => ⟨fun hop hbuild hparse => ?_, fun hkind hval hcnt hrep hopq => ?_⟩
  · refine ((cmdRow_decodeCmd w).congr hop (fun h => ?_) (fun h => ?_)).decodeCmd_eq.symm
    · have hmask := hbuild h
      exact ⟨extract_congr_of_mask (by decide) hmask, bit_congr_of_mask (by decide) hmask,
        extract_congr_of_mask (by decide) hmask, extract_congr_of_mask (by decide) hmask⟩
    · exact extract_congr_of_mask (by decide) (hparse h)
  · refine ((descRow_decodeDesc w).congr hkind (fun h => ?_) (fun h => ?_) (fun h => ?_)
      (fun h => ?_)).decodeDesc_eq.symm
    · have hmask := hval h
      exact ⟨extract_congr_of_mask (by decide) hmask, bit_congr_of_mask (by decide) hmask,
        extract_congr_of_mask (by decide) hmask, bit_congr_of_mask (by decide) hmask,
        extract_congr_of_mask (by decide) hmask⟩
    · have hmask := hcnt h
      exact ⟨extract_congr_of_mask (by decide) hmask, bit_congr_of_mask (by decide) hmask,
        extract_congr_of_mask (by decide) hmask⟩
    · have hmask := hrep h
      exact ⟨extract_congr_of_mask (by decide) hmask, bit_congr_of_mask (by decide) hmask,
        extract_congr_of_mask (by decide) hmask, bit_congr_of_mask (by decide) hmask,
        bit_congr_of_mask (by decide) hmask, extract_congr_of_mask (by decide) hmask⟩
    · have hmask := hopq h
      exact ⟨extract_congr_of_mask (by decide) hmask, extract_congr_of_mask (by decide) hmask⟩

/-- Settles O1: the decoders evaluate the eight words. -/
theorem specWordsDecode : Obligations.SpecWordsDecode := by
  unfold Obligations.SpecWordsDecode
  decide

end Sys2Proof
end

section
/-! PROOFS for spec/30_encoding.md, the request codes of R96 as BUILD's CODE (log 9). -/

namespace Sys2Proof.Machine

theorem decodeCode_other {code : Byte} (ha : code ≠ 0x42) (hv : code ≠ 0x4F) :
    decodeCode code = .error (.notARequestCode code) := by
  rw [decodeCode, if_neg ha, if_neg hv]

/-- BUILD with a request code builds the request (R96, R141). -/
theorem execBuild_of_decodeCode_ok {code : Byte} {i : Instr} (h : decodeCode code = .ok i) (sys : Bool)
    (pos : BitVec 4) (grp : BitVec 3) (s : State) :
    execBuild code sys pos grp s = .next (buildRequest code sys pos grp s) := by
  rw [execBuild, h]

theorem execBuild_of_decodeCode_error {code : Byte} {e : DecodeError} (h : decodeCode code = .error e) (sys : Bool)
    (pos : BitVec 4) (grp : BitVec 3) (s : State) : execBuild code sys pos grp s = .next (badArg s) := by
  rw [execBuild, h]

/-- A legal target has an address (R140). -/
theorem buildRequest_of_legal {sys : Bool} {pos : BitVec 4} (h : sys = true ∨ (2 ≤ pos.toNat ∧ pos.toNat ≤ 13))
    (code : Byte) (grp : BitVec 3) (s : State) :
    ∃ adr, buildRequest code sys pos grp s = sendFrame adr code s := by
  unfold buildRequest requestAddress
  cases sys with
  | true => exact ⟨_, rfl⟩
  | false =>
    have hpos : 2 ≤ pos.toNat ∧ pos.toNat ≤ 13 := by simpa using h
    simp only [Bool.false_eq_true, if_false, if_pos hpos]
    exact ⟨_, rfl⟩

/-- A sent frame is the whole of TXBUF, and the command completes OK (R141, R232). -/
theorem sendFrame_eq_finished (adr code : Byte) (s : State) :
    sendFrame adr code s = finished { s with txbuf := (sendFrame adr code s).txbuf, txlen := 20 } := by
  simp [sendFrame, complete, finished]

theorem txRead_sendFrame (adr code : Byte) (s : State) (i : Nat) :
    txRead (sendFrame adr code s) i = (requestFrame adr code)[i]?.getD (Config.freeByte s.txSeed i) := by
  simp [txRead, sendFrame, complete, Memory.lookup_cellsFrom]

/-- Bytes 7 and 8 of a request are its code, as two hex digits (R141). -/
theorem txRead_sendFrame_code (adr code : Byte) (s : State) :
    txRead (sendFrame adr code s) 7 = hexChar (code.extractLsb' 4 4) ∧
    txRead (sendFrame adr code s) 8 = hexChar (code.extractLsb' 0 4) := by
  rw [txRead_sendFrame, txRead_sendFrame]
  exact ⟨rfl, rfl⟩

/-- BUILD with a request code for a legal target: the whole next state, and the bytes of the code (R96, R141). -/
theorem execBuild_sends {code : Byte} {i : Instr} (hcode : decodeCode code = .ok i) {sys : Bool} {pos : BitVec 4}
    (hlegal : sys = true ∨ (2 ≤ pos.toNat ∧ pos.toNat ≤ 13)) (grp : BitVec 3) (s : State) :
    ∃ t, execBuild code sys pos grp s = .next t ∧ t = finished { s with txbuf := t.txbuf, txlen := 20 } ∧
      txRead t 7 = hexChar (code.extractLsb' 4 4) ∧ txRead t 8 = hexChar (code.extractLsb' 0 4) := by
  obtain ⟨adr, hsend⟩ := buildRequest_of_legal hlegal code grp s
  refine ⟨sendFrame adr code s, ?_, sendFrame_eq_finished adr code s, txRead_sendFrame_code adr code s⟩
  rw [execBuild_of_decodeCode_ok hcode, hsend]

/-- A request code is the latched BUILD with this code (R96; log 9). -/
theorem exec_queryAnalog (s : State) :
    exec .queryAnalog s = exec (.build 0x42 (cmdSys s.latCmd) (cmdPos s.latCmd) (cmdGrp s.latCmd)) s :=
  (execBuild_of_decodeCode_ok (code := 0x42) rfl _ _ _ s).symm

theorem exec_queryVersion (s : State) :
    exec .queryVersion s = exec (.build 0x4F (cmdSys s.latCmd) (cmdPos s.latCmd) (cmdGrp s.latCmd)) s :=
  (execBuild_of_decodeCode_ok (code := 0x4F) rfl _ _ _ s).symm

/-- Settles O29: a request code is BUILD with that code, and BUILD checks its code before anything else. -/
theorem requestCodesBuild : Obligations.RequestCodesBuild := by
  refine ⟨fun s => ⟨exec_queryAnalog s, exec_queryVersion s⟩, fun s hlegal => ⟨?_, ?_⟩,
    fun code sys pos grp s ha hv => ?_⟩
  · rw [exec_queryAnalog]
    exact execBuild_sends (code := 0x42) rfl hlegal (cmdGrp s.latCmd) s
  · rw [exec_queryVersion]
    exact execBuild_sends (code := 0x4F) rfl hlegal (cmdGrp s.latCmd) s
  · have hcode := decodeCode_other ha hv
    exact ⟨hcode, badArg s, execBuild_of_decodeCode_error hcode sys pos grp s, rfl, rfl⟩

end Sys2Proof.Machine
end

section
/-! PROOFS for spec/40_checksum.md: the checksum and the host engine (R130 to R132), VERIFY and GATECHK (R133, R134),
and the frame that BUILD makes (R135). -/

namespace Sys2Proof.Machine

/-! ## The checksum function (R130) -/

theorem negate16_toNat_xor (x : Half) : (negate16 x).toNat = ((x.toNat ^^^ 0xFFFF) + 1) % 65536 := by
  simp [negate16]

theorem checksumOf_eq_zero_iff (body : List Byte) : checksumOf body = 0 ↔ (body.map BitVec.toNat).sum % 65536 = 0 := by
  unfold checksumOf
  omega

theorem csum_eq_zero_iff (body : List Byte) : csum body = 0 ↔ (body.map BitVec.toNat).sum % 65536 = 0 := by
  rw [← checksumOf_eq_zero_iff, ← csum_toNat]
  exact BitVec.toNat_inj.symm

theorem csum_setWidth (body : List Byte) : (csum body).setWidth 32 = BitVec.ofNat 32 (checksumOf body) := by
  rw [← csum_toNat, BitVec.ofNat_toNat]

/-- Settles O22: the sum of the bytes mod 65536, then the two readings of its negation. -/
theorem checksumNegatesTheSum : Obligations.ChecksumNegatesTheSum := by
  refine ⟨fun body => ⟨?_, csum_toNat body, csum_eq_zero_iff body⟩, rfl, by decide⟩
  rw [csum, negate16_toNat_xor, byteSum_toNat]

/-! ## The host engine (R131, R132) -/

theorem exec_csaccWrite (d : Word) (s : State) :
    exec (.csaccWrite d) s = .next { s with csacc := BitVec.ofNat 16 d.toNat } := by
  rw [← extractLsb'_zero_eq_ofNat]
  rfl

theorem exec_csfeedWrite (d : Word) (s : State) :
    exec (.csfeedWrite d) s = .next { s with csacc := BitVec.ofNat 16 (s.csacc.toNat + d.toNat % 256) } := by
  rw [← csfeed_sum]
  rfl

theorem exec_csresRead (s : State) :
    exec .csresRead s = .next { s with rdata := BitVec.ofNat 32 (negate16 s.csacc).toNat } := by
  rw [BitVec.ofNat_toNat]
  rfl

/-- A byte as the data of a CSFEED write adds itself to CSACC. -/
theorem exec_csfeedWrite_byte (b : Byte) (s : State) :
    exec (.csfeedWrite (b.setWidth 32)) s = .next { s with csacc := s.csacc + b.setWidth 16 } := by
  have hbyte : (b.setWidth 32).extractLsb' 0 8 = b := by
    rw [extractLsb'_zero_eq_ofNat, toNat_setWidth_word b (by decide), BitVec.ofNat_toNat, BitVec.setWidth_eq]
  show Host.Outcome.next { s with csacc := s.csacc + ((b.setWidth 32).extractLsb' 0 8).setWidth 16 } = _
  rw [hbyte]

/-- Feeding a body, one byte after the other, adds its 16-bit sum to CSACC and changes nothing else. -/
theorem foldlM_feed {feed : State → Byte → Option State}
    (hfeed : ∀ x b, feed x b = some { x with csacc := x.csacc + b.setWidth 16 }) (body : List Byte) (s : State) :
    body.foldlM feed s = some { s with csacc := s.csacc + byteSum body } := by
  induction body generalizing s with
  | nil => simp [byteSum]
  | cons b rest ih =>
    rw [List.foldlM_cons, hfeed, Option.bind_eq_bind, Option.bind_some, ih]
    simp only [byteSum, BitVec.add_assoc]

/-- Settles O6: the word index of the offset is that of the port. -/
theorem stepRunsChecksumPorts : Obligations.StepRunsChecksumPorts := by
  intro s a d rest hp
  refine ⟨fun hi ha => ?_, fun hi ha => ?_, fun hi ha => ?_⟩
  · have hk : a.toNat / 4 = 0x18 := toNat_div_of_wordOffset ha
    rw [step_hostWrite hp hi, if_pos hk]
  · have hk : a.toNat / 4 = 0x19 := toNat_div_of_wordOffset ha
    rw [step_hostWrite hp hi, if_neg (by omega), if_pos hk]
  · have hk : a.toNat / 4 = 0x1A := toNat_div_of_wordOffset ha
    rw [step_hostRead hp hi, if_pos hk]

/-- Settles O23: each port keeps the part of its data that the rule names. -/
theorem checksumPortsWrite : Obligations.ChecksumPortsWrite := by
  intro s d
  refine ⟨?_, exec_csfeedWrite d s⟩
  have hlow : BitVec.ofNat 16 (d.toNat % 65536) = BitVec.ofNat 16 d.toNat := by
    apply BitVec.eq_of_toNat_eq
    simp
  rw [exec_csaccWrite, hlow]

/-- Settles O24: CSACC holds the body's sum after the feed, and CSRES is its negation. -/
theorem csresReadsTheChecksum : Obligations.CsresReadsTheChecksum := by
  refine ⟨fun s => ?_, fun s body => ⟨{ s with csacc := byteSum body }, ?_, exec_csresRead _⟩⟩
  · rw [exec_csresRead, negate16_toNat_xor, BitVec.toNat_xor]
    rfl
  · rw [foldlM_feed (fun x b => by rw [exec_csfeedWrite_byte])]
    simp only [BitVec.ofNat_eq_ofNat, BitVec.zero_add]

/-! ## VERIFY (R133) -/

theorem complete_ok_eq_finished (s : State) : complete .ok s = finished s := by
  simp [complete, finished]

/-- What VERIFY leaves, from what it finds in the frame. -/
theorem exec_verify {s : State} {v : Verdict} (hv : verifyFrame (rxFrame s s.rxlen.toNat) = v) :
    exec .verify s = .next (finished { s with res0 := if v.good then 1 else 0, res1 := v.claim, res2 := v.comp,
                                              rxVerified := v.good }) := by
  have hbit : ∀ b : Bool, (BitVec.ofBool b).setWidth 32 = if b then (1 : Word) else 0 := by decide
  rw [← complete_ok_eq_finished, ← hv, ← hbit]
  rfl

/-- The verification of a frame of 6 bytes or more whose claim is a number. -/
theorem verifyFrame_of_claim {f : List Byte} {n c : Nat} (hl : f.length = n) (hn : 6 ≤ n)
    (hc : hexValue ((f.drop (n - 5)).take 4) = some c) :
    verifyFrame f =
      { good := decide (c = checksumOf ((f.drop 1).take (n - 6))), claim := BitVec.ofNat 32 c,
        comp := BitVec.ofNat 32 (checksumOf ((f.drop 1).take (n - 6))) } := by
  simp only [verifyFrame, hl, if_neg (Nat.not_lt.2 hn), hc, csum_toNat, csum_setWidth]

/-- The verification of a frame of 6 bytes or more whose claim is no number. -/
theorem verifyFrame_of_no_claim {f : List Byte} {n : Nat} (hl : f.length = n) (hn : 6 ≤ n)
    (hc : hexValue ((f.drop (n - 5)).take 4) = none) :
    verifyFrame f =
      { good := false, claim := 0xFFFFFFFF, comp := BitVec.ofNat 32 (checksumOf ((f.drop 1).take (n - 6))) } := by
  simp only [verifyFrame, hl, if_neg (Nat.not_lt.2 hn), hc, csum_setWidth]

theorem rxFrame_body (s : State) {n : Nat} (hn : 6 ≤ n) :
    ((rxFrame s n).drop 1).take (n - 6) = (List.range (n - 6)).map fun i => rxRead s (i + 1) := by
  rw [rxFrame_drop_take s n 1 (n - 6) (by omega)]
  simp only [Nat.add_comm 1]

theorem rxFrame_claim (s : State) {n : Nat} (hn : 6 ≤ n) :
    ((rxFrame s n).drop (n - 5)).take 4 =
      [rxRead s (n - 5), rxRead s (n - 5 + 1), rxRead s (n - 5 + 2), rxRead s (n - 5 + 3)] :=
  rxFrame_drop_take s n (n - 5) 4 (by omega)

/-- Four digits of which one is invalid are no number (R64). -/
theorem hexValue_four_eq_none {b : Nat → Byte} (h : ∃ k, k < 4 ∧ digit (b k) = none) :
    hexValue [b 0, b 1, b 2, b 3] = none := by
  obtain ⟨k, hk, hnone⟩ := h
  rw [hexValue_four]
  interval_cases k <;> simp [hnone]

/-- Settles O25: the three cases of the frame, each read off RXBUF. -/
theorem verifyResult : Obligations.VerifyResult := by
  intro s n comp
  have hframe : ∀ {v : Verdict}, verifyFrame (rxFrame s n) = v → exec .verify s = .next (finished
      { s with res0 := if v.good then 1 else 0, res1 := v.claim, res2 := v.comp, rxVerified := v.good }) := exec_verify
  refine ⟨fun hn => ?_, fun hn d0 d1 d2 d3 h0 h1 h2 h3 => ?_, fun hn hbad => ?_⟩
  · exact hframe (verifyFrame_short (by rwa [rxFrame_length]))
  · have hclaim : hexValue (((rxFrame s n).drop (n - 5)).take 4) = some (d0 * 4096 + d1 * 256 + d2 * 16 + d3) := by
      rw [rxFrame_claim s hn, hexValue_four, h0, show n - 5 + 1 = n - 4 by omega, h1, show n - 5 + 2 = n - 3 by omega,
        h2, show n - 5 + 3 = n - 2 by omega, h3]
      rfl
    have hv := verifyFrame_of_claim (rxFrame_length s n) hn hclaim
    rw [rxFrame_body s hn] at hv
    simpa only [decide_eq_true_eq] using hframe hv
  · have hclaim : hexValue (((rxFrame s n).drop (n - 5)).take 4) = none := by
      rw [rxFrame_claim s hn]
      exact hexValue_four_eq_none (b := fun k => rxRead s (n - 5 + k)) hbad
    have hv := verifyFrame_of_no_claim (rxFrame_length s n) hn hclaim
    rw [rxFrame_body s hn] at hv
    exact hframe hv

/-! ## GATECHK (R134, R162) -/

/-- GATECHK leaves what VERIFY leaves, but for the verdict in RES0. -/
theorem gateCheck_eq_verify (s : State) :
    gateCheck s = { verify s with res0 := (gate (rxFrame s s.rxlen.toNat) s.latMinlen.toNat
      (verify s).rxVerified).toBits.setWidth 32 } := rfl

theorem rxFrame_getD {s : State} {n i : Nat} (h : i < n) : (rxFrame s n).getD i 0 = rxRead s i := by
  rw [List.getD_eq_getElem?_getD, rxFrame_getElem?, if_pos h, Option.getD_some]

/-- The delimiters of the frame in RXBUF (gate a). -/
theorem rxFrame_delimiter_iff (s : State) (n : Nat) :
    (n < 1 ∨ (rxFrame s n).getD 0 0 ≠ soi ∨ (rxFrame s n).getD (n - 1) 0 ≠ eoi) ↔
      (n < 1 ∨ rxRead s 0 ≠ 0x7E ∨ rxRead s (n - 1) ≠ 0x0D) := by
  refine or_congr_right' fun hn => ?_
  rw [rxFrame_getD (by omega), rxFrame_getD (by omega)]
  rfl

/-- The return code of the frame in RXBUF (gate d). -/
theorem rxFrame_rtn_iff (s : State) (n : Nat) :
    (n < 9 ∨ (rxFrame s n).getD 7 0 ≠ 0x30 ∨ (rxFrame s n).getD 8 0 ≠ 0x30) ↔
      (n < 9 ∨ rxRead s 7 ≠ 0x30 ∨ rxRead s 8 ≠ 0x30) := by
  refine or_congr_right' fun hn => ?_
  rw [rxFrame_getD (by omega), rxFrame_getD (by omega)]

/-- The gates on the frame in RXBUF, by the bytes they read. -/
theorem gate_rxFrame (s : State) (n m : Nat) (v : Bool) :
    gate (rxFrame s n) m v =
      if n < 1 ∨ rxRead s 0 ≠ 0x7E ∨ rxRead s (n - 1) ≠ 0x0D then .delimiter
      else if v = false then .checksum
      else if n < m then .short
      else if n < 9 ∨ rxRead s 7 ≠ 0x30 ∨ rxRead s 8 ≠ 0x30 then .rtn
      else .clear := by
  simp only [gate, rxFrame_length, rxFrame_delimiter_iff, rxFrame_rtn_iff]

/-- Settles O26: GATECHK is VERIFY but for RES0, which is the number of the first failing gate. -/
theorem gatechkResult : Obligations.GatechkResult := by
  intro s n
  refine ⟨verify s, rfl, ?_⟩
  show Host.Outcome.next (gateCheck s) = _
  rw [gateCheck_eq_verify, gate_rxFrame]
  simp only [apply_ite Cause.toBits, apply_ite (BitVec.setWidth 32)]
  rfl

/-! ## A built frame (R135) -/

/-- A BUILD that completes OK has written its request to TXBUF (R141). -/
theorem execBuild_ok {code : Byte} {sys : Bool} {pos : BitVec 4} {grp : BitVec 3} {s t : State}
    (h : execBuild code sys pos grp s = .next t) (hok : t.code = .ok) : ∃ adr, t = sendFrame adr code s := by
  rcases execBuild_cases code sys pos grp s with ⟨adr, e⟩ | e <;> rw [e] at h <;> cases h
  · exact ⟨adr, rfl⟩
  · exact absurd hok (by simp [badArg])

@[simp] theorem requestFrame_length (adr code : Byte) : (requestFrame adr code).length = 20 := by
  simp [requestFrame, requestBody, hex2, hex4]

/-- RXBUF holds the frame that its first 20 bytes were copied from. -/
theorem rxFrame_of_sendFrame {u s : State} {adr code : Byte}
    (hcopy : ∀ i, i < 20 → rxRead u i = txRead (sendFrame adr code s) i) : rxFrame u 20 = requestFrame adr code := by
  apply List.ext_getElem
  · simp
  · intro i hi hi'
    have hread := hcopy i (by simpa using hi)
    rw [txRead_sendFrame, List.getElem?_eq_getElem hi', Option.getD_some] at hread
    simpa [rxFrame] using hread

/-- Settles O30: RXBUF holds the request that BUILD wrote, and a request verifies. -/
theorem builtFrameVerifies : Obligations.BuiltFrameVerifies := by
  intro s t u code sys pos grp hbuild hok hlen hcopy
  obtain ⟨adr, rfl⟩ := execBuild_ok hbuild hok
  have hv := verifyFrame_requestFrame adr code
  rw [← rxFrame_of_sendFrame hcopy, show 20 = u.rxlen.toNat by rw [hlen]; rfl] at hv
  exact ⟨_, exec_verify hv, rfl, rfl, rfl⟩

end Sys2Proof.Machine
end

section
/-! PROOFS for spec/40_checksum.md, RXVERIFIED: the one way in which each event can raise it (R66, R136). -/

namespace Sys2Proof.Machine

/-- How an event moves RXVERIFIED from `s` to `t`: it does not raise it, or it is the Retire of a VERIFY or GATECHK, or
it completes a transaction OK on the frame that the transaction accepted (R66, R155). -/
inductive VerifiedRise (s t : State) : Prop where
  | kept (h : t.rxVerified = true → s.rxVerified = true)
  | checked (hrun : s.phase = .run) (hop : cmdOp s.latCmd = 3 ∨ cmdOp s.latCmd = 4) (hcode : t.code = .ok)
      (hbusy : t.busy = false)
  | exchanged (htrans : inTransaction s) (hacc : t.accepted = true) (hcode : t.code = .ok) (hbusy : t.busy = false)

theorem VerifiedRise.of_eq {s t : State} (h : t.rxVerified = s.rxVerified) : VerifiedRise s t := .kept fun ht => h ▸ ht

theorem VerifiedRise.of_false {s t : State} (h : t.rxVerified = false) : VerifiedRise s t :=
  .kept fun ht => absurd (h.symm.trans ht) (by decide)

/-! ## Commands at their Retire -/

theorem extract_rxVerified (sgn : Bool) (s : State) : (extract sgn s).rxVerified = s.rxVerified := by
  unfold extract
  split_ifs
  · rfl
  · rfl
  · rfl
  · split <;> rfl

theorem SlotsGrow.rxVerified {s t : State} (h : SlotsGrow s t) : t.rxVerified = s.rxVerified := by
  rw [h.frame]

theorem ParseEnd.rxVerified {s t : State} (h : ParseEnd s t) : t.rxVerified = s.rxVerified := by
  cases h with
  | done u hu _ => exact hu.rxVerified
  | fault c u _ hu _ => exact hu.rxVerified

theorem parse_rxVerified (didx : BitVec 7) (s : State) : (parse didx s).rxVerified = s.rxVerified := by
  rcases parse_end didx s with ⟨_, hend⟩ | ⟨_, hfault⟩
  · exact hend.rxVerified
  · rw [hfault]
    rfl

theorem CmdEffect.rise {s t : State} (h : CmdEffect s.latCmd s t) (hrun : s.phase = .run) : VerifiedRise s t := by
  cases h with
  | verify hop => exact .checked hrun (.inl hop) rfl rfl
  | gatechk hop => exact .checked hrun (.inr hop) rfl rfl
  | start _ _ => exact .of_false rfl
  | ext _ sgn => exact .of_eq (extract_rxVerified sgn s)
  | parse _ didx => exact .of_eq (parse_rxVerified didx s)
  | _ => exact .of_eq rfl

theorem retire_rise {s t : State} (h : retire s = .next t) : VerifiedRise s t := by
  rcases retire_cases h with ⟨hrun, heffect⟩ | ⟨_, rfl⟩
  · exact heffect.rise hrun
  · exact .of_eq rfl

/-! ## Host accesses -/

theorem issue_rise {d : Word} {s t : State} (hrun : s.phase ≠ .run) (h : issue d s = .next t) : VerifiedRise s t := by
  rcases issue_cases hrun h with ⟨_, _, rfl⟩ | ⟨_, rfl⟩ | ⟨_, _, rfl⟩
  · exact .of_false rfl
  · exact .of_eq rfl
  · exact .of_eq rfl

/-- A write to RXLEN or RXBUF clears RXVERIFIED, and no other write moves it (R66). -/
theorem WriteEffect.rise {s t : State} (h : WriteEffect s t) : VerifiedRise s t := by
  cases h with
  | rxlen _ n => exact .of_false rfl
  | rxbuf _ i b _ => exact .of_false rfl
  | _ => exact .of_eq rfl

theorem hostWriteEvent_rise {a : Half} {d : Word} {s t : State} (hinv : Inv s) (h : hostWriteEvent a d s = .next t) :
    VerifiedRise s t := by
  have hp := hinv.sound.params
  rcases hostWriteEvent_cases hp h with ⟨x, rfl⟩ | ⟨_, ⟨_, rfl⟩ | ⟨hb, hissue⟩⟩ | ⟨_, rfl⟩
  · exact .of_eq rfl
  · exact .of_eq rfl
  · exact issue_rise (by rw [hinv.idle_of_not_busy hb]; decide) hissue
  · rcases hostWrite_effect (a := a) d s hp with heffect | ⟨i, _, _, _, e⟩
    · exact heffect.rise
    · rw [e]
      exact .of_eq rfl

theorem hostReadEvent_rise {a : Half} {s t : State} (h : hostReadEvent a s = .next t) : VerifiedRise s t := by
  obtain ⟨r, n, rfl⟩ := hostReadEvent_cases h
  exact .of_eq rfl

/-! ## The transaction -/

/-- The end of a gap raises RXVERIFIED only on an accepted frame (R156). -/
theorem gapEnd_rise {s u : State} (htrans : inTransaction s) (hu : u.rxVerified = s.rxVerified) :
    VerifiedRise s (gapEnd u) := by
  rcases gapEnd_cases u with ⟨hacc, e⟩ | ⟨_, _, e⟩ | ⟨_, _, e⟩ <;> rw [e]
  · exact .exchanged htrans hacc rfl rfl
  · exact .of_false rfl
  · exact .of_eq hu

theorem txAccept_rise (s : State) : VerifiedRise s (txAccept s) := by
  by_cases hv : txValid s = true
  swap
  · rw [txAccept_else (by simpa using hv)]
    exact .of_eq rfl
  obtain ⟨hphase, _⟩ : s.phase = .tx ∧ s.txpos.toNat < 20 := by simpa [txValid] using hv
  by_cases hlast : s.txpos + 1 = 20
  · rw [txAccept_last hv hlast]
    split_ifs
    · exact gapEnd_rise (.inl hphase) rfl
    · exact .of_eq rfl
  · rw [txAccept_next hv hlast]
    exact .of_eq rfl

theorem tick_rise (s : State) : VerifiedRise s (tick s) := by
  by_cases hgap : s.phase = .gap
  · rw [tick_gap hgap]
    split_ifs
    · exact gapEnd_rise (.inr (.inl hgap)) rfl
    · exact .of_eq rfl
  by_cases hrx : s.phase = .rx
  · rw [tick_rx hrx]
    split_ifs
    · exact .of_false rfl
    · exact .of_eq rfl
  · rw [tick_else hgap hrx]
    exact .of_eq rfl

theorem reject_rxVerified (c : Cause) (f : List Byte) (s : State) : (reject c f s).rxVerified = s.rxVerified := by
  obtain ⟨_, _, _, _, _, e⟩ := reject_eq c f s
  rw [e]

/-- Acceptance completes the transaction in RX, and waits for the end of the gap elsewhere (R165). -/
theorem accept_rise {s u : State} (htrans : inTransaction s) (hu : u.rxVerified = s.rxVerified) :
    VerifiedRise s (accept u) := by
  unfold accept
  dsimp only
  split_ifs
  · exact .exchanged htrans rfl rfl rfl
  · exact .of_eq hu

theorem AsmEffect.rise {s t : State} (h : AsmEffect s t) (htrans : inTransaction s) : VerifiedRise s t := by
  cases h with
  | move a => exact .of_eq rfl
  | reject c f a => exact .of_eq (reject_rxVerified c f s)
  | store i n b a _ _ => exact .of_eq rfl
  | storeReject u hu _ c f => exact .of_eq ((reject_rxVerified c f u).trans (by rw [hu]; rfl))
  | accept u hu _ _ => exact accept_rise htrans (by rw [hu]; rfl)

theorem rxByte_rise {s : State} (b : Byte) (hinv : Inv s) : VerifiedRise s (rxByte b s) := by
  unfold rxByte
  split_ifs with hl
  · obtain ⟨htrans, _⟩ : inTransaction s ∧ s.accepted = false := by simpa [listening] using hl
    have ⟨hparams, _, _, _, ⟨_, hclen, _⟩, _⟩ := hinv
    exact (assemble_effect b s hparams hclen).rise htrans
  · exact .of_eq rfl

/-! ## Every step -/

theorem runEvent_rise {e : Event} {s t : State} (hinv : Inv s) (h : runEvent e s = .next t) : VerifiedRise s t := by
  cases e with
  | hostWrite a d => exact hostWriteEvent_rise hinv h
  | hostRead a => exact hostReadEvent_rise h
  | rxByte b => cases h; exact rxByte_rise b hinv
  | txAccept => cases h; exact txAccept_rise s
  | tick => cases h; exact tick_rise s
  | retire => exact retire_rise h
  | reset => cases h; exact .of_false rfl

/-- The events to come have no part in how RXVERIFIED moves. -/
theorem VerifiedRise.of_input {s t : State} {es : List Event} (h : VerifiedRise { s with input := es } t) :
    VerifiedRise s t := by
  cases h with
  | kept h => exact .kept h
  | checked hrun hop hcode hbusy => exact .checked hrun hop hcode hbusy
  | exchanged htrans hacc hcode hbusy => exact .exchanged htrans hacc hcode hbusy

theorem step_rise {s t : State} (hinv : Inv s) (h : step s = .next t) : VerifiedRise s t := by
  obtain ⟨_, ⟨_, hretire⟩ | ⟨e, rest, _, hevent⟩⟩ := step_cases h
  · exact retire_rise hretire
  · exact (runEvent_rise (s := { s with input := rest }) hinv hevent).of_input

/-- Settles O56: the frame passes by the invariant of the next state, and a rise is a completion, of a check or of a
transaction. -/
theorem rxverifiedNeedsAChecksumPass : Obligations.RxverifiedNeedsAChecksumPass := by
  intro s t hinv hstep hlow hhigh
  obtain ⟨_, _, _, _, _, _, hgood, _⟩ := stepKeepsInv s t hinv hstep
  have ⟨_, _, ⟨hlife, _⟩, _⟩ := hinv
  cases step_rise hinv hstep with
  | kept h => exact absurd (hlow.symm.trans (h hhigh)) (by decide)
  | checked hrun hop hcode hbusy =>
    exact ⟨hgood hhigh, hcode, hlife.2 (by rw [hrun]; decide), hbusy, .inl ⟨hrun, hop⟩⟩
  | exchanged htrans hacc hcode hbusy =>
    exact ⟨hgood hhigh, hcode, (hinv.exchange htrans).busy, hbusy, .inr ⟨htrans, hacc⟩⟩

end Sys2Proof.Machine
end

section
/-! PROOFS for spec/41_frame_tx.md: what BUILD leaves (R140 to R142), and that nothing but Reset and the Retire of a
BUILD moves TXBUF or TXLEN (R142). -/

namespace Sys2Proof.Machine

/-! ## The request as digits (R93, R94, R140, R141) -/

theorem hex2_eq_upperHex (b : Byte) : hex2 b = [upperHex (b.toNat / 16), upperHex (b.toNat % 16)] := by
  have hb := b.isLt
  have hhigh : b.toNat / 16 % 16 = b.toNat / 16 := by omega
  simp [hex2, hexChar_eq_upperHex, BitVec.extractLsb'_toNat, Nat.shiftRight_eq_div_pow, hhigh]

theorem hex4_eq_upperHex (n : Half) : hex4 n = [upperHex (n.toNat / 4096), upperHex (n.toNat / 256 % 16),
    upperHex (n.toNat / 16 % 16), upperHex (n.toNat % 16)] := by
  have hn := n.isLt
  have hhigh : n.toNat / 4096 % 16 = n.toNat / 4096 := by omega
  simp [hex4, hexChar_eq_upperHex, BitVec.extractLsb'_toNat, Nat.shiftRight_eq_div_pow, hhigh]

theorem requestBody_eq_upperHex (adr code : Byte) : requestBody adr code =
    [0x32, 0x32, upperHex (adr.toNat / 16), upperHex (adr.toNat % 16), 0x34, 0x41,
      upperHex (code.toNat / 16), upperHex (code.toNat % 16), 0x45, 0x30, 0x30, 0x32, 0x46, 0x46] := by
  rw [requestBody, hex2_eq_upperHex, hex2_eq_upperHex]
  rfl

/-- A request frames its body between SOI and the digits of its checksum (R141). -/
theorem requestFrame_of_body {adr code : Byte} {body : List Byte} (h : requestBody adr code = body) :
    requestFrame adr code = [0x7E] ++ body ++ [upperHex (checksumOf body / 4096), upperHex (checksumOf body / 256 % 16),
      upperHex (checksumOf body / 16 % 16), upperHex (checksumOf body % 16), 0x0D] := by
  rw [requestFrame, h, hex4_eq_upperHex, csum_toNat, List.append_assoc]
  rfl

theorem txRead_sendFrame_getD (adr code : Byte) (s : State) {i : Nat} (h : i < 20) :
    txRead (sendFrame adr code s) i = (requestFrame adr code).getD i 0 := by
  have hi : i < (requestFrame adr code).length := by rwa [requestFrame_length]
  rw [txRead_sendFrame, List.getD_eq_getElem?_getD, List.getElem?_eq_getElem hi, Option.getD_some, Option.getD_some]

/-! ## The operands of BUILD (R96, R140) -/

theorem decodeCode_legal {code : Byte} (h : code = 0x42 ∨ code = 0x4F) : ∃ i, decodeCode code = .ok i := by
  rcases h with rfl | rfl
  · exact ⟨.queryAnalog, rfl⟩
  · exact ⟨.queryVersion, rfl⟩

/-- The address of a legal target fits a byte: POS is at most 13 and GRP at most 7 (R140). -/
theorem requestAddress_legal {sys : Bool} {pos : BitVec 4} (grp : BitVec 3)
    (h : sys = true ∨ (2 ≤ pos.toNat ∧ pos.toNat ≤ 13)) : ∃ adr : Byte, requestAddress sys pos grp = some adr ∧
      adr.toNat = if sys then 16 * grp.toNat else pos.toNat + 16 * grp.toNat := by
  have hgrp := grp.isLt
  cases sys with
  | true => exact ⟨_, rfl, Nat.mod_eq_of_lt (by omega)⟩
  | false =>
    have hpos : 2 ≤ pos.toNat ∧ pos.toNat ≤ 13 := by simpa using h
    exact ⟨_, if_pos hpos, Nat.mod_eq_of_lt (by omega)⟩

theorem requestAddress_refused {sys : Bool} {pos : BitVec 4} (grp : BitVec 3)
    (h : ¬(sys = true ∨ (2 ≤ pos.toNat ∧ pos.toNat ≤ 13))) : requestAddress sys pos grp = none := by
  obtain ⟨hsys, hpos⟩ := not_or.1 h
  rw [requestAddress, if_neg hsys, if_neg hpos]

/-! ## What BUILD leaves (R141, R142) -/

/-- BUILD for an accepted code and an addressed target sends the frame (R141). -/
theorem execBuild_of_requestAddress {code adr : Byte} (hcode : code = 0x42 ∨ code = 0x4F) {sys : Bool} {pos : BitVec 4}
    {grp : BitVec 3} (hadr : requestAddress sys pos grp = some adr) (s : State) :
    execBuild code sys pos grp s = .next (sendFrame adr code s) := by
  obtain ⟨i, hi⟩ := decodeCode_legal hcode
  rw [execBuild_of_decodeCode_ok hi, buildRequest, hadr]

/-- Every other BUILD completes BAD_ARG, refused by its code or by its target (R96, R141). -/
theorem execBuild_refused {code : Byte} {sys : Bool} {pos : BitVec 4} (grp : BitVec 3)
    (h : ¬((code = 0x42 ∨ code = 0x4F) ∧ (sys = true ∨ (2 ≤ pos.toNat ∧ pos.toNat ≤ 13)))) (s : State) :
    execBuild code sys pos grp s = .next (badArg s) := by
  by_cases hcode : code = 0x42 ∨ code = 0x4F
  · obtain ⟨i, hi⟩ := decodeCode_legal hcode
    rw [execBuild_of_decodeCode_ok hi, buildRequest, requestAddress_refused grp fun hpos => h ⟨hcode, hpos⟩]
  · obtain ⟨hanalog, hversion⟩ := not_or.1 hcode
    exact execBuild_of_decodeCode_error (decodeCode_other hanalog hversion) sys pos grp s

/-- BAD_ARG leaves an empty TXBUF of a fresh draw (R142, R77; log 3). -/
theorem badArg_eq_faulted (s : State) : badArg s =
    faulted .badArg { s with txbuf := (badArg s).txbuf, txSeed := s.draws, draws := s.draws + 1, txlen := 0 } := by
  simp [badArg, complete, redrawTx, faulted]

/-- Settles O28: an accepted BUILD sends the frame of its address and code, every other is refused. -/
theorem buildResult : Obligations.BuildResult := by
  intro s code sys pos grp legalCode legalPos adr body k frame
  refine ⟨fun hcode hpos => ?_, fun hrefused => ⟨badArg s, execBuild_refused grp hrefused s, badArg_eq_faulted s⟩⟩
  obtain ⟨b, hb, hadr⟩ := requestAddress_legal grp hpos
  have hbody : requestBody b code = body := by rw [requestBody_eq_upperHex, hadr]
  have hframe : requestFrame b code = frame := requestFrame_of_body hbody
  refine ⟨sendFrame b code s, execBuild_of_requestAddress hcode hb s, sendFrame_eq_finished b code s, fun i hi => ?_⟩
  rw [txRead_sendFrame_getD b code s hi, hframe]

/-! ## TXBUF and TXLEN -/

/-- All of the state that TXLEN and the reads of TXBUF depend on. -/
def State.txPart (s : State) : BitVec 5 × List Host.Cell × Nat := (s.txlen, s.txbuf, s.txSeed)

theorem txlen_txRead_of_txPart {s t : State} (h : t.txPart = s.txPart) :
    t.txlen = s.txlen ∧ ∀ i, txRead t i = txRead s i := by
  obtain ⟨hlen, hbuf, hseed⟩ : t.txlen = s.txlen ∧ t.txbuf = s.txbuf ∧ t.txSeed = s.txSeed := by
    simpa [State.txPart] using h
  exact ⟨hlen, fun i => by rw [txRead, txRead, hbuf, hseed]⟩

/-! ## Commands but BUILD keep TXBUF and TXLEN -/

theorem extract_txPart (sgn : Bool) (s : State) : (extract sgn s).txPart = s.txPart := by
  unfold extract
  split_ifs
  · rfl
  · rfl
  · rfl
  · split <;> rfl

theorem SlotsGrow.txPart {s t : State} (h : SlotsGrow s t) : t.txPart = s.txPart := by
  rw [h.frame]
  rfl

theorem ParseEnd.txPart {s t : State} (h : ParseEnd s t) : t.txPart = s.txPart := by
  cases h with
  | done u hu _ => exact hu.txPart
  | fault c u _ hu _ => exact hu.txPart

theorem parse_txPart (didx : BitVec 7) (s : State) : (parse didx s).txPart = s.txPart := by
  rcases parse_end didx s with ⟨_, hend⟩ | ⟨_, hfault⟩
  · exact hend.txPart
  · rw [hfault]
    rfl

theorem CmdEffect.txPart {w : Word} {s t : State} (h : CmdEffect w s t) (hop : cmdOp w ≠ 1) : t.txPart = s.txPart := by
  cases h with
  | send h adr code => exact absurd h hop
  | badArg h => exact absurd h hop
  | ext _ sgn => exact extract_txPart sgn s
  | parse _ didx => exact parse_txPart didx s
  | _ => rfl

theorem retire_txPart {s t : State} (h : retire s = .next t) :
    t.txPart = s.txPart ∨ (s.phase = .run ∧ cmdOp s.latCmd = 1) := by
  rcases retire_cases h with ⟨hrun, heffect⟩ | ⟨_, rfl⟩
  · by_cases hop : cmdOp s.latCmd = 1
    · exact .inr ⟨hrun, hop⟩
    · exact .inl (heffect.txPart hop)
  · exact .inl rfl

/-! ## Host accesses keep TXBUF and TXLEN -/

/-- Issue runs no command but XACT (R230, R153). -/
theorem issue_txPart {d : Word} {s t : State} (h : issue d s = .next t) : t.txPart = s.txPart := by
  unfold issue at h
  dsimp only at h
  split_ifs at h with hxact
  · obtain ⟨u, hu, heffect⟩ := exec_decodeCmd d (issueLatch d s)
    rw [hu] at h
    cases h
    exact heffect.txPart (by rw [hxact]; decide)
  · cases h
    rfl
  · cases h
    rfl

theorem WriteEffect.txPart {s t : State} (h : WriteEffect s t) : t.txPart = s.txPart := by
  cases h <;> rfl

theorem hostWriteEvent_txPart {a : Half} {d : Word} {s t : State} (hp : s.params.valid = true)
    (h : hostWriteEvent a d s = .next t) : t.txPart = s.txPart := by
  rcases hostWriteEvent_cases hp h with ⟨x, rfl⟩ | ⟨_, ⟨_, rfl⟩ | ⟨_, hissue⟩⟩ | ⟨_, rfl⟩
  · rfl
  · rfl
  · exact issue_txPart hissue
  · rcases hostWrite_effect (a := a) d s hp with heffect | ⟨i, _, _, _, e⟩
    · exact heffect.txPart
    · rw [e]
      rfl

theorem hostReadEvent_txPart {a : Half} {s t : State} (h : hostReadEvent a s = .next t) : t.txPart = s.txPart := by
  obtain ⟨r, n, rfl⟩ := hostReadEvent_cases h
  rfl

/-! ## The transaction keeps TXBUF and TXLEN -/

theorem gapEnd_txPart (s : State) : (gapEnd s).txPart = s.txPart := by
  rcases gapEnd_cases s with ⟨_, e⟩ | ⟨_, _, e⟩ | ⟨_, _, e⟩ <;> rw [e] <;> rfl

theorem txAccept_txPart (s : State) : (txAccept s).txPart = s.txPart := by
  by_cases hv : txValid s = true
  · by_cases hlast : s.txpos + 1 = 20
    · rw [txAccept_last hv hlast]
      split_ifs
      · exact gapEnd_txPart _
      · rfl
    · rw [txAccept_next hv hlast]
      rfl
  · rw [txAccept_else (by simpa using hv)]

theorem tick_txPart (s : State) : (tick s).txPart = s.txPart := by
  by_cases hgap : s.phase = .gap
  · rw [tick_gap hgap]
    split_ifs
    · exact gapEnd_txPart _
    · rfl
  · by_cases hrx : s.phase = .rx
    · rw [tick_rx hrx]
      split_ifs <;> rfl
    · rw [tick_else hgap hrx]

theorem reject_txPart (c : Cause) (f : List Byte) (s : State) : (reject c f s).txPart = s.txPart := by
  obtain ⟨_, _, _, _, _, e⟩ := reject_eq c f s
  rw [e]
  rfl

theorem endCandidate_txPart (s : State) : (endCandidate s).txPart = s.txPart := by
  unfold endCandidate accept
  dsimp only
  split_ifs
  · rfl
  · rfl
  · exact reject_txPart _ _ s

/-- From every state, also one whose candidate is longer than RXBUF, which `assemble_effect` leaves out. -/
theorem assemble_txPart (b : Byte) (s : State) : (assemble b s).txPart = s.txPart := by
  unfold assemble
  cases s.asm with
  | inFrame =>
    dsimp only
    split_ifs
    · rfl
    · rfl
    · exact endCandidate_txPart _
    · rfl
  | _ => dsimp only; split_ifs <;> rfl

theorem rxByte_txPart (b : Byte) (s : State) : (rxByte b s).txPart = s.txPart := by
  unfold rxByte
  split_ifs
  · exact assemble_txPart b s
  · rfl

/-! ## Every step -/

theorem runEvent_txPart {e : Event} {s t : State} (hp : s.params.valid = true) (h : runEvent e s = .next t) :
    t.txPart = s.txPart ∨ e = .reset ∨ (s.phase = .run ∧ cmdOp s.latCmd = 1 ∧ e = .retire) := by
  cases e with
  | hostWrite a d => exact .inl (hostWriteEvent_txPart hp h)
  | hostRead a => exact .inl (hostReadEvent_txPart h)
  | rxByte b => cases h; exact .inl (rxByte_txPart b s)
  | txAccept => cases h; exact .inl (txAccept_txPart s)
  | tick => cases h; exact .inl (tick_txPart s)
  | retire => exact (retire_txPart h).imp_right fun ⟨hrun, hop⟩ => .inr ⟨hrun, hop, rfl⟩
  | reset => exact .inr (.inl rfl)

/-- Settles O31: a step is a Retire or one event of the input, and each keeps TXBUF and TXLEN but the two that the
rule names. -/
theorem onlyBuildWritesTxbuf : Obligations.OnlyBuildWritesTxbuf := by
  intro s t h
  obtain ⟨hp, ⟨hnil, hretire⟩ | ⟨e, rest, hcons, hevent⟩⟩ := step_cases h
  · rcases retire_txPart hretire with hkept | ⟨hrun, hop⟩
    · exact .inl (txlen_txRead_of_txPart hkept)
    · exact .inr (.inr ⟨hrun, hop, .inl hnil⟩)
  · rcases runEvent_txPart (s := { s with input := rest }) hp hevent with hkept | rfl | ⟨hrun, hop, rfl⟩
    · exact .inl (txlen_txRead_of_txPart (s := s) hkept)
    · exact .inr (.inl (by rw [hcons]; rfl))
    · exact .inr (.inr ⟨hrun, hop, .inr (by rw [hcons]; rfl)⟩)

end Sys2Proof.Machine
end

section
/-! PROOFS for spec/42_frame_rx.md, one event at a time: the gates (R162), XACT (R153), TxAccept and Tick (R154, R156,
R157), and the receive assembler (R158, R160, R165, R168). -/

namespace Sys2Proof.Machine

/-! ## The gates (R162) -/

theorem getElem?_eq_some_iff_getD (f : List Byte) (i : Nat) (x : Byte) :
    f[i]? = some x ↔ i < f.length ∧ f.getD i 0 = x := by
  by_cases hlt : i < f.length <;> simp [hlt]

/-- Gate a, by the first and the last byte. -/
theorem delimiter_iff (f : List Byte) :
    (f.length < 1 ∨ f.getD 0 0 ≠ soi ∨ f.getD (f.length - 1) 0 ≠ eoi) ↔
      ¬(f.head? = some 0x7E ∧ f.getLast? = some 0x0D) := by
  rw [List.head?_eq_getElem?, List.getLast?_eq_getElem?, getElem?_eq_some_iff_getD, getElem?_eq_some_iff_getD]
  simp only [soi, eoi]
  grind

/-- Gate d, by the two bytes of the return code. -/
theorem rtn_iff (f : List Byte) :
    (f.length < 9 ∨ f.getD 7 0 ≠ 0x30 ∨ f.getD 8 0 ≠ 0x30) ↔ ¬(f[7]? = some 0x30 ∧ f[8]? = some 0x30) := by
  rw [getElem?_eq_some_iff_getD, getElem?_eq_some_iff_getD]
  grind

/-- Settles O27: each gate is asked only of a candidate that passes the gates before it. -/
theorem gateIsTheConjunction : Obligations.GateIsTheConjunction := by
  intro f m v a d
  have hgate : gate f m v = if ¬a then .delimiter else if v = false then .checksum
      else if f.length < m then .short else if ¬d then .rtn else .clear := by
    simp only [gate, delimiter_iff, rtn_iff, a, d]
  rw [hgate, ← Nat.not_lt]
  split_ifs with ha hv hm hd <;> simp [*] <;> decide

/-! ## XACT (R153) -/

/-- Settles O32: the three cases are the branches of XACT's meaning. -/
theorem xactStartsOrHasNoFrame : Obligations.XactStartsOrHasNoFrame := by
  intro s
  refine ⟨fun hlen => if_pos hlen, fun hlen hrun => ?_, fun hlen hrun => ?_⟩
  · exact (if_neg hlen).trans (if_neg hrun)
  · have hfault : complete .noFrame s = faulted .noFrame s := by simp [complete, faulted]
    rw [← hfault]
    exact (if_neg hlen).trans (if_pos hrun)

/-! ## A block that waits (R169, R251) -/

/-- Settles O17: with no event to come the step is a Retire, which does nothing outside RUN. -/
theorem waitingBlockStays : Obligations.WaitingBlockStays := by
  intro s hp hi hrun
  rw [step_nil hp hi]
  exact if_neg hrun

/-! ## The steps of the transmitter and the timebase (R154, R156, R157) -/

theorem gapEnd_of_accepted {s : State} (ha : s.accepted = true) : gapEnd s = xactOk s := if_pos ha

theorem gapEnd_opens {s : State} (ha : s.accepted = false) (htmo : s.latTmo ≠ 0) :
    gapEnd s = { s with phase := .rx, tcnt := 0 } := by
  exact (if_neg (by rw [ha]; decide)).trans (if_neg htmo)

theorem gapEnd_timedOut {s : State} (ha : s.accepted = false) (htmo : s.latTmo = 0) :
    gapEnd s = timedOut { s with tcnt := 0 } := by
  have hend : gapEnd s = xactTimeout { s with phase := .rx, tcnt := 0 } :=
    (if_neg (by rw [ha]; decide)).trans (if_pos htmo)
  rw [hend, xactTimeout_eq_timedOut]
  rfl

theorem txValid_of_tx {s : State} (hphase : s.phase = .tx) (hpos : s.txpos.toNat < 20) : txValid s = true :=
  decide_eq_true ⟨hphase, hpos⟩

theorem txpos_succ_eq_iff {p : BitVec 5} : p + 1 = 20 ↔ p = 19 := by
  revert p; decide

/-- Settles O33: the 20th TxAccept leaves TXPOS at 20, and with a gap of 0 it is the end of the gap. -/
theorem txAcceptMovesOn : Obligations.TxAcceptMovesOn := by
  intro s rest hp hi u g
  have hstep : step s = .next (txAccept { s with input := rest }) := step_cons hp hi
  have last : s.phase = .tx → s.txpos = 19 →
      txAccept { s with input := rest } = if s.latGap = 0 then gapEnd g else g :=
    fun hphase hpos => txAccept_last (s := { s with input := rest }) (txValid_of_tx hphase (by rw [hpos]; decide))
      (txpos_succ_eq_iff.2 hpos)
  have noGap : s.phase = .tx → s.txpos = 19 → s.latGap = 0 → step s = .next (gapEnd g) := fun hphase hpos hgap => by
    rw [hstep, last hphase hpos, if_pos hgap]
  refine ⟨fun hphase hpos => ?_, fun hphase hpos => ?_, fun hphase hpos hgap => ?_, fun hphase hpos hgap ha => ?_,
    fun hphase hpos hgap ha htmo => ?_, fun hphase hpos hgap ha htmo => ?_, fun hphase => ?_⟩
  · have hvalid := txValid_of_tx hphase hpos
    exact ⟨hvalid, if_pos hvalid⟩
  · have hne : s.txpos + 1 ≠ 20 := fun e => by
      rw [txpos_succ_eq_iff.1 e] at hpos
      exact absurd hpos (by decide)
    have hvalid : txValid s = true := txValid_of_tx hphase (by omega)
    rw [hstep, txAccept_next (s := { s with input := rest }) hvalid hne]
  · rw [hstep, last hphase hpos, if_neg hgap]
  · rw [noGap hphase hpos hgap, gapEnd_of_accepted (s := g) ha]
    exact ⟨_, rfl, xactOk_completed g⟩
  · rw [noGap hphase hpos hgap, gapEnd_opens (s := g) ha htmo]
  · rw [noGap hphase hpos hgap, gapEnd_timedOut (s := g) ha htmo]
    rfl
  · rw [hstep, txAccept_else (by simp [txValid, hphase])]

/-- Settles O34: a Tick that counts to the latched value is the end of the gap or of the window. -/
theorem tickCounts : Obligations.TickCounts := by
  intro s rest hp hi u
  have hstep : step s = .next (tick { s with input := rest }) := step_cons hp hi
  have inGap : s.phase = .gap → step s = .next (if s.tcnt + 1 = s.latGap then gapEnd u else u) := fun hphase =>
    hstep.trans (congrArg _ (tick_gap hphase))
  have inRx : s.phase = .rx → step s = .next (if s.tcnt + 1 = s.latTmo then xactTimeout u else u) := fun hphase =>
    hstep.trans (congrArg _ (tick_rx hphase))
  refine ⟨fun hphase hcnt => ?_, fun hphase hcnt ha => ?_, fun hphase hcnt ha htmo => ?_, fun hphase hcnt ha htmo => ?_,
    fun hphase hcnt => ?_, fun hphase hcnt => ?_, fun hgap hrx => ?_⟩
  · rw [inGap hphase, if_neg hcnt]
  · rw [inGap hphase, if_pos hcnt, gapEnd_of_accepted (s := u) ha]
    exact ⟨_, rfl, xactOk_completed u⟩
  · rw [inGap hphase, if_pos hcnt, gapEnd_opens (s := u) ha htmo]
  · rw [inGap hphase, if_pos hcnt, gapEnd_timedOut (s := u) ha htmo]
  · rw [inRx hphase, if_neg hcnt]
  · rw [inRx hphase, if_pos hcnt, xactTimeout_eq_timedOut]
  · rw [hstep, tick_else (s := { s with input := rest }) hgap hrx]

/-! ## The steps of the receiver (R158, R160) -/

theorem listening_iff (s : State) : listening s = true ↔ inTransaction s ∧ s.accepted = false := by
  simp [listening]

theorem step_rxByte_listening {s : State} {b : Byte} {rest : List Event} (hp : s.params.valid = true)
    (hi : s.input = .rxByte b :: rest) (htrans : inTransaction s) (ha : s.accepted = false) :
    step s = .next (assemble b { s with input := rest }) :=
  (step_cons hp hi).trans (congrArg _ (if_pos ((listening_iff _).2 ⟨htrans, ha⟩)))

/-- Settles O35: the assembler does not see the byte. -/
theorem strayBytesLeaveNoTrace : Obligations.StrayBytesLeaveNoTrace := by
  intro s b rest hp hi hstray
  have hdeaf : ¬listening { s with input := rest } = true := fun hl => by
    obtain ⟨htrans, ha⟩ := (listening_iff _).1 hl
    exact hstray.elim (· htrans) fun hacc => absurd (ha.symm.trans hacc) (by decide)
  exact (step_cons hp hi).trans (congrArg _ (if_neg hdeaf))

/-- A rejection, field by field (R168). -/
theorem reject_counts (c : Cause) (f : List Byte) (s : State) : reject c f s =
    { s with rejCause := c, rejHi := if c = .rtn then f.getD 7 0 else 0, rejLo := if c = .rtn then f.getD 8 0 else 0,
             rejcntA := if c = .delimiter then countedUp s.rejcntA else s.rejcntA,
             rejcntB := if c = .checksum then countedUp s.rejcntB else s.rejcntB,
             rejcntC := if c = .short then countedUp s.rejcntC else s.rejcntC,
             rejcntD := if c = .rtn then countedUp s.rejcntD else s.rejcntD,
             rejcntE := if c = .overlong then countedUp s.rejcntE else s.rejcntE } := by
  cases c <;> simp [reject, countReject, satInc_eq_countedUp]

theorem reject_delimiter (f : List Byte) (s : State) : reject .delimiter f s =
    { s with rejCause := .delimiter, rejHi := 0, rejLo := 0, rejcntA := countedUp s.rejcntA } := by
  simp [reject_counts]

theorem reject_overlong (f : List Byte) (s : State) : reject .overlong f s =
    { s with rejCause := .overlong, rejHi := 0, rejLo := 0, rejcntE := countedUp s.rejcntE } := by
  simp [reject_counts]

/-- The candidate of IN_FRAME with one more byte stored (R160). -/
def storeByte (b : Byte) (s : State) : State := { rxWrite s.clen b s with clen := s.clen + 1 }

theorem assemble_waitFirst {b : Byte} {s : State} (h : s.asm = .waitFirst) : assemble b s =
    if b = 0x0D then reject .delimiter [eoi] s
    else if b = 0x7E then { rxWrite 0 b s with clen := 1, asm := .inFrame } else { s with asm := .skip } := by
  unfold assemble
  rw [h]
  rfl

theorem assemble_skip {b : Byte} {s : State} (h : s.asm = .skip) : assemble b s =
    if b = 0x0D then { reject .delimiter [] s with asm := .waitFirst } else s := by
  unfold assemble
  rw [h]
  rfl

theorem assemble_full {b : Byte} {s : State} (h : s.asm = .inFrame) (hfull : s.clen = s.params.rxbufBytes) :
    assemble b s = if b = 0x0D then { reject .overlong [] s with asm := .waitFirst } else { s with asm := .over } := by
  unfold assemble
  rw [h]
  exact if_pos hfull

theorem assemble_inFrame {b : Byte} {s : State} (h : s.asm = .inFrame) (hroom : s.clen ≠ s.params.rxbufBytes) :
    assemble b s = if b = 0x0D then endCandidate { storeByte b s with asm := .waitFirst } else storeByte b s := by
  unfold assemble
  rw [h]
  exact if_neg hroom

theorem assemble_over {b : Byte} {s : State} (h : s.asm = .over) : assemble b s =
    if b = 0x0D then { reject .overlong [] s with asm := .waitFirst } else s := by
  unfold assemble
  rw [h]
  rfl

/-- Settles O36: one case for each state of the assembler and each byte that it tells apart. -/
theorem assemblerStates : Obligations.AssemblerStates := by
  intro s b rest hp hi htrans ha u rejected
  have hstep : step s = .next (assemble b u) := step_rxByte_listening hp hi htrans ha
  rw [hstep]
  refine ⟨fun h hb => ?_, fun h hb => ?_, fun h heoi hsoi => ?_, fun h hb => ?_, fun h hb => ?_, fun h hfull hb => ?_,
    fun h hfull hb => ?_, fun h hroom hb => ?_, fun h hb => ?_, fun h hb => ?_⟩
  · rw [assemble_waitFirst (s := u) h, if_pos hb, reject_delimiter]
    simp only [rejected, u, ← h]
  · rw [assemble_waitFirst (s := u) h, if_neg (by rw [hb]; decide), if_pos hb]
    exact ⟨_, rfl, rfl, fun i => rxRead_rxWrite 0 i b u⟩
  · rw [assemble_waitFirst (s := u) h, if_neg heoi, if_neg hsoi]
  · rw [assemble_skip (s := u) h, if_pos hb, reject_delimiter]
  · rw [assemble_skip (s := u) h, if_neg hb]
  · rw [assemble_full (s := u) h hfull, if_pos hb, reject_overlong]
  · rw [assemble_full (s := u) h hfull, if_neg hb]
  · rw [assemble_inFrame (s := u) h hroom, if_neg hb]
    exact ⟨_, rfl, rfl, fun i => rxRead_rxWrite s.clen i b u⟩
  · rw [assemble_over (s := u) h, if_pos hb, reject_overlong]
  · rw [assemble_over (s := u) h, if_neg hb]

/-! ## The end of a stored candidate (R160, R165, R168) -/

/-- The candidate in RXBUF once its last byte is stored. -/
theorem rxFrame_rxWrite_last (b : Byte) (s : State) (n : Nat) :
    rxFrame (rxWrite n b s) (n + 1) = rxFrame s n ++ [b] := by
  have hbelow : rxFrame (rxWrite n b s) n = rxFrame s n :=
    rxFrame_congr fun i hlt => by rw [rxRead_rxWrite, if_neg (by omega)]
  rw [← hbelow]
  simp [rxFrame, List.range_succ, rxRead_rxWrite]

/-- Settles O37: the candidate in RXBUF with its EOI stored goes through the gates. -/
theorem candidateEnds : Obligations.CandidateEnds := by
  intro s rest hp hi htrans ha hasm hroom f c
  let w : State := { storeByte 0x0D { s with input := rest } with asm := .waitFirst }
  have hstep : step s = .next (endCandidate w) := by
    rw [step_rxByte_listening hp hi htrans ha, assemble_inFrame (s := { s with input := rest }) hasm hroom.ne]
    rfl
  have hframe : rxFrame w w.clen = f := rxFrame_rxWrite_last 0x0D { s with input := rest } s.clen
  have hend : endCandidate w = if c = .clear then accept w else reject c f w := by
    simp only [endCandidate, hframe]
    rfl
  have hread : ∀ i, rxRead w i = if i = s.clen then 0x0D else rxRead s i := fun i => rxRead_rxWrite s.clen i 0x0D s
  refine ⟨fun hc => ?_, fun hc hrx => ?_, fun hc hrx => ?_⟩
  · have he : c ≠ .overlong := gate_ne_overlong _ _ _
    rw [hstep, hend, if_neg hc, reject_counts, if_neg he]
    exact ⟨_, rfl, rfl, hread⟩
  · have haccept : accept w = { w with accepted := true, rxlen := BitVec.ofNat 16 w.clen } := if_neg hrx
    rw [hstep, hend, if_pos hc, haccept]
    exact ⟨_, rfl, rfl, hread⟩
  · have haccept : accept w = xactOk { w with accepted := true, rxlen := BitVec.ofNat 16 w.clen } := if_pos hrx
    have hlen : (BitVec.ofNat 16 (s.clen + 1)).toNat = s.clen + 1 := by
      simp only [Config.Params.valid, decide_eq_true_eq] at hp
      rw [BitVec.toNat_ofNat]
      exact Nat.mod_eq_of_lt (by omega)
    obtain ⟨hdone, hkept⟩ := xactOk_completed { w with accepted := true, rxlen := BitVec.ofNat 16 w.clen }
    rw [hstep, hend, if_pos hc, haccept]
    refine ⟨_, rfl, hdone, fun i hle => ?_⟩
    rw [hkept i (by show i < (BitVec.ofNat 16 (s.clen + 1)).toNat; omega)]
    exact hread i

end Sys2Proof.Machine
end

section
/-! PROOFS for spec/42_frame_rx.md, the transaction as a whole: everything one event can do to PHASE and to what a
transaction counts, from which the table of R150 and the bound of R169 follow. -/

namespace Sys2Proof.Machine

/-! ## What an event does to the transaction -/

/-- PHASE, the transaction's counters and its limits, and the events to come. -/
def State.place (s : State) : Phase × BitVec 5 × Word × Word × Word × List Event :=
  (s.phase, s.txpos, s.tcnt, s.latGap, s.latTmo, s.input)

theorem place_eq_iff {s t : State} : t.place = s.place ↔ t.phase = s.phase ∧ t.txpos = s.txpos ∧ t.tcnt = s.tcnt ∧
    t.latGap = s.latGap ∧ t.latTmo = s.latTmo ∧ t.input = s.input := by
  simp [State.place]

/-- A command has completed with code `c` (R232). -/
structure Completed (c : Code) (t : State) : Prop where
  phase : t.phase = .idle
  busy : t.busy = false
  done : t.done = true
  code : t.code = c

theorem completed_complete (c : Code) (s : State) : Completed c (complete c s) := ⟨rfl, rfl, rfl, rfl⟩

/-- The three ways in which a gap ends (R156). -/
inductive GapEnds (s : State) : State → Prop where
  | ok {t : State} (ha : s.accepted = true) (h : Completed .ok t) : GapEnds s t
  | opens (ha : s.accepted = false) (htmo : s.latTmo ≠ 0) (pos : BitVec 5) :
      GapEnds s { s with txpos := pos, phase := .rx, tcnt := 0 }
  | timeout {t : State} (ha : s.accepted = false) (htmo : s.latTmo = 0) (h : Completed .timeout t) : GapEnds s t

/-- How a gap ends depends on ACCEPTED and the latched timeout of `s` alone, not on the place it ends from. -/
theorem gapEnd_ends (s : State) (pos : BitVec 5) (p : Phase) (n : Word) :
    GapEnds s (gapEnd { s with txpos := pos, phase := p, tcnt := n }) := by
  rcases gapEnd_cases { s with txpos := pos, phase := p, tcnt := n } with ⟨ha, e⟩ | ⟨ha, htmo, e⟩ | ⟨ha, htmo, e⟩ <;>
    rw [e]
  · exact .ok ha (completed_complete _ _)
  · exact .timeout ha htmo (completed_complete _ _)
  · exact .opens (s := s) ha htmo pos

/-- Everything one event can do to PHASE and to what a transaction counts: the rows of R150, and the events that keep
their place in it. -/
inductive Moves (s : State) : Event → State → Prop where
  | stay {e : Event} {t : State} (h : t.place = s.place) (hsend : e = .txAccept → s.phase ≠ .tx)
      (hcount : e = .tick → s.phase ≠ .gap ∧ s.phase ≠ .rx) : Moves s e t
  | start {a : Half} {d : Word} {t : State} (ha : a.toNat / 4 = 3) (hidle : s.phase = .idle) (hop : cmdOp d = 2)
      (hlen : s.txlen = 20) (h : t.phase = .tx) : Moves s (.hostWrite a d) t
  | wait {a : Half} {d : Word} {t : State} (ha : a.toNat / 4 = 3) (hidle : s.phase = .idle)
      (hop : ¬(cmdOp d = 2 ∧ s.txlen = 20)) (h : t.phase = .run) : Moves s (.hostWrite a d) t
  | retire {t : State} (hrun : s.phase = .run) (h : t.phase = .idle) : Moves s .retire t
  | send (hphase : s.phase = .tx) (hpos : s.txpos ≠ 19) : Moves s .txAccept { s with txpos := s.txpos + 1 }
  | sendLast (hphase : s.phase = .tx) (hpos : s.txpos = 19) (hgap : s.latGap ≠ 0) :
      Moves s .txAccept { s with txpos := s.txpos + 1, phase := .gap, tcnt := 0 }
  | skipGap {t : State} (hphase : s.phase = .tx) (hpos : s.txpos = 19) (hgap : s.latGap = 0) (h : GapEnds s t) :
      Moves s .txAccept t
  | count (h : (s.phase = .gap ∧ s.tcnt + 1 ≠ s.latGap) ∨ (s.phase = .rx ∧ s.tcnt + 1 ≠ s.latTmo)) :
      Moves s .tick { s with tcnt := s.tcnt + 1 }
  | endGap {t : State} (hphase : s.phase = .gap) (hcnt : s.tcnt + 1 = s.latGap) (h : GapEnds s t) : Moves s .tick t
  | endWindow {t : State} (hphase : s.phase = .rx) (hcnt : s.tcnt + 1 = s.latTmo) (h : Completed .timeout t) :
      Moves s .tick t
  | receive {b : Byte} {t : State} (hphase : s.phase = .rx) (ha : t.accepted = true) (h : Completed .ok t) :
      Moves s (.rxByte b) t
  | reset {t : State} (h : t.phase = .idle) : Moves s .reset t

/-! ## Commands and host accesses -/

theorem extract_phase (sgn : Bool) (s : State) : (extract sgn s).phase = .idle := by
  unfold extract
  split_ifs
  · rfl
  · rfl
  · rfl
  · split <;> rfl

theorem ParseEnd.phase_idle {s t : State} (h : ParseEnd s t) : t.phase = .idle := by
  cases h <;> rfl

theorem parse_phase (didx : BitVec 7) (s : State) : (parse didx s).phase = .idle := by
  rcases parse_end didx s with ⟨_, hend⟩ | ⟨_, hfault⟩
  · exact hend.phase_idle
  · rw [hfault]
    rfl

/-- A command that waits in RUN completes: an XACT there has no frame to send (R153, R231). -/
theorem CmdEffect.phase_idle {s t : State} (he : CmdEffect s.latCmd s t) (h : Inv s) (hr : s.phase = .run) :
    t.phase = .idle := by
  obtain ⟨_, _, _, ⟨_, _, _, _, _, _, hxact⟩, _⟩ := h
  cases he with
  | start hop ht => exact absurd ht (hxact hr hop)
  | wait _ _ hn => exact absurd hr hn
  | ext _ sgn => exact extract_phase sgn s
  | parse _ didx => exact parse_phase didx s
  | _ => rfl

theorem retire_moves {s t : State} (hinv : Inv s) (h : retire s = .next t) : Moves s .retire t := by
  rcases retire_cases h with ⟨hrun, heffect⟩ | ⟨_, rfl⟩
  · exact .retire hrun (heffect.phase_idle hinv hrun)
  · exact .stay rfl Event.noConfusion Event.noConfusion

theorem WriteEffect.place {s t : State} (h : WriteEffect s t) : t.place = s.place := by
  cases h <;> rfl

/-- Only an accepted CMD write moves PHASE (R230); a write while BUSY = 1 is at most a BUSYERR (R52). -/
theorem hostWriteEvent_moves {a : Half} {d : Word} {s t : State} (hinv : Inv s) (h : hostWriteEvent a d s = .next t) :
    Moves s (.hostWrite a d) t := by
  have stay : t.place = s.place → Moves s (.hostWrite a d) t := fun hk => .stay hk Event.noConfusion Event.noConfusion
  have hp := hinv.sound.params
  rcases hostWriteEvent_cases hp h with ⟨x, rfl⟩ | ⟨ha, ⟨_, rfl⟩ | ⟨hb, hissue⟩⟩ | ⟨_, rfl⟩
  · exact stay rfl
  · exact stay rfl
  · have hidle := hinv.idle_of_not_busy hb
    rcases issue_cases (by rw [hidle]; decide) hissue with ⟨hop, hlen, rfl⟩ | ⟨hop, rfl⟩ | ⟨_, hxact, rfl⟩
    · exact .start ha hidle hop hlen rfl
    · exact .wait ha hidle (fun hx => absurd (hop.symm.trans hx.1) (by decide)) rfl
    · exact .wait ha hidle (fun ⟨hx, hlen⟩ => hxact hx hlen) rfl
  · rcases hostWrite_effect (a := a) d s hp with heffect | ⟨i, _, _, _, e⟩
    · exact stay heffect.place
    · rw [e] at stay ⊢
      exact stay rfl

/-! ## The transmitter, the timebase and the receiver -/

theorem txAccept_moves {s : State} (hinv : Inv s) : Moves s .txAccept (txAccept s) := by
  obtain ⟨_, _, _, ⟨_, _, htx, _⟩, _⟩ := hinv
  by_cases hphase : s.phase = .tx
  · have hv := txValid_of_tx hphase (htx hphase)
    by_cases hpos : s.txpos = 19
    · rw [txAccept_last hv (txpos_succ_eq_iff.2 hpos)]
      split_ifs with hgap
      · exact .skipGap hphase hpos hgap (gapEnd_ends s _ _ _)
      · exact .sendLast hphase hpos hgap
    · rw [txAccept_next hv (mt txpos_succ_eq_iff.1 hpos)]
      exact .send hphase hpos
  · rw [txAccept_else (by simp [txValid, hphase])]
    exact .stay rfl (fun _ => hphase) Event.noConfusion

theorem tick_moves (s : State) : Moves s .tick (tick s) := by
  by_cases hgap : s.phase = .gap
  · rw [tick_gap hgap]
    split_ifs with hcnt
    · exact .endGap hgap hcnt (gapEnd_ends s s.txpos s.phase _)
    · exact .count (.inl ⟨hgap, hcnt⟩)
  · by_cases hrx : s.phase = .rx
    · rw [tick_rx hrx]
      split_ifs with hcnt
      · exact .endWindow hrx hcnt (completed_complete _ _)
      · exact .count (.inr ⟨hrx, hcnt⟩)
    · rw [tick_else hgap hrx]
      exact .stay rfl Event.noConfusion fun _ => ⟨hgap, hrx⟩

theorem reject_place (c : Cause) (f : List Byte) (s : State) : (reject c f s).place = s.place := by
  rw [reject_counts]
  rfl

/-- Acceptance in RX completes the transaction, and in TX and GAP the transaction goes on (R165). -/
theorem accept_moves {s u : State} (b : Byte) (h : u.place = s.place) : Moves s (.rxByte b) (accept u) := by
  by_cases hrx : u.phase = .rx
  · have e : accept u = xactOk { u with accepted := true, rxlen := BitVec.ofNat 16 u.clen } := if_pos hrx
    rw [e]
    exact .receive ((place_eq_iff.1 h).1.symm.trans hrx) rfl (completed_complete _ _)
  · have e : accept u = { u with accepted := true, rxlen := BitVec.ofNat 16 u.clen } := if_neg hrx
    rw [e]
    exact .stay h Event.noConfusion Event.noConfusion

theorem AsmEffect.moves {s t : State} (b : Byte) (h : AsmEffect s t) : Moves s (.rxByte b) t := by
  have stay : t.place = s.place → Moves s (.rxByte b) t := fun hk => .stay hk Event.noConfusion Event.noConfusion
  cases h with
  | move a => exact stay rfl
  | reject c f a => exact stay (reject_place c f s)
  | store i n b' a _ _ => exact stay rfl
  | storeReject u hu _ c f =>
    subst hu
    exact stay (reject_place c f _)
  | accept u hu _ _ =>
    subst hu
    exact accept_moves b rfl

theorem rxByte_moves {s : State} (b : Byte) (hinv : Inv s) : Moves s (.rxByte b) (rxByte b s) := by
  have ⟨hp, _, _, _, ⟨_, hclen, _⟩, _⟩ := hinv
  unfold rxByte
  split_ifs
  · exact (assemble_effect b s hp hclen).moves b
  · exact .stay rfl Event.noConfusion Event.noConfusion

theorem runEvent_moves {e : Event} {s t : State} (hinv : Inv s) (h : runEvent e s = .next t) : Moves s e t := by
  cases e with
  | hostWrite a d => exact hostWriteEvent_moves hinv h
  | hostRead a =>
    obtain ⟨r, n, rfl⟩ := hostReadEvent_cases h
    exact .stay rfl Event.noConfusion Event.noConfusion
  | rxByte b => cases h; exact rxByte_moves b hinv
  | txAccept => cases h; exact txAccept_moves hinv
  | tick => cases h; exact tick_moves s
  | retire => exact retire_moves hinv h
  | reset => cases h; exact .reset rfl

/-! ## The table of R150 -/

theorem cmdOp_eq_iff {d : Word} {op : Byte} : cmdOp d = op ↔ d.toNat % 256 = op.toNat := by
  rw [cmdOp, extractLsb'_zero_eq_ofNat, ← BitVec.toNat_inj, BitVec.toNat_ofNat]

/-- The rows of R150 that start from the end of a gap. -/
theorem GapEnds.rows {s t : State} (h : GapEnds s t) :
    (s.accepted = true ∧ t.phase = .idle ∧ t.code = .ok) ∨
    (s.accepted = false ∧ 0 < s.latTmo.toNat ∧ t.phase = .rx) ∨
    (s.accepted = false ∧ s.latTmo = 0 ∧ t.phase = .idle ∧ t.code = .timeout) := by
  cases h with
  | ok ha h => exact .inl ⟨ha, h.phase, h.code⟩
  | opens ha htmo pos => exact .inr (.inl ⟨ha, BitVec.toNat_pos_of_ne_zero htmo, rfl⟩)
  | timeout ha htmo h => exact .inr (.inr ⟨ha, htmo, h.phase, h.code⟩)

/-- Settles O38: each way an event moves PHASE is a row of the table, an issue or a Retire. -/
theorem phaseTable : Obligations.PhaseTable := by
  intro s t hinv hstep hne
  obtain ⟨_, ⟨hnil, hretire⟩ | ⟨e, rest, hi, hevent⟩⟩ := step_cases hstep
  · cases retire_moves hinv hretire with
    | stay h _ _ => exact absurd (place_eq_iff.1 h).1 hne
    | retire hrun h => exact .inr (.inl ⟨hrun, h, .inl hnil⟩)
  have hhead : s.input.head? = some e := by rw [hi]; rfl
  have offset : ∀ {a : Half}, a.toNat / 4 = 3 → a &&& 0xFFFC = 0x00C := fun ha =>
    (wordOffset_eq_iff (c := 0x00C) (by decide)).2 ha
  cases runEvent_moves (s := { s with input := rest }) hinv hevent with
  | stay h _ _ => exact absurd (place_eq_iff.1 h).1 hne
  | start ha hidle hop hlen h =>
    exact .inl ⟨_, _, rest, hi, offset ha, hidle, .inl ⟨cmdOp_eq_iff.1 hop, hlen, h⟩⟩
  | wait ha hidle hop h =>
    exact .inl ⟨_, _, rest, hi, offset ha, hidle, .inr ⟨fun ⟨hd, hlen⟩ => hop ⟨cmdOp_eq_iff.2 hd, hlen⟩, h⟩⟩
  | retire hrun h => exact .inr (.inl ⟨hrun, h, .inr hhead⟩)
  | send _ _ => exact absurd rfl hne
  | sendLast hphase hpos hgap =>
    exact .inr (.inr (.inl ⟨hhead, hphase, hpos, .inl ⟨BitVec.toNat_pos_of_ne_zero hgap, rfl⟩⟩))
  | skipGap hphase hpos hgap h =>
    refine .inr (.inr (.inl ⟨hhead, hphase, hpos, .inr ?_⟩))
    exact h.rows.imp (⟨hgap, ·⟩) (.imp (⟨hgap, ·⟩) (⟨hgap, ·⟩))
  | count _ => exact absurd rfl hne
  | endGap hphase hcnt h => exact .inr (.inr (.inr (.inl ⟨hhead, hphase, hcnt, h.rows⟩)))
  | endWindow hphase hcnt h => exact .inr (.inr (.inr (.inr (.inl ⟨hhead, hphase, hcnt, h.phase, h.code⟩))))
  | receive hphase ha h =>
    exact .inr (.inr (.inr (.inr (.inr (.inl ⟨_, rest, hi, hphase, ha, h.phase, h.code⟩)))))
  | reset h => exact .inr (.inr (.inr (.inr (.inr (.inr ⟨hhead, h⟩)))))

/-! ## The bound of R169 -/

/-- The Ticks that a transaction still needs once its last byte is sent. -/
def ticksLeft (s : State) : Nat :=
  match s.phase with
  | .gap => s.latGap.toNat - s.tcnt.toNat + s.latTmo.toNat
  | .rx => s.latTmo.toNat - s.tcnt.toNat
  | _ => s.latGap.toNat + s.latTmo.toNat

theorem ticksLeft_gap {s : State} (h : s.phase = .gap) :
    ticksLeft s = s.latGap.toNat - s.tcnt.toNat + s.latTmo.toNat := by
  rw [ticksLeft, h]

theorem ticksLeft_rx {s : State} (h : s.phase = .rx) : ticksLeft s = s.latTmo.toNat - s.tcnt.toNat := by
  rw [ticksLeft, h]

theorem ticksLeft_le (s : State) : ticksLeft s ≤ s.latGap.toNat + s.latTmo.toNat := by
  unfold ticksLeft
  split <;> omega

theorem ticksLeft_of_place {s t : State} (h : t.place = s.place) : ticksLeft t = ticksLeft s := by
  obtain ⟨hphase, _, htcnt, hgap, htmo, _⟩ := place_eq_iff.1 h
  rw [ticksLeft, ticksLeft, hphase, htcnt, hgap, htmo]

/-- After TX the counter is below its limit, so a Tick is still needed (R246). -/
theorem ticksLeft_pos {s : State} (hinv : Inv s) (h : s.phase = .gap ∨ s.phase = .rx) : 0 < ticksLeft s := by
  obtain ⟨_, _, _, ⟨_, _, _, hgap, hrx, _⟩, _⟩ := hinv
  rcases h with h | h
  · have := hgap h
    rw [ticksLeft_gap h]
    omega
  · have := (hrx h).1
    rw [ticksLeft_rx h]
    omega

/-- A transaction has completed, with one of its two codes (R155). -/
def Ended (t : State) : Prop := t.busy = false ∧ t.done = true ∧ (t.code = .ok ∨ t.code = .timeout)

theorem Completed.ended {c : Code} {t : State} (h : Completed c t) (hc : c = .ok ∨ c = .timeout) : Ended t :=
  ⟨h.busy, h.done, by rw [h.code]; exact hc⟩

/-- The transaction of `s` goes on in `t` after the event `e`: the limits stay, a TxAccept in TX counts one byte, and a
Tick after TX uses up one of the Ticks left. -/
structure Continues (s : State) (e : Event) (t : State) : Prop where
  trans : inTransaction t
  input : t.input = s.input
  latGap : t.latGap = s.latGap
  latTmo : t.latTmo = s.latTmo
  sent : t.phase = .tx → s.phase = .tx ∧ t.txpos.toNat = s.txpos.toNat + [e].count .txAccept
  ticks : s.phase ≠ .tx → ticksLeft t + [e].count .tick ≤ ticksLeft s

/-- A counter below a limit of its own width does not wrap (R246). -/
theorem toNat_succ_of_lt {n : Nat} {x l : BitVec n} (h : x.toNat < l.toNat) : (x + 1).toNat = x.toNat + 1 := by
  have hl := l.isLt
  have hone : (1 : BitVec n).toNat = 1 := Nat.mod_eq_of_lt (a := 1) (b := 2 ^ n) (by omega)
  rw [BitVec.toNat_add, hone]
  exact Nat.mod_eq_of_lt (by omega)

/-- A Tick that does not end the transaction uses up one of the Ticks left. -/
theorem ticksLeft_tick {s : State} (hinv : Inv s) (h : s.phase = .gap ∨ s.phase = .rx) :
    ticksLeft { s with tcnt := s.tcnt + 1 } + 1 ≤ ticksLeft s := by
  obtain ⟨_, _, _, ⟨_, _, _, hgap, hrx, _⟩, _⟩ := hinv
  rcases h with h | h
  · have hlt := hgap h
    have hsucc := toNat_succ_of_lt hlt
    rw [ticksLeft_gap h, ticksLeft_gap (s := { s with tcnt := s.tcnt + 1 }) h]
    dsimp only
    omega
  · obtain ⟨hlt, _⟩ := hrx h
    have hsucc := toNat_succ_of_lt hlt
    rw [ticksLeft_rx h, ticksLeft_rx (s := { s with tcnt := s.tcnt + 1 }) h]
    dsimp only
    omega

theorem continues_of_place {s t : State} {e : Event} (h : t.place = s.place) (htrans : inTransaction s)
    (hsend : e = .txAccept → s.phase ≠ .tx) (hcount : e = .tick → s.phase ≠ .gap ∧ s.phase ≠ .rx) :
    Continues s e t := by
  obtain ⟨hphase, hpos, _, hlatGap, hlatTmo, hinput⟩ := place_eq_iff.1 h
  refine ⟨by rwa [inTransaction, hphase], hinput, hlatGap, hlatTmo, fun ht => ?_, fun hs => ?_⟩
  · rw [hphase] at ht
    have hne : e ≠ .txAccept := fun he => hsend he ht
    exact ⟨ht, by simp [hpos, hne]⟩
  · have hne : e ≠ .tick := fun he => htrans.elim hs fun hp => hp.elim (hcount he).1 (hcount he).2
    simp [ticksLeft_of_place h, hne]

/-- The end of a gap ends the transaction or opens RX with its whole window (R156). -/
theorem GapEnds.ended_or_continues {s t : State} {e : Event} (h : GapEnds s t)
    (hleft : s.phase ≠ .tx → s.latTmo.toNat + [e].count .tick ≤ ticksLeft s) : Ended t ∨ Continues s e t := by
  cases h with
  | ok _ h => exact .inl (h.ended (.inl rfl))
  | opens _ _ pos => exact .inr ⟨.inr (.inr rfl), rfl, rfl, rfl, fun ht => Phase.noConfusion ht, hleft⟩
  | timeout _ _ h => exact .inl (h.ended (.inr rfl))

/-- Each event of a transaction but Reset ends it or brings it on. -/
theorem Moves.ended_or_continues {s t : State} {e : Event} (h : Moves s e t) (hinv : Inv s) (htrans : inTransaction s)
    (hreset : e ≠ .reset) : Ended t ∨ Continues s e t := by
  have ⟨_, _, _, ⟨_, _, htx, hgap, _⟩, _⟩ := hinv
  cases h with
  | stay h hsend hcount => exact .inr (continues_of_place h htrans hsend hcount)
  | start _ hidle _ _ _ => exact absurd htrans (by simp [inTransaction, hidle])
  | wait _ hidle _ _ => exact absurd htrans (by simp [inTransaction, hidle])
  | retire hrun _ => exact absurd htrans (by simp [inTransaction, hrun])
  | send hphase _ =>
    exact .inr ⟨htrans, rfl, rfl, rfl, fun _ => ⟨hphase, toNat_succ_of_lt (l := 20) (htx hphase)⟩,
      fun hs => absurd hphase hs⟩
  | sendLast hphase _ _ =>
    exact .inr ⟨.inr (.inl rfl), rfl, rfl, rfl, fun ht => Phase.noConfusion ht, fun hs => absurd hphase hs⟩
  | skipGap hphase _ _ h => exact h.ended_or_continues fun hs => absurd hphase hs
  | count h =>
    have hphase : s.phase = .gap ∨ s.phase = .rx := h.imp And.left And.left
    have hne : s.phase ≠ .tx := by rcases hphase with hp | hp <;> rw [hp] <;> decide
    exact .inr ⟨htrans, rfl, rfl, rfl, fun ht => absurd ht hne, fun _ => ticksLeft_tick hinv hphase⟩
  | endGap hphase _ h =>
    refine h.ended_or_continues fun _ => ?_
    have := hgap hphase
    rw [ticksLeft_gap hphase]
    show _ + 1 ≤ _
    omega
  | endWindow _ _ h => exact .inl (h.ended (.inr rfl))
  | receive _ _ h => exact .inl (h.ended (.inl rfl))
  | reset _ => exact absurd rfl hreset

/-- A step of a transaction that takes an event but Reset ends it or brings it on. -/
theorem transaction_step {s : State} {e : Event} {rest : List Event} (hinv : Inv s) (htrans : inTransaction s)
    (hi : s.input = e :: rest) (hreset : e ≠ .reset) :
    ∃ t, step s = .next t ∧ (Ended t ∨ (Inv t ∧ t.input = rest ∧ Continues { s with input := rest } e t)) := by
  have hp := hinv.sound.params
  obtain ⟨t, hevent, _⟩ := runEvent_goesOn e (s := { s with input := rest }) hp
  have hstep : step s = .next t := (step_cons hp hi).trans hevent
  have hmoves : Moves { s with input := rest } e t := runEvent_moves (s := { s with input := rest }) hinv hevent
  exact ⟨t, hstep, (hmoves.ended_or_continues hinv htrans hreset).imp_right fun hc =>
    ⟨stepKeepsInv s t hinv hstep, hc.input, hc⟩⟩

theorem run_cons {s t u : State} {k : Nat} (hstep : step s = .next t) (hrun : Sys2Proof.core.run k t = .next u) :
    Sys2Proof.core.run (k + 1) s = .next u :=
  (run_succ Sys2Proof.core k hstep).trans hrun

theorem run_one {s t : State} (hstep : step s = .next t) : Sys2Proof.core.run 1 s = .next t :=
  run_cons hstep rfl

theorem count_cons_eq (a e : Event) (l : List Event) : (e :: l).count a = [e].count a + l.count a :=
  List.count_append (l₁ := [e])

/-- After TX, as many Ticks as are left end the transaction (R156, R157). -/
theorem ends_within_ticksLeft (fs : List Event) : ∀ s : State, Inv s → s.phase = .gap ∨ s.phase = .rx → s.input = fs →
    .reset ∉ fs → ticksLeft s ≤ fs.count .tick →
    ∃ k t, k ≤ fs.length ∧ (fs.take k).count .tick ≤ ticksLeft s ∧ Sys2Proof.core.run k s = .next t ∧ Ended t := by
  induction fs with
  | nil =>
    intro s hinv hphase _ _ hcount
    have := ticksLeft_pos hinv hphase
    simp at hcount
    omega
  | cons e rest ih =>
    intro s hinv hphase hi hreset hcount
    have hpos := ticksLeft_pos hinv hphase
    obtain ⟨he, hrest⟩ : Event.reset ≠ e ∧ Event.reset ∉ rest := by simpa using hreset
    have htx : s.phase ≠ .tx := by rcases hphase with h | h <;> rw [h] <;> decide
    obtain ⟨t, hstep, hend | ⟨hinv', hi', hc⟩⟩ := transaction_step hinv (.inr hphase) hi he.symm
    · have hone : [e].count .tick ≤ 1 := List.count_le_length
      exact ⟨1, t, by simp, by simpa using hone.trans hpos, run_one hstep, hend⟩
    · have hticks : ticksLeft t + [e].count .tick ≤ ticksLeft s := hc.ticks htx
      have hphase' := hc.trans.resolve_left fun ht => htx (hc.sent ht).1
      rw [count_cons_eq] at hcount
      obtain ⟨k, u, hk, htake, hrun, hu⟩ := ih t hinv' hphase' hi' hrest (by omega)
      refine ⟨k + 1, u, by simpa using hk, ?_, run_cons hstep hrun, hu⟩
      rw [List.take_succ_cons, count_cons_eq]
      omega

/-- Settles O39: up to the last TxAccept the limits stay as they are, and after it the Ticks left are at most both
limits together. -/
theorem transactionEndsWithinItsTicks : Obligations.TransactionEndsWithinItsTicks := by
  intro s es fs
  induction es generalizing s with
  | nil =>
    intro hinv htrans hi hreset hsent hcount
    have ⟨_, _, _, ⟨_, _, htx, _⟩, _⟩ := hinv
    have hphase := htrans.resolve_left fun ht => absurd (hsent ht) (by simpa using htx ht)
    have hle := ticksLeft_le s
    obtain ⟨k, t, hk, htake, hrun, hend⟩ := ends_within_ticksLeft fs s hinv hphase hi hreset (hle.trans hcount)
    exact ⟨k, t, hk, htake.trans hle, hrun, hend⟩
  | cons e es ih =>
    intro hinv htrans hi hreset hsent hcount
    obtain ⟨he, hrest⟩ : Event.reset ≠ e ∧ Event.reset ∉ es ++ fs := by simpa using hreset
    obtain ⟨t, hstep, hend | ⟨hinv', hi', hc⟩⟩ := transaction_step hinv htrans hi he.symm
    · exact ⟨1, t, by simp, by simp, run_one hstep, hend⟩
    · have hlimits : t.latGap.toNat + t.latTmo.toNat = s.latGap.toNat + s.latTmo.toNat := by
        rw [hc.latGap, hc.latTmo]
      have hsent' : t.phase = .tx → 20 ≤ t.txpos.toNat + es.count .txAccept := fun ht => by
        obtain ⟨hs, hpos⟩ := hc.sent ht
        have hall := hsent hs
        rw [count_cons_eq] at hall
        change t.txpos.toNat = s.txpos.toNat + _ at hpos
        omega
      obtain ⟨k, u, hk, htake, hrun, hu⟩ := ih t hinv' hc.trans hi' hrest hsent' (hlimits ▸ hcount)
      refine ⟨k + 1, u, by simpa using hk, ?_, run_cons hstep hrun, hu⟩
      rw [List.length_cons, Nat.add_sub_add_right]
      exact htake.trans hlimits.le

end Sys2Proof.Machine
end

section
/-! PROOFS for spec/43_field_extract.md: EXTU and EXTS (R182 to R185), on the read of R181. -/

namespace Sys2Proof.Machine

/-! ## The latched operands and the completion by a fault (R184, R232) -/

theorem extOff_eq (s : State) : extOff s = s.latArg0.toNat % 65536 := by
  simp [extOff]

theorem extWid_eq (s : State) : extWid s = s.latArg1.toNat % 16 := by
  simp [extWid]

theorem extDiv_eq (s : State) : extDiv s = s.latArg1.toNat / 65536 := by
  have hfit : s.latArg1.toNat / 65536 < 65536 := by omega
  simp [extDiv, BitVec.extractLsb'_toNat, Nat.shiftRight_eq_div_pow, hfit]

theorem complete_eq_faulted {c : Code} (hc : c ≠ .ok) (s : State) : complete c s = faulted c s := by
  simp [complete, faulted, hc]

theorem extFault_eq_faulted {c : Code} (hc : c ≠ .ok) (off : Nat) (s : State) : extFault c off s = faulted c
    { s with res0 := 0, res1 := 0, res2 := 0, faultOff := BitVec.ofNat 16 off, faultPc := 0 } :=
  complete_eq_faulted hc _

/-! ## The order of the checks (R182) -/

theorem extract_unverified (sgn : Bool) {s : State} (hv : s.rxVerified = false) :
    extract sgn s = extFault .unverified (extOff s) s :=
  if_pos hv

theorem extract_badWidth (sgn : Bool) {s : State} (hv : s.rxVerified = true) (hw : extWid s = 0 ∨ 8 < extWid s) :
    extract sgn s = extFault .badWidth (extOff s) s := by
  rw [extract, if_neg (by simp [hv]), if_pos hw]

theorem extract_divZero (sgn : Bool) {s : State} (hv : s.rxVerified = true) (h1 : 1 ≤ extWid s) (h8 : extWid s ≤ 8)
    (hd : extDiv s = 0) : extract sgn s = extFault .divZero (extOff s) s := by
  rw [extract, if_neg (by simp [hv]), if_neg (by simp only [Config.maxDigits]; omega), if_pos hd]

/-- The checks on the operands alone, the first three of R182, find no fault. -/
structure OperandsPass (s : State) : Prop where
  verified : s.rxVerified = true
  one_le_wid : 1 ≤ extWid s
  wid_le : extWid s ≤ 8
  div_ne_zero : extDiv s ≠ 0

/-- Past the checks on the operands, a fault of the read is the command's fault. -/
theorem OperandsPass.extract_error {s : State} (h : OperandsPass s) {sgn : Bool} {c : Code}
    (hread : readField s (extOff s) (extWid s) sgn = .error c) : extract sgn s = extFault c (extOff s) s := by
  obtain ⟨hv, h1, h8, hd⟩ := h
  rw [extract, if_neg (by simp [hv]), if_neg (by simp only [Config.maxDigits]; omega), if_neg hd, hread]

/-- Past the checks on the operands, the value read gives the three results (R183, R184). -/
theorem OperandsPass.extract_ok {s : State} (h : OperandsPass s) {sgn : Bool} {v : Int}
    (hread : readField s (extOff s) (extWid s) sgn = .ok v) :
    extract sgn s = finished { s with res0 := word32 v, res1 := word32 (v.tdiv (extDiv s)),
                                      res2 := word32 (v.tmod (extDiv s)) } := by
  obtain ⟨hv, h1, h8, hd⟩ := h
  rw [extract, if_neg (by simp [hv]), if_neg (by simp only [Config.maxDigits]; omega), if_neg hd, hread,
    Int.tmod_def, mul_comm (extDiv s : Int)]
  exact complete_ok_eq_finished _

/-- A field of hex digits inside the hex view, under legal operands: the command completes OK. -/
theorem OperandsPass.extract_field {s : State} (h : OperandsPass s) (sgn : Bool)
    (hr : extOff s + extWid s ≤ s.rxlen.toNat - 2) (hx : hexAt s (extOff s) (extWid s)) :
    extract sgn s = finished { s with res0 := word32 (fieldAt s (extOff s) (extWid s) sgn),
                                      res1 := word32 ((fieldAt s (extOff s) (extWid s) sgn).tdiv (extDiv s)),
                                      res2 := word32 ((fieldAt s (extOff s) (extWid s) sgn).tmod (extDiv s)) } :=
  h.extract_ok (readField_ok sgn h.one_le_wid h.wid_le hr hx)

/-- EXTU and EXTS differ in the fold only. -/
theorem exec_ext {i : Instr} (hi : i = .extu ∨ i = .exts) (s : State) : ∃ sgn, exec i s = .next (extract sgn s) := by
  rcases hi with rfl | rfl
  · exact ⟨false, rfl⟩
  · exact ⟨true, rfl⟩

/-! ## The values (R181, R183, R186) -/

theorem fieldAt_unsigned (s : State) (o w : Nat) : fieldAt s o w false = (valueAt s o w : Int) := by
  simp [fieldAt]

/-- A signed field of `w` digits is a two's-complement number of 4w bits (R186). -/
theorem fieldAt_signed_bounds (s : State) (o : Nat) {w : Nat} (h1 : 1 ≤ w) :
    -(2 : Int) ^ (4 * w - 1) ≤ fieldAt s o w true ∧ fieldAt s o w true < (2 : Int) ^ (4 * w - 1) := by
  have hvalue : (valueAt s o w : Int) < 2 ^ (4 * w) := by exact_mod_cast valueAt_lt s o w
  have hhalf : (2 : Int) ^ (4 * w) = 2 * 2 ^ (4 * w - 1) := by rw [← pow_succ', Nat.sub_add_cancel (by omega)]
  unfold fieldAt
  split_ifs with hfold
  · have hsign : (2 : Int) ^ (4 * w - 1) ≤ valueAt s o w := by exact_mod_cast hfold.2
    omega
  · have hsign : (valueAt s o w : Int) < 2 ^ (4 * w - 1) := by exact_mod_cast Nat.not_le.1 fun h => hfold ⟨rfl, h⟩
    omega

theorem abs_tmod_lt (v : Int) {d : Nat} (hd : d ≠ 0) : |v.tmod d| < d := by
  have hpos : (0 : Int) < d := by omega
  exact abs_lt.2 ⟨Int.lt_tmod_of_pos v hpos, Int.tmod_lt_of_pos v hpos⟩

theorem tmod_nonpos {v : Int} (d : Int) (hv : v ≤ 0) : v.tmod d ≤ 0 := by
  have hneg : 0 ≤ (-v).tmod d := Int.tmod_nonneg d (by omega)
  rw [Int.neg_tmod] at hneg
  omega

/-! ## The three statements -/

/-- Settles O40: of an unsigned value the truncated division is the division of natural numbers. -/
theorem extuResult : Obligations.ExtuResult := by
  unfold Obligations.ExtuResult
  intro s
  simp only [← extOff_eq s, ← extWid_eq s, ← extDiv_eq s]
  intro hv h1 h8 hd hr hx
  refine ⟨valueAt s (extOff s) (extWid s) / extDiv s, valueAt s (extOff s) (extWid s) % extDiv s,
    (Nat.div_add_mod' _ _).symm, Nat.mod_lt _ (Nat.pos_of_ne_zero hd), ?_⟩
  have hdone := OperandsPass.extract_field ⟨hv, h1, h8, hd⟩ false hr hx
  simp only [fieldAt_unsigned, ← Int.ofNat_tdiv, ← Int.ofNat_tmod, word32, BitVec.ofInt_natCast] at hdone
  exact congrArg Host.Outcome.next hdone

/-- Settles O41: truncated division gives a remainder with the sign of the value. -/
theorem extsResult : Obligations.ExtsResult := by
  unfold Obligations.ExtsResult
  intro s
  simp only [← extOff_eq s, ← extWid_eq s, ← extDiv_eq s]
  intro hv h1 h8 hd hr hx
  obtain ⟨hlow, hhigh⟩ := fieldAt_signed_bounds s (extOff s) h1
  exact ⟨_, _, (Int.tdiv_mul_add_tmod _ _).symm, abs_tmod_lt _ hd, Int.tmod_nonneg _, tmod_nonpos _, hlow, hhigh,
    congrArg Host.Outcome.next (OperandsPass.extract_field ⟨hv, h1, h8, hd⟩ true hr hx)⟩

/-- Settles O42: each clause fails one check and passes those before it. -/
theorem extFaultOrder : Obligations.ExtFaultOrder := by
  unfold Obligations.ExtFaultOrder
  intro s i hi
  simp only [← extOff_eq s, ← extWid_eq s, ← extDiv_eq s]
  obtain ⟨sgn, hexec⟩ := exec_ext hi s
  have faults : ∀ {c : Code}, c ≠ .ok → extract sgn s = extFault c (extOff s) s → exec i s = .next (faulted c
      { s with res0 := 0, res1 := 0, res2 := 0, faultOff := BitVec.ofNat 16 (extOff s), faultPc := 0 }) :=
    fun hc h => by rw [hexec, h, extFault_eq_faulted hc]
  refine ⟨fun hv => ?_, fun hv hw => ?_, fun hv h1 h8 hd => ?_, fun hv h1 h8 hd hr => ?_, fun hv h1 h8 hd hr hx => ?_⟩
  · exact faults (by decide) (extract_unverified sgn hv)
  · exact faults (by decide) (extract_badWidth sgn hv hw)
  · exact faults (by decide) (extract_divZero sgn hv h1 h8 hd)
  · exact faults (by decide) (OperandsPass.extract_error ⟨hv, h1, h8, hd⟩ (readField_range sgn h1 h8 hr))
  · exact faults (by decide) (OperandsPass.extract_error ⟨hv, h1, h8, hd⟩ (readField_notHex sgn h1 h8 hr hx))

end Sys2Proof.Machine
end

section
/-! PROOFS for spec/44_record_parser.md: PARSE and its descriptors (R200 to R213), and the two default programs on a
frame (R215 to R217). -/

namespace Sys2Proof.Machine

/-! ## The latched operands and the ends of a PARSE (R201, R203, R212) -/

theorem parseStart_eq (s : State) : parseStart s = s.latArg0.toNat % 65536 := by
  simp [parseStart]

theorem parseNom_eq (s : State) : parseNom s = s.latArg1.toNat % 65536 := by
  simp [parseNom]

@[simp] theorem pfault_pc (c : Code) (off : Nat) (s : State) : (pfault c off s).pc = 0 := rfl

@[simp] theorem finish_pc (s : State) : (finish s).pc = 0 := rfl

/-- LENWARN compares the length consumed with a nominal length that was given (R211). -/
theorem finish_lenWarn (s : State) :
    (finish s).lenWarn = decide (parseNom s ≠ 0 ∧ s.cur ≠ parseStart s + parseNom s) := rfl

theorem finish_eq_finished (s : State) : finish s = finished
    { s with nextOff := BitVec.ofNat 32 s.cur, nslot := BitVec.ofNat 16 s.ns, cnt0 := s.c0, cnt1 := s.c1,
             lenWarn := (finish s).lenWarn, pc := 0, cur := 0, ns := 0 } :=
  complete_ok_eq_finished _

theorem exec_parse_verified {s : State} (hv : s.rxVerified = true) (didx : BitVec 7) :
    exec (.parse didx) s = .next (parseFrom (parseInit didx s)) :=
  congrArg Host.Outcome.next (if_pos hv)

theorem exec_parse_unverified {s : State} (hv : s.rxVerified = false) (didx : BitVec 7) :
    exec (.parse didx) s = .next (pfault .unverified (parseStart s) (parseInit didx s)) :=
  congrArg Host.Outcome.next (if_neg (by simp [hv]))

/-! ## PARSE, END and the reserved kinds -/

/-- Settles O7: a pass that goes on is at the next descriptor, so a pc of 0 tells the passes that completed. -/
theorem parseRunsEachDescriptor : Obligations.ParseRunsEachDescriptor := by
  unfold Obligations.ParseRunsEachDescriptor
  refine ⟨fun s didx hv => ?_, fun s t hpc hexec => ?_, fun s _ => ⟨_, exec_decodeDesc _ s⟩, fun s hpc => ?_⟩
  · rw [exec_parse_verified hv, parseInit, parseStart_eq]
  · rw [exec_decodeDesc] at hexec
    obtain rfl := Host.Outcome.next.inj hexec
    have hpass := descStep_pass (layoutRead s s.pc) s
    generalize hstep : descStep (layoutRead s s.pc) s = pass at hpass
    cases hpass with
    | more t _ hnext =>
      rw [parseFrom_more hpc hstep hnext]
      exact (if_neg (by show t.pc ≠ 0; omega)).symm
    | fault c u _ _ _ => exact (parseFrom_stop hpc hstep).trans (if_pos (pfault_pc c u.cur u)).symm
    | done => exact (parseFrom_stop hpc hstep).trans (if_pos (finish_pc s)).symm
  · rw [parseFrom, Nat.sub_eq_zero_of_le hpc, parseLoop, pfault_eq (by decide)]

/-- Settles O50: the interpreter has been set to START and DIDX before the check. -/
theorem parseNeedsAVerifiedFrame : Obligations.ParseNeedsAVerifiedFrame := by
  unfold Obligations.ParseNeedsAVerifiedFrame
  intro s didx hv
  rw [exec_parse_unverified hv, pfault_eq (by decide), parseInit, parseStart_eq]

/-- Settles O47: the length consumed differs from NOM exactly where the cursor is not at START + NOM. -/
theorem endFinishesTheRecord : Obligations.EndFinishesTheRecord := by
  unfold Obligations.EndFinishesTheRecord
  intro s start nom
  have hwarn : (finish s).lenWarn = decide (nom ≠ 0 ∧ (s.cur : Int) - start ≠ nom) := by
    rw [finish_lenWarn, parseNom_eq, parseStart_eq]
    exact decide_eq_decide.2 (and_congr_right fun _ => by omega)
  rw [← hwarn]
  exact congrArg Host.Outcome.next (finish_eq_finished s)

/-- KIND is the low three bits of a descriptor's second byte (R104). -/
theorem descKind_toNat (d : Word) : (descKind d).toNat = d.toNat / 256 % 8 := by
  simp [descKind, BitVec.extractLsb'_toNat, Nat.shiftRight_eq_div_pow]

theorem exec_reserved_descriptor {d : Word} {i : Instr} (row : DescRow d i) (hkind : 5 ≤ (descKind d).toNat) (s : State) :
    exec i s = .next (pfault .badDesc s.cur s) := by
  cases row with
  | badDesc5 => rfl
  | badDesc67 => rfl
  | _ h => simp [h] at hkind

/-- Settles O48: the two rows by their meaning, the words by the row that the decoder gives them. -/
theorem reservedKindsFault : Obligations.ReservedKindsFault := by
  unfold Obligations.ReservedKindsFault
  have hfault : ∀ s : State, pfault .badDesc s.cur s = parseFaulted .badDesc s.cur s := fun s => pfault_eq (by decide) _ s
  refine ⟨fun s => ?_, fun s kind => ?_, fun w s hkind => ?_⟩
  · exact congrArg Host.Outcome.next (hfault s)
  · exact congrArg Host.Outcome.next (hfault s)
  · rw [exec_reserved_descriptor (descRow_decodeDesc w) (by rwa [descKind_toNat]), hfault]

/-! ## A descriptor's meaning is the state that its pass leaves (log 8) -/

theorem exec_val {wid : BitVec 4} {sgn : Bool} {dsel : BitVec 2} {add1 : Bool} {fid : Byte} {s : State} {pass : Cont}
    (h : stepVal wid sgn dsel add1 fid s = pass) : exec (.val wid sgn dsel add1 fid) s = .next pass.state :=
  h ▸ rfl

theorem exec_cnt {wid : BitVec 4} {csel : Bool} {fid : Byte} {s : State} {pass : Cont}
    (h : stepCnt wid csel fid s = pass) : exec (.cnt wid csel fid) s = .next pass.state :=
  h ▸ rfl

theorem exec_rep {wid : BitVec 4} {sgn : Bool} {dsel : BitVec 2} {add1 csel : Bool} {fid : Byte} {s : State}
    {pass : Cont} (h : stepRep wid sgn dsel add1 csel fid s = pass) :
    exec (.rep wid sgn dsel add1 csel fid) s = .next pass.state :=
  h ▸ rfl

theorem exec_opq {len : BitVec 12} {fid : Byte} {s : State} {pass : Cont} (h : stepOpq len fid s = pass) :
    exec (.opq len fid) s = .next pass.state :=
  h ▸ rfl

/-! ## The descriptors that write one slot (R202) -/

/-- The state after a descriptor that writes one slot and moves the cursor over `adv` digits. -/
def slotTaken (v tag : Word) (adv : Nat) (s : State) : State :=
  { s with fval := Memory.insert s.fval s.ns v, ftag := Memory.insert s.ftag s.ns tag, ns := s.ns + 1,
           cur := s.cur + adv, pc := s.pc + 1 }

theorem advance_emit {s : State} (v tag : Word) (adv : Nat) (hn : s.ns < 1024) :
    advance (emit v tag adv s) = .more (slotTaken v tag adv s) := by
  rw [emit_more _ _ _ hn]
  rfl

theorem fvalRead_slotTaken (v tag : Word) (adv : Nat) (s : State) (i : Nat) :
    fvalRead (slotTaken v tag adv s) i = if i = s.ns then v else fvalRead s i :=
  fvalRead_insert s s.ns i v

theorem ftagRead_slotTaken (v tag : Word) (adv : Nat) (s : State) (i : Nat) :
    ftagRead (slotTaken v tag adv s) i = if i = s.ns then tag else ftagRead s i :=
  ftagRead_insert s s.ns i tag

/-- An unsigned field is its value (R10, R181). -/
theorem word32_fieldAt_unsigned (s : State) (o w : Nat) :
    word32 (fieldAt s o w false) = BitVec.ofNat 32 (valueAt s o w) := by
  rw [fieldAt_unsigned, word32, BitVec.ofInt_natCast]

/-- Settles O43: the field is read and the slot emitted. -/
theorem valWritesASlot : Obligations.ValWritesASlot := by
  unfold Obligations.ValWritesASlot
  intro s wid sgn dsel add1 fid h1 h8 hr hx hn
  have hstep : stepVal wid sgn dsel add1 fid s = .more (slotTaken (word32 (fieldAt s s.cur wid.toNat sgn + addOne add1))
      (tagValue fid s.pc sgn dsel 1 0) wid.toNat s) := by
    rw [stepVal, takeField, readField_ok sgn h1 h8 hr hx, tagWord_eq_tagValue]
    exact advance_emit _ _ _ hn
  refine ⟨_, exec_val hstep, rfl, ?_, ?_⟩
  · exact fvalRead_slotTaken _ _ _ s
  · exact ftagRead_slotTaken _ _ _ s

/-- CNT's count register, in the form of the statements. -/
theorem setCount_eq (csel : Bool) (v : Word) (s : State) :
    setCount csel v s = { s with c0 := if csel then s.c0 else v, c1 := if csel then v else s.c1 } := by
  cases csel <;> rfl

/-- A CNT whose field is read writes the count register first, then emits the slot (R205). -/
theorem stepCnt_read {s : State} {wid : BitVec 4} (csel : Bool) (fid : Byte) (h1 : 1 ≤ wid.toNat) (h8 : wid.toNat ≤ 8)
    (hr : s.cur + wid.toNat ≤ s.rxlen.toNat - 2) (hx : hexAt s s.cur wid.toNat) :
    stepCnt wid csel fid s =
      advance (emit (BitVec.ofNat 32 (valueAt s s.cur wid.toNat)) (tagValue fid s.pc false 0 2 0) wid.toNat
        (setCount csel (BitVec.ofNat 32 (valueAt s s.cur wid.toNat)) s)) := by
  rw [stepCnt, readField_ok false h1 h8 hr hx, ← word32_fieldAt_unsigned, tagWord_eq_tagValue]
  rfl

/-- Settles O44: the slot is emitted from the state that has the count register written. -/
theorem cntReadsACount : Obligations.CntReadsACount := by
  unfold Obligations.CntReadsACount
  intro s wid csel fid h1 h8 hr hx hn v
  have hstep : stepCnt wid csel fid s =
      .more (slotTaken v (tagValue fid s.pc false 0 2 0) wid.toNat (setCount csel v s)) := by
    rw [stepCnt_read csel fid h1 h8 hr hx, setCount_eq]
    exact advance_emit _ _ _ hn
  rw [setCount_eq] at hstep
  refine ⟨_, exec_cnt hstep, rfl, ?_, ?_⟩
  · exact fvalRead_slotTaken _ _ _ _
  · exact ftagRead_slotTaken _ _ _ _

/-- Settles O46: the span is checked against HXLEN and the slot emitted, with no digit read. -/
theorem opqSkipsASpan : Obligations.OpqSkipsASpan := by
  unfold Obligations.OpqSkipsASpan
  intro s len fid hr hn
  have hstep : stepOpq len fid s =
      .more (slotTaken (BitVec.ofNat 32 s.cur) (tagValue fid s.pc false 0 4 0) len.toNat s) := by
    rw [stepOpq, if_neg (by simp only [hxLen]; omega), tagWord_eq_tagValue]
    exact advance_emit _ _ _ hn
  refine ⟨_, exec_opq hstep, rfl, ?_, ?_⟩
  · exact fvalRead_slotTaken _ _ _ s
  · exact ftagRead_slotTaken _ _ _ s

/-! ## REP (R206) -/

/-- A REP with a legal width runs as many elements as its count register says. -/
theorem stepRep_run {wid : BitVec 4} (sgn : Bool) (dsel : BitVec 2) (add1 csel : Bool) (fid : Byte) (s : State)
    (h1 : 1 ≤ wid.toNat) (h8 : wid.toNat ≤ 8) : stepRep wid sgn dsel add1 csel fid s =
      advance (repLoop wid sgn dsel add1 fid (if csel then s.c1 else s.c0).toNat 0 s) := by
  rw [stepRep, if_neg (by simp only [Config.maxDigits]; omega)]
  rfl

/-- `u` is `s` after `k` elements of a REP run: one slot and one field's width each, element 0 at the cursor (R206). -/
structure RunWritten (s : State) (w : Nat) (sgn : Bool) (dsel : BitVec 2) (add1 : Bool) (fid : Byte) (k : Nat)
    (u : State) : Prop where
  frame : u = { s with fval := u.fval, ftag := u.ftag, ns := s.ns + k, cur := s.cur + k * w }
  slots : ∀ e, e < k → fvalRead u (s.ns + e) = BitVec.ofInt 32 (fieldAt s (s.cur + e * w) w sgn + addOne add1) ∧
    ftagRead u (s.ns + e) = tagValue fid s.pc sgn dsel 3 e
  kept : ∀ i, i < s.ns ∨ s.ns + k ≤ i → fvalRead u i = fvalRead s i ∧ ftagRead u i = ftagRead s i

/-- The first `k` elements of a run of `k + n`, where their fields are readable and have free slots. -/
theorem repLoop_written (wid : BitVec 4) (sgn : Bool) (dsel : BitVec 2) (add1 : Bool) (fid : Byte) (s : State) (k n : Nat)
    (h1 : 1 ≤ wid.toNat) (h8 : wid.toNat ≤ 8) (hr : k ≠ 0 → s.cur + k * wid.toNat ≤ s.rxlen.toNat - 2)
    (hx : hexAt s s.cur (k * wid.toNat)) (hn : s.ns + k ≤ 1024) :
    ∃ u, repLoop wid sgn dsel add1 fid (k + n) 0 s = repLoop wid sgn dsel add1 fid n k u ∧
      RunWritten s wid.toNat sgn dsel add1 fid k u := by
  obtain ⟨u, hrun, hframe, hslots, hkept⟩ := repLoop_prefix wid sgn dsel add1 fid h1 h8 k n 0 s hr hx hn
  rw [Nat.zero_add] at hrun
  refine ⟨u, hrun, hframe, fun e he => ?_, hkept⟩
  obtain ⟨hval, htag⟩ := hslots e he
  rw [tagWord_eq_tagValue, Nat.zero_add] at htag
  exact ⟨hval, htag⟩

/-- Settles O45: the first `n` elements of a run of `n` are the whole run. -/
theorem repReadsARun : Obligations.RepReadsARun := by
  unfold Obligations.RepReadsARun
  intro s wid sgn dsel add1 csel fid n h1 h8 hr hx hn
  obtain ⟨u, hrun, hframe, hslots, hkept⟩ := repLoop_written wid sgn dsel add1 fid s n 0 h1 h8 hr hx hn
  have hstep : stepRep wid sgn dsel add1 csel fid s = .more { u with pc := s.pc + 1 } := by
    rw [stepRep_run _ _ _ _ _ s h1 h8]
    refine (congrArg advance hrun).trans ?_
    rw [repLoop, advance, hframe]
  exact ⟨{ u with pc := s.pc + 1 }, exec_rep hstep, by rw [hframe], hslots, hkept⟩

/-! ## Faults of the descriptors (R234) -/

/-- The `w`-digit read at `o` faults with the code `c`: the order of R181. -/
inductive ReadFault (s : State) (o w : Nat) : Code → Prop where
  | badWidth (h : w = 0 ∨ 8 < w) : ReadFault s o w .badWidth
  | range (h1 : 1 ≤ w) (h8 : w ≤ 8) (h : s.rxlen.toNat - 2 < o + w) : ReadFault s o w .range
  | notHex (h1 : 1 ≤ w) (h8 : w ≤ 8) (hr : o + w ≤ s.rxlen.toNat - 2) (h : ¬hexAt s o w) : ReadFault s o w .notHex

theorem ReadFault.ne_ok {s : State} {o w : Nat} {c : Code} (h : ReadFault s o w c) : c ≠ .ok := by
  cases h <;> decide

theorem ReadFault.readField {s : State} {o w : Nat} {c : Code} (h : ReadFault s o w c) (sgn : Bool) :
    readField s o w sgn = .error c := by
  cases h with
  | badWidth h => exact readField_badWidth sgn h
  | range h1 h8 h => exact readField_range sgn h1 h8 h
  | notHex h1 h8 hr h => exact readField_notHex sgn h1 h8 hr h

/-- A VAL or REP field whose read faults stops the PARSE at the cursor. -/
theorem ReadFault.takeField {s : State} {wid : BitVec 4} {c : Code} (h : ReadFault s s.cur wid.toNat c) (sgn add1 : Bool)
    (tag : Word) : takeField wid sgn add1 tag s = .stop (parseFaulted c s.cur s) := by
  rw [Machine.takeField, h.readField, ← pfault_eq h.ne_ok]

/-- A VAL or REP field that is read while every slot is taken stops the PARSE at the cursor. -/
theorem takeField_full {s : State} {wid : BitVec 4} (sgn add1 : Bool) (tag : Word) (h1 : 1 ≤ wid.toNat)
    (h8 : wid.toNat ≤ 8) (hr : s.cur + wid.toNat ≤ s.rxlen.toNat - 2) (hx : hexAt s s.cur wid.toNat)
    (hfull : 1024 ≤ s.ns) : takeField wid sgn add1 tag s = .stop (parseFaulted .slotOvf s.cur s) := by
  rw [takeField, readField_ok sgn h1 h8 hr hx, ← pfault_eq (by decide)]
  exact emit_full _ _ _ hfull

/-- The fault of a VAL's field is the VAL's (R204). -/
theorem exec_val_stop {s t : State} {wid : BitVec 4} {sgn : Bool} {dsel : BitVec 2} {add1 : Bool} {fid : Byte}
    (h : takeField wid sgn add1 (tagWord fid s.pc sgn dsel 1 0) s = .stop t) :
    exec (.val wid sgn dsel add1 fid) s = .next t :=
  exec_val (pass := .stop t) (by rw [stepVal, h]; rfl)

/-- The fault of a REP's element ends its run; the elements left are not read (R206). -/
theorem repLoop_stop {s t : State} {wid : BitVec 4} {sgn : Bool} {dsel : BitVec 2} {add1 : Bool} {fid : Byte} {e n : Nat}
    (hn : n ≠ 0) (h : takeField wid sgn add1 (tagWord fid s.pc sgn dsel 3 e) s = .stop t) :
    repLoop wid sgn dsel add1 fid n e s = .stop t := by
  obtain ⟨m, rfl⟩ := Nat.exists_eq_succ_of_ne_zero hn
  rw [repLoop, h]

/-- The fault of a REP's run is the REP's (R206). -/
theorem exec_rep_stop {s t : State} {wid : BitVec 4} {sgn : Bool} {dsel : BitVec 2} {add1 csel : Bool} {fid : Byte}
    (h1 : 1 ≤ wid.toNat) (h8 : wid.toNat ≤ 8)
    (h : repLoop wid sgn dsel add1 fid (if csel then s.c1 else s.c0).toNat 0 s = .stop t) :
    exec (.rep wid sgn dsel add1 csel fid) s = .next t :=
  exec_rep (pass := .stop t) (by rw [stepRep_run _ _ _ _ _ s h1 h8, h]; rfl)

/-- The width of a REP is checked even where its count is 0 (R206). -/
theorem exec_rep_badWidth {wid : BitVec 4} (sgn : Bool) (dsel : BitVec 2) (add1 csel : Bool) (fid : Byte) (s : State)
    (h : wid.toNat = 0 ∨ 8 < wid.toNat) :
    exec (.rep wid sgn dsel add1 csel fid) s = .next (parseFaulted .badWidth s.cur s) :=
  exec_rep (pass := .stop (parseFaulted .badWidth s.cur s)) (by rw [stepRep, if_pos h, pfault_eq (by decide)])

theorem ReadFault.exec_cnt {s : State} {wid : BitVec 4} {c : Code} (h : ReadFault s s.cur wid.toNat c) (csel : Bool)
    (fid : Byte) : exec (.cnt wid csel fid) s = .next (parseFaulted c s.cur s) :=
  Machine.exec_cnt (pass := .stop (parseFaulted c s.cur s)) (by rw [stepCnt, h.readField, ← pfault_eq h.ne_ok])

/-- A REP with elements whose first read faults. -/
theorem ReadFault.exec_rep {s : State} {wid : BitVec 4} {c : Code} (h : ReadFault s s.cur wid.toNat c) (sgn : Bool)
    (dsel : BitVec 2) (add1 csel : Bool) (fid : Byte) (hn : (if csel then s.c1 else s.c0).toNat ≠ 0) :
    exec (.rep wid sgn dsel add1 csel fid) s = .next (parseFaulted c s.cur s) := by
  by_cases hw : 1 ≤ wid.toNat ∧ wid.toNat ≤ 8
  · exact exec_rep_stop hw.1 hw.2 (repLoop_stop hn (h.takeField sgn add1 _))
  · cases h with
    | badWidth hbad => exact exec_rep_badWidth sgn dsel add1 csel fid s hbad
    | range h1 h8 => exact absurd ⟨h1, h8⟩ hw
    | notHex h1 h8 => exact absurd ⟨h1, h8⟩ hw

/-- A CNT that is read while every slot is taken has written its count register (R205). -/
theorem exec_cnt_full {s : State} {wid : BitVec 4} (csel : Bool) (fid : Byte) (h1 : 1 ≤ wid.toNat) (h8 : wid.toNat ≤ 8)
    (hr : s.cur + wid.toNat ≤ s.rxlen.toNat - 2) (hx : hexAt s s.cur wid.toNat) (hfull : 1024 ≤ s.ns) :
    exec (.cnt wid csel fid) s = .next (parseFaulted .slotOvf s.cur
      { s with c0 := if csel then s.c0 else BitVec.ofNat 32 (valueAt s s.cur wid.toNat),
               c1 := if csel then BitVec.ofNat 32 (valueAt s s.cur wid.toNat) else s.c1 }) := by
  have hstep := stepCnt_read csel fid h1 h8 hr hx
  rw [setCount_eq, emit_full _ _ _ (by exact hfull), pfault_eq (by decide)] at hstep
  exact exec_cnt hstep

theorem hexAt_congr {s t : State} (hb : t.rxbuf = s.rxbuf) (hs : t.rxSeed = s.rxSeed) (o n : Nat) :
    hexAt t o n ↔ hexAt s o n := by
  rw [hexAt, hexAt, funext (hx_congr hb hs)]

/-- A REP whose element `k` stops the run from the state `u` of the elements before it (R206). -/
theorem exec_rep_element {s : State} {wid : BitVec 4} {sgn : Bool} {dsel : BitVec 2} {add1 csel : Bool} {fid : Byte}
    {k : Nat} {c : Code} (hk : k < (if csel then s.c1 else s.c0).toNat) (h1 : 1 ≤ wid.toNat) (h8 : wid.toNat ≤ 8)
    (hr : k ≠ 0 → s.cur + k * wid.toNat ≤ s.rxlen.toNat - 2) (hx : hexAt s s.cur (k * wid.toNat)) (hn : s.ns + k ≤ 1024)
    (hstop : ∀ u : State,
      u = { s with fval := u.fval, ftag := u.ftag, ns := s.ns + k, cur := s.cur + k * wid.toNat } →
      takeField wid sgn add1 (tagWord fid u.pc sgn dsel 3 k) u = .stop (parseFaulted c u.cur u)) :
    ∃ u : State, exec (.rep wid sgn dsel add1 csel fid) s = .next (parseFaulted c (s.cur + k * wid.toNat) u) ∧
      RunWritten s wid.toNat sgn dsel add1 fid k u := by
  obtain ⟨left, hleft⟩ := Nat.exists_eq_add_of_lt hk
  obtain ⟨u, hrun, hw⟩ := repLoop_written wid sgn dsel add1 fid s k (left + 1) h1 h8 hr hx hn
  rw [← Nat.add_assoc, ← hleft, repLoop_stop (Nat.succ_ne_zero left) (hstop u hw.frame)] at hrun
  have hcur : u.cur = s.cur + k * wid.toNat := by rw [hw.frame]
  exact ⟨u, by rw [exec_rep_stop h1 h8 hrun, hcur], hw⟩

/-- Settles O49: each clause is one fault of the read, or a full slot memory after it. -/
theorem descriptorFaults : Obligations.DescriptorFaults := by
  unfold Obligations.DescriptorFaults
  intro s wid sgn dsel add1 csel len fid w n fits field
  have read_faults : ∀ {i c}, field i → ReadFault s s.cur w c → exec i s = .next (parseFaulted c s.cur s) := by
    intro i c hi hfault
    rcases hi with rfl | rfl | ⟨rfl, hn⟩
    · exact exec_val_stop (hfault.takeField sgn add1 _)
    · exact hfault.exec_cnt csel fid
    · exact hfault.exec_rep sgn dsel add1 csel fid hn
  refine ⟨fun i hi hw => ?_, fun i hi h1 h8 hout => ?_, fun i hi h1 h8 hr hx => ?_, fun i hi hcnt h1 h8 hr hx hfull => ?_,
    exec_cnt_full csel fid, fun k hk h1 h8 hr hx hn => ?_, fun hout => ?_, fun hr hfull => ?_⟩
  · rcases hi with hi | rfl
    · exact read_faults hi (.badWidth hw)
    · exact exec_rep_badWidth sgn dsel add1 csel fid s hw
  · exact read_faults hi (.range h1 h8 (Nat.not_le.1 hout))
  · exact read_faults hi (.notHex h1 h8 hr hx)
  · rcases hi with rfl | rfl | ⟨rfl, hn⟩
    · exact exec_val_stop (takeField_full sgn add1 _ h1 h8 hr hx hfull)
    · exact absurd rfl hcnt
    · exact exec_rep_stop h1 h8 (repLoop_stop hn (takeField_full sgn add1 _ h1 h8 hr hx hfull))
  · intro o c hc
    refine (exec_rep_element hk h1 h8 hr hx hn fun u hframe => ?_).imp
      fun u ⟨hexec, hw⟩ => ⟨hexec, hw.frame, hw.slots, hw.kept⟩
    have hcur : u.cur = o := by rw [hframe]
    have hns : u.ns = s.ns + k := by rw [hframe]
    have hlen : u.rxlen = s.rxlen := by rw [hframe]
    have hhex : hexAt u u.cur w ↔ hexAt s o w := by
      rw [hcur]
      exact hexAt_congr (by rw [hframe]) (by rw [hframe]) o w
    rcases hc with ⟨rfl, hout⟩ | ⟨rfl, hin, hbad⟩ | ⟨rfl, hin, hgood, hfull⟩
    · exact (ReadFault.range h1 h8 (by rwa [hlen, hcur])).takeField sgn add1 _
    · exact (ReadFault.notHex h1 h8 (by rwa [hlen, hcur]) (by rwa [hhex])).takeField sgn add1 _
    · exact takeField_full sgn add1 _ h1 h8 (by rwa [hlen, hcur]) (hhex.2 hgood) (by omega)
  · exact exec_opq (pass := .stop (parseFaulted .range s.cur s)) (by
      rw [stepOpq, if_pos (by exact hout), pfault_eq (by decide)])
  · exact exec_opq (pass := .stop (parseFaulted .slotOvf s.cur s)) (by
      rw [stepOpq, if_neg (by simp only [hxLen]; omega), emit_full _ _ _ hfull, pfault_eq (by decide), advance])

/-! ## The default programs (R214 to R216): runs of VALs, and a count with its run -/

/-- Part of a span of hex digits is hex digits. -/
theorem hexAt_sub {s : State} {o n p m : Nat} (h : hexAt s o n) (hlow : o ≤ p) (hhigh : p + m ≤ o + n) :
    hexAt s p m := by
  intro k hk
  have hdigit := h (p - o + k) (by omega)
  rwa [show o + (p - o + k) = p + k by omega] at hdigit

/-- The entries `a` to `b - 1` of LAYOUT hold what Reset gave them (R214). -/
def DefaultEntries (s : State) (a b : Nat) : Prop := ∀ i, a ≤ i → i < b → layoutRead s i = defaultLayout i

/-- The descriptor is a VAL of a legal width. -/
abbrev LegalVal (d : Word) : Prop := (descKind d).toNat = 1 ∧ 1 ≤ (descWid d).toNat ∧ (descWid d).toNat ≤ 8

/-- The digits that the `n` default VALs from entry `pc` read together. -/
def valDigits (pc n : Nat) : Nat := ∑ i ∈ Finset.range n, (descWid (defaultLayout (pc + i))).toNat

theorem valDigits_succ (pc n : Nat) :
    valDigits pc (n + 1) = valDigits pc n + (descWid (defaultLayout (pc + n))).toNat :=
  Finset.sum_range_succ _ n

/-- The slot of an unsigned field without ADD1 holds its value (R204). -/
theorem word32_unsigned_field (s : State) (o w : Nat) :
    word32 (fieldAt s o w false + addOne false) = BitVec.ofNat 32 (valueAt s o w) :=
  (congrArg word32 (Int.add_zero _)).trans (word32_fieldAt_unsigned s o w)

/-- The slot of an unsigned field with ADD1 holds one more than its value (R204). -/
theorem word32_unsigned_field_add1 (s : State) (o w : Nat) :
    word32 (fieldAt s o w false + addOne true) = BitVec.ofNat 32 (valueAt s o w + 1) := by
  rw [fieldAt_unsigned, word32, ← BitVec.ofInt_natCast]
  rfl

/-- The chain over `n` default VALs (R204): each next slot holds the next field. -/
theorem ParsedTo.vals {s0 s : State} {pc cur ns : Nat} {c0 c1 : Word} (h : ParsedTo s0 s pc cur ns c0 c1) (n : Nat)
    (hl : DefaultEntries s0 pc (pc + n)) (hv : ∀ i, i < n → LegalVal (defaultLayout (pc + i))) (hp : pc + n ≤ 128)
    (hr : cur + valDigits pc n ≤ s0.rxlen.toNat - 2) (hx : Machine.hexAt s0 cur (valDigits pc n)) (hn : ns + n ≤ 1024) :
    ∃ t, ParsedTo s0 t (pc + n) (cur + valDigits pc n) (ns + n) c0 c1 ∧ (∀ i, i < ns → fvalRead t i = fvalRead s i) ∧
      ∀ i, i < n → fvalRead t (ns + i) =
        word32 (Machine.fieldAt s0 (cur + valDigits pc i) (descWid (defaultLayout (pc + i))).toNat
          (descSgn (defaultLayout (pc + i))) + addOne (descAdd1 (defaultLayout (pc + i)))) := by
  induction n with
  | zero => exact ⟨s, h, fun _ _ => rfl, fun i hi => absurd hi (Nat.not_lt_zero i)⟩
  | succ n ih =>
    rw [valDigits_succ] at hr hx ⊢
    obtain ⟨t, ht, hkept, hslots⟩ := ih (fun i hlow hhigh => hl i hlow (by omega)) (fun i hi => hv i (by omega)) (by omega)
      (by omega) (hexAt_sub hx le_rfl (by omega)) (by omega)
    obtain ⟨hkind, h1, h8⟩ := hv n (Nat.lt_succ_self n)
    obtain ⟨u, hu, hkept', hslot⟩ := ht.val _ _ (hl (pc + n) (by omega) (by omega)) (by omega) hkind rfl h1 h8 (by omega)
      (hexAt_sub hx (by omega) (by omega)) (by omega)
    rw [Nat.add_assoc cur] at hu
    refine ⟨u, hu, fun i hi => (hkept' i (by omega)).trans (hkept i hi), fun i hi => ?_⟩
    rcases Nat.lt_succ_iff_lt_or_eq.1 hi with hlt | rfl
    · exact (hkept' _ (by omega)).trans (hslots i hlt)
    · exact hslot

/-- A two-digit CNT and after it a REP of four-digit fields over the same count register. -/
abbrev CountThenRun (csel : Bool) (dc dr : Word) : Prop :=
  (descKind dc).toNat = 2 ∧ (descWid dc).toNat = 2 ∧ descCsel dc = csel ∧
    (descKind dr).toNat = 3 ∧ (descWid dr).toNat = 4 ∧ descCsel dr = csel

/-- The chain over a count and its run (R205, R206). -/
theorem ParsedTo.countThenRun {s0 s : State} {pc cur ns n : Nat} {c0 c1 : Word} (h : ParsedTo s0 s pc cur ns c0 c1)
    (csel : Bool) (hd : CountThenRun csel (defaultLayout pc) (defaultLayout (pc + 1)))
    (hl : DefaultEntries s0 pc (pc + 2)) (hcount : valueAt s0 cur 2 = n) (hp : pc + 2 ≤ 128)
    (hr : cur + 2 + n * 4 ≤ s0.rxlen.toNat - 2) (hx : Machine.hexAt s0 cur (2 + n * 4)) (hn : ns + 1 + n ≤ 1024) :
    ∃ t, ParsedTo s0 t (pc + 2) (cur + 2 + n * 4) (ns + 1 + n) (if csel then c0 else BitVec.ofNat 32 n)
        (if csel then BitVec.ofNat 32 n else c1) ∧ (∀ i, i < ns → fvalRead t i = fvalRead s i) ∧
      ∀ e, e < n → fvalRead t (ns + 1 + e) = word32 (Machine.fieldAt s0 (cur + 2 + e * 4) 4
        (descSgn (defaultLayout (pc + 1))) + addOne (descAdd1 (defaultLayout (pc + 1)))) := by
  obtain ⟨hkc, hwc, rfl, hkr, hwr, hcsel⟩ := hd
  obtain ⟨t, ht, hkept, -⟩ := h.cnt _ 2 (hl pc (by omega) (by omega)) (by omega) hkc hwc (by omega) (by omega) (by omega)
    (hexAt_sub hx le_rfl (by omega)) (by omega)
  rw [word32_fieldAt_unsigned, hcount] at ht
  have hsmall : n < 256 := hcount ▸ valueAt_lt s0 cur 2
  have hreg : (if descCsel (defaultLayout (pc + 1)) then
      (if descCsel (defaultLayout pc) then BitVec.ofNat 32 n else c1)
      else (if descCsel (defaultLayout pc) then c0 else BitVec.ofNat 32 n)).toNat = n := by
    rw [hcsel]
    cases descCsel (defaultLayout pc) <;> exact Nat.mod_eq_of_lt (by omega)
  obtain ⟨u, hu, hkept', hslots⟩ := ht.rep _ 4 n (hl (pc + 1) (by omega) (by omega)) (by omega) hkr hwr (by omega)
    (by omega) hreg (fun _ => hr) (hexAt_sub hx (by omega) (by omega)) hn
  exact ⟨u, hu, fun i hi => (hkept' i (by omega)).trans (hkept i hi), hslots⟩

/-- A PARSE whose chain comes to an END completes OK with its results (R203, R210, R211). -/
theorem ParsedTo.exec_parse {s u : State} {didx : BitVec 7} {pc len ns : Nat} {c0 c1 : Word} (hv : s.rxVerified = true)
    (h : ParsedTo (parseInit didx s) u pc (s.latArg0.toNat % 65536 + len) ns c0 c1) (hp : pc < 128)
    (hk : (descKind (layoutRead s pc)).toNat = 0) :
    exec (.parse didx) s = .next (finish u) ∧ (finish u).code = .ok ∧
      (finish u).nextOff = BitVec.ofNat 32 (s.latArg0.toNat % 65536 + len) ∧ (finish u).nslot = BitVec.ofNat 16 ns ∧
      (finish u).cnt0 = c0 ∧ (finish u).cnt1 = c1 ∧
      (finish u).lenWarn = decide (s.latArg1.toNat % 65536 ≠ 0 ∧ s.latArg1.toNat % 65536 ≠ len) := by
  have hpc : u.pc = pc := by rw [h.frame]
  have hend : parseFrom u = finish u := parseFrom_endRec (by omega) (by rwa [hpc, h.layout])
  have hcur : u.cur = s.latArg0.toNat % 65536 + len := by rw [h.frame]
  have harg0 : u.latArg0 = s.latArg0 := by rw [h.frame]; rfl
  have harg1 : u.latArg1 = s.latArg1 := by rw [h.frame]; rfl
  refine ⟨?_, rfl, congrArg (BitVec.ofNat 32) hcur, ?_, ?_, ?_, ?_⟩
  · rw [exec_parse_verified hv, h.run, hend]
  · rw [h.frame]; rfl
  · rw [h.frame]; rfl
  · rw [h.frame]; rfl
  · rw [finish_lenWarn, parseNom_eq, parseStart_eq, hcur, harg0, harg1]
    exact decide_eq_decide.2 (and_congr_right fun _ => by omega)

/-- Nothing is read before the first descriptor. -/
theorem ParsedTo.init (didx : BitVec 7) (s : State) :
    ParsedTo (parseInit didx s) (parseInit didx s) didx.toNat (s.latArg0.toNat % 65536) 0 0 0 := by
  refine ⟨rfl, ?_⟩
  rw [← parseStart_eq]
  rfl

/-! ## The header (R215) -/

/-- The default header program up to its END: 66 digits, 14 slots. -/
theorem ParsedTo.header {s0 s : State} {cur : Nat} (h : ParsedTo s0 s 0 cur 0 0 0) (hl : DefaultEntries s0 0 15)
    (hr : cur + 66 ≤ s0.rxlen.toNat - 2) (hx : Machine.hexAt s0 cur 44) (hx' : Machine.hexAt s0 (cur + 62) 4) :
    ∃ t, ParsedTo s0 t 14 (cur + 66) 14 0 0 ∧
      (∀ k, k < 11 → fvalRead t k = word32 (Machine.fieldAt s0 (cur + 4 * k) 4
        (decide (k = 1 ∨ k = 5 ∨ k = 6 ∨ k = 9 ∨ k = 10)))) ∧
      fvalRead t 11 = BitVec.ofNat 32 (cur + 44) ∧ fvalRead t 12 = BitVec.ofNat 32 (valueAt s0 (cur + 62) 2) ∧
      fvalRead t 13 = BitVec.ofNat 32 (valueAt s0 (cur + 64) 2) := by
  have hdigits : valDigits 0 11 = 44 := by decide
  have hdigits' : valDigits 12 2 = 4 := by decide
  have hoffset : ∀ k, k < 11 → valDigits 0 k = 4 * k ∧ (descWid (defaultLayout (0 + k))).toNat = 4 ∧
      descSgn (defaultLayout (0 + k)) = decide (k = 1 ∨ k = 5 ∨ k = 6 ∨ k = 9 ∨ k = 10) ∧
      descAdd1 (defaultLayout (0 + k)) = false := by decide
  obtain ⟨t1, h1, -, hfields⟩ := h.vals 11 (fun i _ _ => hl i (by omega) (by omega)) (by decide) (by omega)
    (by omega) (by rwa [hdigits]) (by omega)
  obtain ⟨t2, h2, hkept2, hopaque⟩ := h1.opq _ 18 (hl 11 (by omega) (by omega)) (by omega) (by decide)
    (by decide) (by omega) (by omega)
  rw [hdigits] at h2 hopaque
  have h2 : ParsedTo s0 t2 12 (cur + 62) 12 0 0 := h2
  obtain ⟨t3, h3, hkept3, htail⟩ := h2.vals 2 (fun i _ _ => hl i (by omega) (by omega)) (by decide) (by omega)
    (by omega) (by rwa [hdigits']) (by omega)
  rw [hdigits'] at h3
  refine ⟨t3, h3, fun k hk => ?_, ?_, ?_, ?_⟩
  · obtain ⟨hoff, hwid, hsgn, hadd⟩ := hoffset k hk
    have hfield := hfields k hk
    rw [hoff, hwid, hsgn, hadd, Nat.zero_add, addOne, if_neg (by decide), Int.add_zero] at hfield
    rw [hkept3 k (by omega), hkept2 k (by omega), hfield]
  · rw [hkept3 11 (by omega)]
    exact hopaque
  · exact (htail 0 (by omega)).trans (word32_unsigned_field s0 (cur + 62) 2)
  · exact (htail 1 (by omega)).trans (word32_unsigned_field s0 (cur + 64) 2)

/-- Settles O52: the chain of `ParsedTo.header` from START, ended by the END of entry 14. -/
theorem headerProgramReadsTheHeader : Obligations.HeaderProgramReadsTheHeader := by
  unfold Obligations.HeaderProgramReadsTheHeader
  intro s start nom hv hl hr hx hx'
  have hload : DefaultEntries (parseInit 0 s) 0 15 := fun i _ hi => (hl i hi).trans (if_pos (by omega)).symm
  obtain ⟨u, hu, hslots⟩ := (ParsedTo.init 0 s).header hload hr hx hx'
  obtain ⟨hexec, hcode, hnext, hnslot, hcnt0, hcnt1, hwarn⟩ := hu.exec_parse hv (by omega) (by
    rw [hl 14 (by omega)]
    decide)
  exact ⟨finish u, hexec, hcode, hnext, hnslot, hcnt0, hcnt1, hwarn, hslots⟩

/-! ## A battery block (R216, R217) -/

/-- The default battery program up to its END: 132 + 4 C0 + 4 C1 digits, 34 + C0 + C1 slots. -/
theorem ParsedTo.battery {s0 s : State} {cur cells temps : Nat} (h : ParsedTo s0 s 32 cur 0 0 0)
    (hl : DefaultEntries s0 32 69) (hcells : valueAt s0 (cur + 10) 2 = cells)
    (htemps : valueAt s0 (cur + 24 + 4 * cells) 2 = temps)
    (hr : cur + (132 + 4 * cells + 4 * temps) ≤ s0.rxlen.toNat - 2)
    (hx : Machine.hexAt s0 cur (124 + 4 * cells + 4 * temps)) :
    ∃ t, ParsedTo s0 t 68 (cur + (132 + 4 * cells + 4 * temps)) (34 + cells + temps) (BitVec.ofNat 32 cells)
        (BitVec.ofNat 32 temps) ∧ fvalRead t 0 = BitVec.ofNat 32 (valueAt s0 cur 2 + 1) ∧
      ∀ e, e < cells → fvalRead t (4 + e) = BitVec.ofNat 32 (valueAt s0 (cur + 12 + 4 * e) 4) := by
  have hsmall : cells < 256 := hcells ▸ valueAt_lt s0 (cur + 10) 2
  have hsmall' : temps < 256 := htemps ▸ valueAt_lt s0 (cur + 24 + 4 * cells) 2
  have hloaded : ∀ a n, 32 ≤ a → a + n ≤ 69 → DefaultEntries s0 a (a + n) :=
    fun a n _ _ i _ _ => hl i (by omega) (by omega)
  have hhex : ∀ p n, cur ≤ p → p + n ≤ cur + (124 + 4 * cells + 4 * temps) → Machine.hexAt s0 p n :=
    fun p n hlow hhigh => hexAt_sub hx hlow (by omega)
  have hdigits1 : valDigits 32 3 = 10 := by decide
  have hdigits2 : valDigits 37 3 = 12 := by decide
  have hdigits3 : valDigits 42 25 = 98 := by decide
  obtain ⟨t1, h1, -, hbattery⟩ := h.vals 3 (hloaded 32 3 (by omega) (by omega)) (by decide) (by omega)
    (by omega) (hhex _ _ (by omega) (by omega)) (by omega)
  rw [hdigits1] at h1
  obtain ⟨t2, h2, hkept2, hvolts⟩ := h1.countThenRun false (by decide) (hloaded 35 2 (by omega) (by omega)) hcells
    (by omega) (by omega) (hhex _ _ (by omega) (by omega)) (by omega)
  have h2 : ParsedTo s0 t2 37 (cur + 12 + cells * 4) (4 + cells) (BitVec.ofNat 32 cells) 0 := h2
  obtain ⟨t3, h3, hkept3, -⟩ := h2.vals 3 (hloaded 37 3 (by omega) (by omega)) (by decide) (by omega)
    (by omega) (hhex _ _ (by omega) (by omega)) (by omega)
  rw [hdigits2] at h3
  have htemps' : valueAt s0 (cur + 12 + cells * 4 + 12) 2 = temps := by
    rw [← htemps, show cur + 12 + cells * 4 + 12 = cur + 24 + 4 * cells by omega]
  obtain ⟨t4, h4, hkept4, -⟩ := h3.countThenRun true (by decide) (hloaded 40 2 (by omega) (by omega)) htemps'
    (by omega) (by omega) (hhex _ _ (by omega) (by omega)) (by omega)
  have h4 : ParsedTo s0 t4 42 (cur + 26 + 4 * cells + 4 * temps) (8 + cells + temps) (BitVec.ofNat 32 cells)
      (BitVec.ofNat 32 temps) := by
    rw [show cur + 26 + 4 * cells + 4 * temps = cur + 12 + cells * 4 + 12 + 2 + temps * 4 by omega,
      show 8 + cells + temps = 4 + cells + 3 + 1 + temps by omega]
    exact h4
  obtain ⟨t5, h5, hkept5, -⟩ := h4.vals 25 (hloaded 42 25 (by omega) (by omega)) (by decide) (by omega)
    (by omega) (hhex _ _ (by omega) (by omega)) (by omega)
  rw [hdigits3] at h5
  obtain ⟨t6, h6, hkept6, -⟩ := h5.opq _ 8 (hl 67 (by omega) (by omega)) (by omega) (by decide)
    (by decide) (by omega) (by omega)
  have hkept : ∀ i, i < 4 + cells → fvalRead t6 i = fvalRead t2 i := fun i hi => by
    rw [hkept6 i (by omega), hkept5 i (by omega), hkept4 i (by omega), hkept3 i hi]
  refine ⟨t6, ?_, ?_, fun e he => ?_⟩
  · rw [show cur + (132 + 4 * cells + 4 * temps) = cur + 26 + 4 * cells + 4 * temps + 98 + 8 by omega,
      show 34 + cells + temps = 8 + cells + temps + 25 + 1 by omega]
    exact h6
  · rw [hkept 0 (by omega), hkept2 0 (by omega)]
    exact (hbattery 0 (by omega)).trans (word32_unsigned_field_add1 s0 cur 2)
  · rw [hkept (4 + e) (by omega), Nat.mul_comm 4 e]
    exact (hvolts e he).trans (word32_unsigned_field s0 (cur + 12 + e * 4) 4)

/-- Settles O53: the chain of `ParsedTo.battery` from START, ended by the END of entry 68. -/
theorem batteryProgramConsumesTheBlock : Obligations.BatteryProgramConsumesTheBlock := by
  unfold Obligations.BatteryProgramConsumesTheBlock
  intro s start nom cells temps total hv hl hr hx
  have hload : ∀ i, 32 ≤ i → i < 69 → layoutRead s i = defaultLayout i := by
    intro i hlow hhigh
    have hentry := hl (i - 32) (by omega)
    rw [Nat.add_sub_cancel' hlow] at hentry
    exact hentry.trans (if_neg (by omega)).symm
  have hdigits : total - 8 = 124 + 4 * cells + 4 * temps := by omega
  rw [hdigits] at hx
  obtain ⟨u, hu, hslots⟩ := (ParsedTo.init 32 s).battery hload rfl rfl hr hx
  obtain ⟨hexec, hcode, hnext, hnslot, hcnt0, hcnt1, hwarn⟩ := hu.exec_parse hv (by omega) (by
    rw [hload 68 (by omega) (by omega)]
    decide)
  exact ⟨finish u, hexec, hcode, hnext, hnslot, hcnt0, hcnt1, hwarn, hslots⟩

end Sys2Proof.Machine
end

section
/-! PROOFS for spec/60_exceptions.md: issue (R230), Retire (R231), completion with its interrupt (R232, R241), NOP and
the reserved opcodes (R236, R237), and that a PARSE changes only its results, however it ends (R239). -/

namespace Sys2Proof.Machine

/-! ## Issue and Retire (R230, R231) -/

/-- Settles O8: the write selects CMD, and the three cases of an issue are those of the statement. -/
theorem cmdWriteIssues : Obligations.CmdWriteIssues := by
  unfold Obligations.CmdWriteIssues
  intro s a d rest hp hb hidle hi haddr
  have hcmd : a.toNat / 4 = 3 := toNat_div_of_wordOffset haddr
  obtain ⟨t, hissue, _⟩ := issue_goesOn d { s with input := rest }
  have hstep : step s = .next t := by
    rw [step_hostWrite hp hi, hcmd, if_neg (by decide), if_neg (by decide), if_pos rfl, if_neg (by simp [hb]), hissue]
  have hxact : cmdOp d = 2 ↔ d.toNat % 256 = 2 := cmdOp_eq_iff
  have hgatechk : cmdOp d = 4 ↔ d.toNat % 256 = 4 := cmdOp_eq_iff
  rw [hstep]
  rcases issue_cases (by simp [hidle]) hissue with ⟨hop, hlen, rfl⟩ | ⟨hop, rfl⟩ | ⟨hop, hlen, rfl⟩
  · have hd := hxact.1 hop
    exact ⟨fun h => by omega, fun _ h => absurd hlen h, fun _ _ => rfl, fun h => absurd hd h⟩
  · have hd := hgatechk.1 hop
    exact ⟨fun _ => rfl, fun h => by omega, fun h => by omega, fun _ h => absurd hd h⟩
  · exact ⟨fun h => absurd (hgatechk.2 h) hop, fun _ _ => rfl, fun h h20 => absurd h20 (hlen (hxact.2 h)),
      fun _ _ => rfl⟩

theorem retire_of_run {s : State} (h : s.phase = .run) : retire s = exec (decodeCmd s.latCmd) s := if_pos h

/-- Settles O5: with no event to come the step is the same Retire as on a Retire event. -/
theorem stepRunsRetiredCommand : Obligations.StepRunsRetiredCommand := by
  unfold Obligations.StepRunsRetiredCommand
  intro s hp hrun
  refine ⟨fun hi => ?_, fun rest hi => ?_⟩
  · rw [step_nil hp hi]
    exact retire_of_run hrun
  · rw [step_cons hp hi]
    exact retire_of_run (s := { s with input := rest }) hrun

/-! ## NOP and the reserved opcodes (R236, R237) -/

/-- Settles O20: NOP is a completion and nothing else. -/
theorem nopCompletes : Obligations.NopCompletes := fun s =>
  congrArg Host.Outcome.next (complete_ok_eq_finished s)

theorem cmdOp_toNat (w : Word) : (cmdOp w).toNat = w.toNat % 256 := (cmdOp_eq_iff.1 rfl).symm

/-- The five reserved rows of the opcode table have one meaning (R237). -/
theorem exec_reserved {op : Byte} {i : Instr}
    (h : i ∈ [Instr.reserved08 op, .reserved10 op, .reserved20 op, .reserved40 op, .reserved80 op]) (s : State) :
    exec i s = .next (faulted .badOp s) := by
  have hexec : exec i s = .next (badOp s) := by
    simp only [List.mem_cons, List.not_mem_nil, or_false] at h
    rcases h with rfl | rfl | rfl | rfl | rfl <;> rfl
  rw [hexec, badOp, complete_eq_faulted (by decide)]

theorem reservedRow_mem (op : Byte) :
    reservedRow op ∈ [Instr.reserved08 op, .reserved10 op, .reserved20 op, .reserved40 op, .reserved80 op] := by
  unfold reservedRow
  split_ifs <;> simp

/-- Settles O21: an opcode from 0x08 up is decoded to one of the reserved rows, and these have one meaning. -/
theorem reservedOpcodesCompleteBadOp : Obligations.ReservedOpcodesCompleteBadOp := by
  unfold Obligations.ReservedOpcodesCompleteBadOp
  refine ⟨fun w s hop => ?_, fun op s i hi => exec_reserved hi s⟩
  rw [decodeCmd_reserved ((cmdOp_toNat w).ge.trans' hop)]
  exact exec_reserved (reservedRow_mem _) s

/-! ## What a PARSE changes (R77, R201, R212, R239) -/

/-- A PARSE of an unverified frame ends like one that faults before its first descriptor. -/
theorem parseEnd_parse (didx : BitVec 7) (s : State) : ParseEnd (parseInit didx s) (parse didx s) := by
  rcases parse_end didx s with ⟨_, hend⟩ | ⟨_, hfault⟩
  · exact hend
  · rw [hfault]
    exact .fault .unverified _ (by decide) (.refl _) (by show didx.toNat ≤ 128; omega)

/-- `t` is `s` after a PARSE that changed its results, the completion's flags and the slots below NSLOT alone. -/
structure ParseResults (s t : State) : Prop where
  frame : t = { s with
    nextOff := t.nextOff, nslot := t.nslot, cnt0 := t.cnt0, cnt1 := t.cnt1, c0 := t.cnt0, c1 := t.cnt1,
    lenWarn := t.lenWarn, resync := t.resync, faultOff := t.faultOff, faultPc := t.faultPc, fval := t.fval,
    ftag := t.ftag, pc := 0, cur := 0, ns := 0, code := t.code, busy := false, done := true,
    err := s.err || decide (t.code ≠ .ok), phase := .idle }
  nslot : t.nslot.toNat ≤ 1024
  slots : ∀ i, t.nslot.toNat ≤ i → fvalRead t i = fvalRead s i ∧ ftagRead t i = ftagRead s i

/-- Both ends of a PARSE, from any state `u` that its interpreter reaches. -/
theorem SlotsGrow.parseResults {s u : State} {didx : BitVec 7} (h : SlotsGrow (parseInit didx s) u) (c : Code)
    (nx : Word) (rs lw : Bool) (fo : Half) (fp : Byte) :
    ParseResults s (complete c (clearInterp
      { u with nextOff := nx, resync := rs, lenWarn := lw, nslot := BitVec.ofNat 16 u.ns, cnt0 := u.c0, cnt1 := u.c1,
               faultOff := fo, faultPc := fp })) := by
  have hns : u.ns ≤ 1024 := h.bound (Nat.zero_le _)
  have hnslot : (BitVec.ofNat 16 u.ns).toNat = u.ns := by
    rw [BitVec.toNat_ofNat]
    omega
  refine ⟨?_, hnslot.trans_le hns, fun i hi => ?_⟩
  · rw [h.frame]
    rfl
  · have hi : u.ns ≤ i := hnslot.ge.trans hi
    exact ⟨h.fval i hi, h.ftag i hi⟩

/-- The offset and the flag for resuming after a faulted record, from the latched operands (R212). -/
theorem pfault_nextOff {c : Code} (hc : c ≠ .ok) (off : Nat) (u : State) : (pfault c off u).nextOff =
    BitVec.ofNat 32 (u.latArg0.toNat % 65536 + u.latArg1.toNat % 65536) := by
  rw [pfault_eq hc]
  rfl

theorem pfault_resync {c : Code} (hc : c ≠ .ok) (off : Nat) (u : State) :
    (pfault c off u).resync = decide (u.latArg1.toNat % 65536 ≠ 0) := by
  rw [pfault_eq hc]
  rfl

/-- Settles O51: neither end changes more than `ParseResults` says; `finish` keeps the results of a fault, and `pfault`
keeps LENWARN. -/
theorem parseChangesOnlyItsResults : Obligations.ParseChangesOnlyItsResults := by
  unfold Obligations.ParseChangesOnlyItsResults
  intro s didx
  refine ⟨parse didx s, rfl, ?_⟩
  have hend := parseEnd_parse didx s
  generalize parse didx s = t at hend
  cases hend with
  | done u hgrow hpc =>
    obtain ⟨hframe, hnslot, hslots⟩ :=
      hgrow.parseResults .ok (BitVec.ofNat 32 u.cur) u.resync (finish u).lenWarn u.faultOff u.faultPc
    have hresync : u.resync = s.resync := by rw [hgrow.frame]; rfl
    have hfaultOff : u.faultOff = s.faultOff := by rw [hgrow.frame]; rfl
    have hfaultPc : u.faultPc = s.faultPc := by rw [hgrow.frame]; rfl
    exact ⟨hframe, hnslot, (congrArg BitVec.toNat hfaultPc).trans_le (le_max_right _ _), hslots,
      fun _ => ⟨hresync, hfaultOff, hfaultPc⟩, fun hc => absurd rfl hc⟩
  | fault c u hc hgrow hpc =>
    obtain ⟨hframe, hnslot, hslots⟩ :=
      hgrow.parseResults c (pfault c u.cur u).nextOff (pfault c u.cur u).resync u.lenWarn (BitVec.ofNat 16 u.cur)
        (BitVec.ofNat 8 u.pc)
    have hlenWarn : u.lenWarn = s.lenWarn := by rw [hgrow.frame]; rfl
    have harg0 : u.latArg0 = s.latArg0 := by rw [hgrow.frame]; rfl
    have harg1 : u.latArg1 = s.latArg1 := by rw [hgrow.frame]; rfl
    have hfaultPc : (BitVec.ofNat 8 u.pc).toNat ≤ 128 := by
      rw [BitVec.toNat_ofNat]
      exact (Nat.mod_le _ _).trans hpc
    exact ⟨hframe, hnslot, hfaultPc.trans (le_max_left _ _), hslots, fun h => absurd h hc,
      fun _ => ⟨hlenWarn, by rw [pfault_resync hc, harg1], by rw [pfault_nextOff hc, harg0, harg1]⟩⟩

end Sys2Proof.Machine
end

section
/-! PROOFS for spec/60_exceptions.md, the end of BUSY: each event that ends it is a completion or a Reset (R232, R239,
R241). -/

namespace Sys2Proof.Machine

/-- What a completion from `s` leaves in the flags of the interrupt and of ERR (R232). -/
structure Completion (s t : State) : Prop where
  done : t.done = true
  irqen : t.irqen = s.irqen
  err : t.err = (s.err || decide (t.code ≠ .ok))

/-- What an event can do to BUSY, other than an issue and a Reset. -/
inductive BusyStep (s t : State) : Prop where
  | kept (h : t.busy = s.busy)
  | completed (h : Completion s t)

/-- A completion depends on two flags of the state before. -/
theorem Completion.congr {s u t : State} (h : Completion u t) (hi : u.irqen = s.irqen) (he : u.err = s.err) :
    Completion s t :=
  ⟨h.done, h.irqen.trans hi, he ▸ h.err⟩

/-! ## Commands at their Retire -/

theorem extract_completion (sgn : Bool) (s : State) : Completion s (extract sgn s) := by
  have fault : ∀ (c : Code) (off : Nat), Completion s (extFault c off s) := fun _ _ => ⟨rfl, rfl, rfl⟩
  unfold extract
  split_ifs
  · exact fault _ _
  · exact fault _ _
  · exact fault _ _
  · split
    · exact fault _ _
    · exact ⟨rfl, rfl, rfl⟩

theorem parse_completion (didx : BitVec 7) (s : State) : Completion s (parse didx s) := by
  have hend := parseEnd_parse didx s
  generalize parse didx s = t at hend
  have flags : ∀ {u : State}, SlotsGrow (parseInit didx s) u → u.irqen = s.irqen ∧ u.err = s.err := fun hgrow => by
    rw [hgrow.frame]
    exact ⟨rfl, rfl⟩
  cases hend with
  | done u hgrow _ =>
    obtain ⟨hi, he⟩ := flags hgrow
    exact Completion.congr (u := u) ⟨rfl, rfl, rfl⟩ hi he
  | fault c u _ hgrow _ =>
    obtain ⟨hi, he⟩ := flags hgrow
    exact Completion.congr (u := u) ⟨rfl, rfl, rfl⟩ hi he

/-- A command completes, but for an XACT that starts its transaction or waits (R153, R231). -/
theorem CmdEffect.busyStep {w : Word} {s t : State} (h : CmdEffect w s t) : BusyStep s t := by
  cases h with
  | start _ _ => exact .kept rfl
  | wait _ _ _ => exact .kept rfl
  | ext _ sgn => exact .completed (extract_completion sgn s)
  | parse _ didx => exact .completed (parse_completion didx s)
  | _ => exact .completed ⟨rfl, rfl, rfl⟩

theorem retire_busyStep {s t : State} (h : retire s = .next t) : BusyStep s t := by
  rcases retire_cases h with ⟨_, heffect⟩ | ⟨_, rfl⟩
  · exact heffect.busyStep
  · exact .kept rfl

/-! ## Host accesses -/

theorem WriteEffect.busy {s t : State} (h : WriteEffect s t) : t.busy = s.busy := by
  cases h <;> rfl

/-- No host write ends BUSY: while BUSY = 1 a CMD write issues nothing (R52). -/
theorem hostWriteEvent_busy {a : Half} {d : Word} {s t : State} (hp : s.params.valid = true) (hb : s.busy = true)
    (h : hostWriteEvent a d s = .next t) : t.busy = s.busy := by
  rcases hostWriteEvent_cases hp h with ⟨x, rfl⟩ | ⟨_, ⟨_, rfl⟩ | ⟨hidle, _⟩⟩ | ⟨_, rfl⟩
  · rfl
  · rfl
  · exact absurd (hb.symm.trans hidle) (by decide)
  · rcases hostWrite_effect (a := a) d s hp with heffect | ⟨i, _, _, _, e⟩
    · exact heffect.busy
    · rw [e, layoutWrite_busy]

/-! ## The transaction -/

/-- The end of a gap completes the transaction or opens the receive window (R156). -/
theorem gapEnd_busyStep (s : State) (pos : BitVec 5) (p : Phase) (n : Word) :
    BusyStep s (gapEnd { s with txpos := pos, phase := p, tcnt := n }) := by
  rcases gapEnd_cases { s with txpos := pos, phase := p, tcnt := n } with ⟨_, e⟩ | ⟨_, _, e⟩ | ⟨_, _, e⟩ <;> rw [e]
  · exact .completed ⟨rfl, rfl, rfl⟩
  · exact .completed ⟨rfl, rfl, rfl⟩
  · exact .kept rfl

theorem txAccept_busyStep (s : State) : BusyStep s (txAccept s) := by
  by_cases hv : txValid s = true
  · by_cases hlast : s.txpos + 1 = 20
    · rw [txAccept_last hv hlast]
      split_ifs
      · exact gapEnd_busyStep s _ _ _
      · exact .kept rfl
    · rw [txAccept_next hv hlast]
      exact .kept rfl
  · rw [txAccept_else (by simpa using hv)]
    exact .kept rfl

theorem tick_busyStep (s : State) : BusyStep s (tick s) := by
  by_cases hgap : s.phase = .gap
  · rw [tick_gap hgap]
    split_ifs
    · exact gapEnd_busyStep s s.txpos s.phase _
    · exact .kept rfl
  by_cases hrx : s.phase = .rx
  · rw [tick_rx hrx]
    split_ifs
    · exact .completed ⟨rfl, rfl, rfl⟩
    · exact .kept rfl
  · rw [tick_else hgap hrx]
    exact .kept rfl

theorem reject_busy (c : Cause) (f : List Byte) (s : State) : (reject c f s).busy = s.busy := by
  rw [reject_counts]

/-- Acceptance in RX completes the transaction (R165). -/
theorem accept_busyStep {s u : State} (hb : u.busy = s.busy) (hi : u.irqen = s.irqen) (he : u.err = s.err) :
    BusyStep s (accept u) := by
  unfold accept
  dsimp only
  split_ifs
  · exact .completed (Completion.congr (u := u) ⟨rfl, rfl, rfl⟩ hi he)
  · exact .kept hb

theorem AsmEffect.busyStep {s t : State} (h : AsmEffect s t) : BusyStep s t := by
  cases h with
  | move a => exact .kept rfl
  | reject c f a => exact .kept (reject_busy c f s)
  | store i n b a _ _ => exact .kept rfl
  | storeReject u hu _ c f =>
    subst hu
    exact .kept (reject_busy c f _)
  | accept u hu _ _ =>
    subst hu
    exact accept_busyStep rfl rfl rfl

theorem rxByte_busyStep {s : State} (b : Byte) (hinv : Inv s) : BusyStep s (rxByte b s) := by
  have ⟨hp, _, _, _, ⟨_, hclen, _⟩, _⟩ := hinv
  unfold rxByte
  split_ifs
  · exact (assemble_effect b s hp hclen).busyStep
  · exact .kept rfl

/-! ## Every step -/

theorem runEvent_busyStep {e : Event} {s t : State} (hinv : Inv s) (hb : s.busy = true)
    (h : runEvent e s = .next t) : e = .reset ∨ BusyStep s t := by
  cases e with
  | hostWrite a d => exact .inr (.kept (hostWriteEvent_busy hinv.sound.params hb h))
  | hostRead a =>
    obtain ⟨r, n, rfl⟩ := hostReadEvent_cases h
    exact .inr (.kept rfl)
  | rxByte b => cases h; exact .inr (rxByte_busyStep b hinv)
  | txAccept => cases h; exact .inr (txAccept_busyStep s)
  | tick => cases h; exact .inr (tick_busyStep s)
  | retire => exact .inr (retire_busyStep h)
  | reset => exact .inl rfl

/-- The flags of a step are those of its event: the events to come are no part of them. -/
theorem step_busyStep {s t : State} (hinv : Inv s) (hb : s.busy = true) (h : step s = .next t) :
    s.input.head? = some .reset ∨ BusyStep s t := by
  obtain ⟨_, ⟨_, hretire⟩ | ⟨e, rest, hi, hevent⟩⟩ := step_cases h
  · exact .inr (retire_busyStep hretire)
  · rcases runEvent_busyStep (s := { s with input := rest }) hinv hb hevent with rfl | hkept | ⟨hdone, hirqen, herr⟩
    · exact .inl (by rw [hi]; rfl)
    · exact .inr (.kept hkept)
    · exact .inr (.completed ⟨hdone, hirqen, herr⟩)

/-- Settles O57: a step that ends BUSY does not keep it, so it is a completion or a Reset. -/
theorem completionRaisesIrq : Obligations.CompletionRaisesIrq := by
  unfold Obligations.CompletionRaisesIrq
  refine ⟨fun _ => rfl, fun s t hinv hstep hb ht => ?_⟩
  rcases step_busyStep hinv hb hstep with hreset | hkept | ⟨hdone, hirqen, herr⟩
  · exact .inl hreset
  · exact absurd (ht.symm.trans (hkept.trans hb)) (by decide)
  · have hirq : irq t = s.irqen := by rw [irq, hdone, hirqen, Bool.and_true]
    exact .inr ⟨hdone, hirqen, hirq, by simp [herr]⟩

end Sys2Proof.Machine
end

section
/-! PROOFS for spec/70_reset_and_hazards.md: what Reset leaves (R260), and that ERR, BUSYERR and LAYOUT are kept by
every event but Reset and their own host writes (R262). -/

namespace Sys2Proof.Machine

/-! ## What Reset leaves (R260) -/

/-- Reset lists no entry of LAYOUT, so each holds its reset contents (R214). -/
theorem layoutRead_resetEvent (s : State) (i : Nat) : layoutRead (resetEvent s) i = defaultLayout i := rfl

/-- The two programs stand at 0 to 14 and at 32 to 68, and every other entry is 0 (R214). -/
theorem defaultLayout_outside {i : Nat} (h : (15 ≤ i ∧ i < 32) ∨ 69 ≤ i) : defaultLayout i = 0 := by
  have hheader : headerProgram.length = 15 := rfl
  have hbattery : batteryProgram.length = 37 := rfl
  unfold defaultLayout
  split_ifs
  · exact List.getD_eq_default _ _ (by omega)
  · exact List.getD_eq_default _ _ (by omega)

/-- CSRES is the negation of the cleared sum (R132). -/
theorem csresWord_resetEvent (s : State) : csresWord (resetEvent s) = 0 := by
  show (negate16 0).setWidth 32 = 0
  decide

/-- Settles O18: the step is `resetEvent`, each line of the table is a field of it, and LAYOUT holds the programs. -/
theorem resetLeavesTheTable : Obligations.ResetLeavesTheTable := by
  intro s rest hp hi
  refine ⟨resetEvent { s with input := rest }, step_cons hp hi, rfl, ?flags, ?operands, ?results, ?rejections,
    ?exchange, ?latches, ?header, ?battery, ?zeros, fun _ => ⟨rfl, rfl, rfl, rfl⟩, rfl, rfl⟩
  case header => exact fun i h => (layoutRead_resetEvent _ i).trans (if_pos (by omega))
  case battery => exact fun i h _ => (layoutRead_resetEvent _ i).trans (if_neg (by omega))
  case zeros => exact fun i h => (layoutRead_resetEvent _ i).trans (defaultLayout_outside h)
  case exchange => exact ⟨rfl, csresWord_resetEvent _, rfl, rfl, rfl, rfl, rfl, rfl⟩
  all_goals and_intros <;> rfl

/-- Settles O54: what Reset leaves from any state with these parameters, draws and events satisfies the invariant, and
power-up is the case of the defaults. -/
theorem invAtReset : Obligations.InvAtReset := by
  have legal : ∀ (p : Config.Params) (draw : Nat) (es : List Event), p.valid = true →
      Inv { State.resetWith p draw with input := es } := fun p draw es hp =>
    resetEvent_inv (s := { State.resetWith p draw with input := es, draws := draw }) hp
  exact ⟨fun es => legal Config.defaults 0 es (by decide), legal⟩

/-! ## What ERR, BUSYERR and LAYOUT keep (R262) -/

/-- ERR and BUSYERR do not fall from `s` to `t`, and LAYOUT is the same. -/
structure Sticky (s t : State) : Prop where
  err : s.err = true → t.err = true
  busyErr : s.busyErr = true → t.busyErr = true
  layout : t.layout = s.layout

theorem Sticky.refl (s : State) : Sticky s s := ⟨id, id, rfl⟩

theorem Sticky.trans {s t u : State} (h1 : Sticky s t) (h2 : Sticky t u) : Sticky s u :=
  ⟨h2.err ∘ h1.err, h2.busyErr ∘ h1.busyErr, h2.layout.trans h1.layout⟩

/-- A completion can set ERR and never clears it (R232). -/
theorem Sticky.complete {s u : State} {c : Code} (h : Sticky s u) : Sticky s (complete c u) :=
  ⟨fun he => by rw [complete_err, h.err he, Bool.true_or], h.busyErr, h.layout⟩

/-! ## Commands -/

theorem extract_sticky (sgn : Bool) (s : State) : Sticky s (extract sgn s) := by
  have fault : ∀ (c : Code) (off : Nat), Sticky s (extFault c off s) := fun _ _ => .complete ⟨id, id, rfl⟩
  unfold extract
  split_ifs
  · exact fault _ _
  · exact fault _ _
  · exact fault _ _
  · split
    · exact fault _ _
    · exact .complete ⟨id, id, rfl⟩

theorem SlotsGrow.sticky {s t : State} (h : SlotsGrow s t) : Sticky s t := by
  rw [h.frame]
  exact ⟨id, id, rfl⟩

theorem ParseEnd.sticky {s t : State} (h : ParseEnd s t) : Sticky s t := by
  cases h with
  | done u hu _ => exact hu.sticky.trans (.complete ⟨id, id, rfl⟩)
  | fault c u _ hu _ => exact hu.sticky.trans (.complete ⟨id, id, rfl⟩)

theorem parse_sticky (didx : BitVec 7) (s : State) : Sticky s (parse didx s) :=
  have hinit : Sticky s (parseInit didx s) := ⟨id, id, rfl⟩
  hinit.trans (parseEnd_parse didx s).sticky

theorem CmdEffect.sticky {w : Word} {s t : State} (h : CmdEffect w s t) : Sticky s t := by
  cases h with
  | start _ _ => exact ⟨id, id, rfl⟩
  | wait _ _ _ => exact ⟨id, id, rfl⟩
  | ext _ sgn => exact extract_sticky sgn s
  | parse _ didx => exact parse_sticky didx s
  | _ => exact .complete ⟨id, id, rfl⟩

theorem retire_sticky {s t : State} (h : retire s = .next t) : Sticky s t := by
  rcases retire_cases h with ⟨_, heffect⟩ | ⟨_, rfl⟩
  · exact heffect.sticky
  · exact .refl _

/-- Issue clears DONE and the warnings, not ERR and BUSYERR (R230). -/
theorem issue_sticky {d : Word} {s t : State} (h : issue d s = .next t) : Sticky s t := by
  have hlatch : Sticky s (issueLatch d s) := ⟨id, id, rfl⟩
  unfold issue at h
  dsimp only at h
  split_ifs at h
  · obtain ⟨u, hu, heffect⟩ := exec_decodeCmd d (issueLatch d s)
    rw [hu] at h
    cases h
    exact hlatch.trans heffect.sticky
  · cases h
    exact ⟨id, id, rfl⟩
  · cases h
    exact ⟨id, id, rfl⟩

/-! ## The transaction -/

/-- The three ends of a gap: two completions and the receive window (R156). -/
theorem Sticky.gapEnd {s u : State} (h : Sticky s u) : Sticky s (gapEnd u) := by
  refine h.trans ?_
  rcases gapEnd_cases u with ⟨_, e⟩ | ⟨_, _, e⟩ | ⟨_, _, e⟩ <;> rw [e]
  · exact .complete ⟨id, id, rfl⟩
  · exact .complete ⟨id, id, rfl⟩
  · exact ⟨id, id, rfl⟩

theorem txAccept_sticky (s : State) : Sticky s (txAccept s) := by
  by_cases hv : txValid s = true
  · by_cases hlast : s.txpos + 1 = 20
    · rw [txAccept_last hv hlast]
      split_ifs
      · exact .gapEnd ⟨id, id, rfl⟩
      · exact ⟨id, id, rfl⟩
    · rw [txAccept_next hv hlast]
      exact ⟨id, id, rfl⟩
  · rw [txAccept_else (by simpa using hv)]
    exact .refl s

theorem tick_sticky (s : State) : Sticky s (tick s) := by
  by_cases hgap : s.phase = .gap
  · rw [tick_gap hgap]
    split_ifs
    · exact .gapEnd ⟨id, id, rfl⟩
    · exact ⟨id, id, rfl⟩
  by_cases hrx : s.phase = .rx
  · rw [tick_rx hrx]
    split_ifs
    · exact .complete ⟨id, id, rfl⟩
    · exact ⟨id, id, rfl⟩
  · rw [tick_else hgap hrx]
    exact .refl s

/-- A rejection touches REJLAST and the counters alone, an acceptance in RX completes the transaction (R165, R168). -/
theorem Sticky.endCandidate {s u : State} (h : Sticky s u) : Sticky s (endCandidate u) := by
  refine h.trans ?_
  unfold Machine.endCandidate accept
  dsimp only
  split_ifs
  · exact .complete ⟨id, id, rfl⟩
  · exact ⟨id, id, rfl⟩
  · rw [reject_counts]
    exact ⟨id, id, rfl⟩

/-- From every state, also one whose candidate is longer than RXBUF, which `assemble_effect` leaves out. -/
theorem assemble_sticky (b : Byte) (s : State) : Sticky s (assemble b s) := by
  cases ha : s.asm with
  | waitFirst =>
    rw [assemble_waitFirst ha]
    split_ifs <;> exact ⟨id, id, rfl⟩
  | skip =>
    rw [assemble_skip ha]
    split_ifs <;> exact ⟨id, id, rfl⟩
  | inFrame =>
    by_cases hfull : s.clen = s.params.rxbufBytes
    · rw [assemble_full ha hfull]
      split_ifs <;> exact ⟨id, id, rfl⟩
    · rw [assemble_inFrame ha hfull]
      split_ifs
      · exact .endCandidate ⟨id, id, rfl⟩
      · exact ⟨id, id, rfl⟩
  | _ =>
    rw [assemble_over ha]
    split_ifs <;> exact ⟨id, id, rfl⟩

theorem rxByte_sticky (b : Byte) (s : State) : Sticky s (rxByte b s) := by
  unfold rxByte
  split_ifs
  · exact assemble_sticky b s
  · exact .refl s

/-! ## Host accesses -/

/-- What an event can do to ERR, BUSYERR and LAYOUT. -/
inductive StickyStep (s : State) (e : Event) (t : State) : Prop where
  | kept (h : Sticky s t)
  | reset (he : e = .reset)
  | ack (a : Half) (d : Word) (he : e = .hostWrite a d) (ho : a &&& 0xFFFC = 0x008) (ht : t = ackStatus d s)
  | entry (a : Half) (d : Word) (i : Nat) (he : e = .hostWrite a d)
      (ho : 0x8000 ≤ (a &&& 0xFFFC).toNat ∧ (a &&& 0xFFFC).toNat < 0x8200) (ht : t = layoutWrite i d s)

/-- Only the offsets 0x8000 to 0x81FC select an entry of LAYOUT (R22). -/
theorem wordOffset_of_target_layout {p : Config.Params} {a : Half} {i : Nat} (hp : p.valid = true)
    (h : target p a = .layout i) : 0x8000 ≤ (a &&& 0xFFFC).toNat ∧ (a &&& 0xFFFC).toNat < 0x8200 := by
  have ho := wordOffset_toNat a
  rcases target_cases hp a with ⟨_, e⟩ | ⟨_, _, _, e⟩ | ⟨_, _, _, e⟩ | ⟨_, hi, hk, _⟩ | ⟨_, _, _, e⟩ | ⟨_, _, _, e⟩ |
    ⟨e, _⟩
  case inl =>
    rw [e] at h
    exact absurd h (by unfold regAt; split <;> simp)
  case inr.inr.inr.inl => omega
  all_goals
    rw [e] at h
    cases h

/-- A busy block raises BUSYERR at most (R52). -/
theorem setBusyErr_sticky (s : State) : Sticky s (setBusyErr s) := ⟨id, fun _ => rfl, rfl⟩

theorem writeReg_sticky {r : HostReg} (d : Word) (s : State) (hr : r ≠ .status) : Sticky s (writeReg r d s) := by
  cases r with
  | status => exact absurd rfl hr
  | ctrl =>
    show Sticky s (writeCtrl d s)
    unfold writeCtrl
    dsimp only
    split_ifs <;> exact ⟨id, id, rfl⟩
  | rxlen =>
    show Sticky s (writeRxlen d s)
    unfold writeRxlen
    split_ifs
    · exact setBusyErr_sticky s
    · exact ⟨id, id, rfl⟩
  | _ => exact ⟨id, id, rfl⟩

/-- A host write to what `a` selects, by the kind of its target (R22, R52). -/
theorem hostWrite_stickyStep {a : Half} (d : Word) {s : State} (hp : s.params.valid = true) :
    StickyStep s (.hostWrite a d) (hostWrite (target s.params a) d s) := by
  cases hg : target s.params a with
  | reg r =>
    by_cases hr : r = .status
    · subst hr
      exact .ack a d rfl (BitVec.eq_of_toNat_eq (wordOffset_of_target_status hp hg)) rfl
    · exact .kept (writeReg_sticky d s hr)
  | rxbuf i =>
    unfold hostWrite
    dsimp only
    split_ifs
    · exact .kept (setBusyErr_sticky s)
    · exact .kept ⟨id, id, rfl⟩
  | layout i =>
    unfold hostWrite
    dsimp only
    split_ifs
    · exact .kept (setBusyErr_sticky s)
    · exact .entry a d i rfl (wordOffset_of_target_layout hp hg) rfl
  | _ => exact .kept (.refl s)

theorem hostWriteEvent_stickyStep {a : Half} {d : Word} {s t : State} (hp : s.params.valid = true)
    (h : hostWriteEvent a d s = .next t) : StickyStep s (.hostWrite a d) t := by
  rcases hostWriteEvent_cases hp h with ⟨x, rfl⟩ | ⟨_, ⟨_, rfl⟩ | ⟨_, hissue⟩⟩ | ⟨_, rfl⟩
  · exact .kept ⟨id, id, rfl⟩
  · exact .kept (setBusyErr_sticky s)
  · exact .kept (issue_sticky hissue)
  · exact hostWrite_stickyStep d hp

/-! ## Every step -/

theorem runEvent_stickyStep {e : Event} {s t : State} (hp : s.params.valid = true) (h : runEvent e s = .next t) :
    StickyStep s e t := by
  cases e with
  | hostWrite a d => exact hostWriteEvent_stickyStep hp h
  | hostRead a =>
    obtain ⟨r, n, rfl⟩ := hostReadEvent_cases h
    exact .kept ⟨id, id, rfl⟩
  | rxByte b => cases h; exact .kept (rxByte_sticky b s)
  | txAccept => cases h; exact .kept (txAccept_sticky s)
  | tick => cases h; exact .kept (tick_sticky s)
  | retire => exact .kept (retire_sticky h)
  | reset => exact .reset rfl

/-- What a step can do to ERR, BUSYERR and LAYOUT: the events to come are no part of them. -/
theorem step_stickyStep {s t : State} (h : step s = .next t) :
    Sticky s t ∨ ∃ e rest, s.input = e :: rest ∧ StickyStep { s with input := rest } e t := by
  obtain ⟨hp, ⟨_, hretire⟩ | ⟨e, rest, hi, hevent⟩⟩ := step_cases h
  · exact .inl (retire_sticky hretire)
  · exact .inr ⟨e, rest, hi, runEvent_stickyStep (s := { s with input := rest }) hp hevent⟩

/-- A flag that the acknowledgement clears had its bit of the written word set (R26). -/
theorem bit_of_cleared {flag bit : Bool} (hset : flag = true) (hclear : (flag && !bit) = false) : bit = true := by
  subst hset
  simpa using hclear

/-- Settles O19: a step keeps all three, or its event is a Reset, or it is the acknowledgement, which clears a flag only
where its bit is set, or it is a write to an entry of LAYOUT, which leaves the flags. -/
theorem stickyFlagsAndLayout : Obligations.StickyFlagsAndLayout := by
  intro s t h
  have rise : ∀ {x y : Bool} {P : Prop}, (x = true → y = true) → x = true → y = false → P :=
    fun hxy hx hy => absurd ((hxy hx).symm.trans hy) (by decide)
  rcases step_stickyStep h with ⟨herr, hbusyErr, hlayout⟩ | ⟨e, rest, hi, ⟨herr, hbusyErr, hlayout⟩ | rfl |
    ⟨a, d, rfl, ho, rfl⟩ | ⟨a, d, i, rfl, ho, rfl⟩⟩
  · exact ⟨rise herr, rise hbusyErr, fun hne => absurd hlayout hne⟩
  · exact ⟨rise herr, rise hbusyErr, fun hne => absurd hlayout hne⟩
  · have hreset : s.input.head? = some .reset := by rw [hi]; rfl
    exact ⟨fun _ _ => .inl hreset, fun _ _ => .inl hreset, fun _ => .inl hreset⟩
  · exact ⟨fun hs ht => .inr ⟨a, d, rest, hi, ho, bit_of_cleared hs ht⟩,
      fun hs ht => .inr ⟨a, d, rest, hi, ho, bit_of_cleared hs ht⟩, fun hne => absurd rfl hne⟩
  · exact ⟨rise id, rise id, fun _ => .inr ⟨a, d, rest, hi, ho⟩⟩

end Sys2Proof.Machine
end
